-- ==== Sys2Proof/Word.lean ====
section
/-! DEFINITION. The widths the spec names: u32 (REG_W, ADDR_W and LEN_W, 00_scope.md R9), u8 and u6 (R11). -/

namespace Sys2Proof

/-- A register value or a command word, 32 bits (00_scope.md R9, `REG_W`). -/
abbrev Word := BitVec 32

/-- A byte of system memory (`u8`, 00_scope.md R11). -/
abbrev Byte := BitVec 8

/-- The value of one base64 symbol (`u6`, 00_scope.md R11). -/
abbrev Sextet := BitVec 6

end Sys2Proof
end

