-- ==== Sys2Proof/Config.lean ====
section
/-! DEFINITION. What is fixed for one machine: the parameters of 00_scope.md R9, the platform's open
parameters as plain data, and the free values (93_implementation_defined.md, `any value`). -/

namespace Sys2Proof

/-- A contiguous set of addresses, `base` to `base + len - 1` (20_memory.md R51). -/
structure Range where
  base : Nat
  len  : Nat
deriving DecidableEq, Repr

/-- A set of addresses as a union of ranges. -/
abbrev AddrSet := List Range

/-- The platform's parameters, OPEN in 00_scope.md R9. No step changes them (log 4). -/
structure Platform where
  /-- `B64_BASE`, the register window's base on the host bus (20_memory.md R61). -/
  b64Base  : Nat
  /-- `COHERENT` (20_memory.md R67). -/
  coherent : Bool
  /-- The addresses at which `MemAdmit` is false (20_memory.md R68). -/
  refused  : AddrSet
  /-- The addresses of devices, whose reads or writes have side effects (20_memory.md R59). -/
  device   : AddrSet
deriving DecidableEq, Repr

namespace Config

/-- The size of system memory, `2^ADDR_W` (20_memory.md R50). -/
def addrSpace : Nat := 2 ^ 32

/-- `NULL_ADDR` (00_scope.md R9). -/
def nullAddr : Nat := 0

/-- The size of the register window (10_state.md R21). -/
def windowSize : Nat := 0x20

/-- What a byte of system memory that nothing has written reads as. DESIGN CHOICE, unsafe (log 1):
the spec gives no power-on contents (70_reset_and_hazards.md R242). -/
def unwrittenByte : Byte := 0#8

/-- The platform of `State.reset`. DESIGN CHOICE, unsafe (log 4): 00_scope.md R9 leaves all four OPEN. The
window stands above system memory's addresses, since the two are separate spaces (20_memory.md R50). -/
def platform : Platform :=
  { b64Base := 0x100000000, coherent := true, refused := [], device := [] }

/-- Free value (log 5): the value of a byte of a write range that the spec leaves UNPREDICTABLE
(20_memory.md R60, 60_exceptions.md R205, 70_reset_and_hazards.md R241 and R245), and the answer to
an agent's read it leaves so (R245; 20_memory.md R67). Arguments: the draw, the address. -/
opaque freeByte : Nat → Nat → Byte

/-- Free value (log 13): the byte the engine reads at an address the host has not made visible on a
platform that is not coherent (20_memory.md R67). Arguments: the draw at its acceptance, the address. -/
opaque freeSourceByte : Nat → Nat → Byte

/-- Free value (logs 6 and 7): DECODE's RESULT_LEN before it is brought into 0 to DST_CAP
(93_implementation_defined.md U3, U6). Argument: the draw. -/
opaque freeLength : Nat → Nat

/-- Free value (log 7): whether DECODE's scan finds a source byte that another agent wrote to be one of the
alphabet (70_reset_and_hazards.md R245). Arguments: the draw, the address. -/
opaque freeValid : Nat → Nat → Bool

/-- Free value (log 7): whether DECODE's capacity check fails after another agent wrote one of the last
two source bytes (70_reset_and_hazards.md R245). Argument: the draw. -/
opaque freeTooSmall : Nat → Bool

end Config

end Sys2Proof
end

