-- ==== Sys2Proof/Machine/Alphabet.lean ====
section
/-! DEFINITION. The constant tables MAP6 and UNMAP8 (10_state.md R40; 42_alphabet.md). -/

namespace Sys2Proof.Machine

/-- The pad byte `=` (40_encode.md R103, 42_alphabet.md R174 and R176). -/
def padByte : Byte := 0x3D#8

/-- The terminator (40_encode.md R106). -/
def terminator : Byte := 0x00#8

/-- MAP6 (42_alphabet.md R170). -/
def map6 (v : Sextet) : Byte :=
  if v.toNat ≤ 25 then BitVec.ofNat 8 (0x41 + v.toNat)
  else if v.toNat ≤ 51 then BitVec.ofNat 8 (0x61 + (v.toNat - 26))
  else if v.toNat ≤ 61 then BitVec.ofNat 8 (0x30 + (v.toNat - 52))
  else if v.toNat = 62 then 0x2B#8
  else 0x2F#8

/-- UNMAP8 (42_alphabet.md R172): the value and whether the byte is one of the alphabet. -/
def unmap8 (c : Byte) : Sextet × Bool :=
  if 0x41 ≤ c.toNat ∧ c.toNat ≤ 0x5A then (BitVec.ofNat 6 (c.toNat - 0x41), true)
  else if 0x61 ≤ c.toNat ∧ c.toNat ≤ 0x7A then (BitVec.ofNat 6 (c.toNat - 0x61 + 26), true)
  else if 0x30 ≤ c.toNat ∧ c.toNat ≤ 0x39 then (BitVec.ofNat 6 (c.toNat - 0x30 + 52), true)
  else if c = 0x2B#8 then (62#6, true)
  else if c = 0x2F#8 then (63#6, true)
  else (0#6, false)

end Sys2Proof.Machine
end

