-- ==== Sys2Proof/Syntax.lean ====
section
/-! DEFINITION. The instruction set: the two command words of 30_encoding.md R71, and the fields of
the one format CMDW (R70). -/

namespace Sys2Proof

/-- The instructions, one constructor per row of the opcode table (30_encoding.md R71). A command has
no operand field: its operands are the operand registers (R73). -/
inductive Instr where
  /-- ENCODE, 40_encode.md R110. -/
  | encode
  /-- DECODE, 41_decode.md R143. -/
  | decode
deriving DecidableEq, Repr

/-- The fields of a CMDW word (30_encoding.md R70). -/
structure CmdWord where
  /-- Bits 31:4, reserved, must be 0. -/
  rsvd : BitVec 28
  /-- Bits 3:0, the operation selector. -/
  op   : BitVec 4
deriving DecidableEq, Repr

/-- Why a word is illegal (30_encoding.md R72). The block reports both as ILLEGAL_CMD. -/
inductive IllegalWord where
  /-- `OP` is neither 0x1 nor 0x2. -/
  | unassignedOp
  /-- `OP` is 0x1 or 0x2 and `RSVD` is not 0. -/
  | reservedBitsSet
deriving DecidableEq, Repr

end Sys2Proof
end

