-- ==== Sys2Proof/WellFormed.lean ====
section
/-! DEFINITION. Well-formed command words (30_encoding.md R70 to R72). An `Instr` has no field, so every
instruction is well formed; what can be ill formed is the word's fields. -/

namespace Sys2Proof

/-- The operation selector is one of the two of 30_encoding.md R71. -/
def CmdWord.opAssigned (c : CmdWord) : Bool := c.op == 0x1#4 || c.op == 0x2#4

/-- The reserved field is 0 (30_encoding.md R70). -/
def CmdWord.reservedClear (c : CmdWord) : Bool := c.rsvd == 0#28

/-- A legal command word's fields (30_encoding.md R72). -/
def CmdWord.wellFormed (c : CmdWord) : Bool := c.opAssigned && c.reservedClear

/-- Every instruction is well formed: it has no operand field to check (30_encoding.md R73). -/
def Instr.wellFormed : Instr → Bool
  | .encode => true
  | .decode => true

end Sys2Proof
end

