-- ==== Sys2Proof/Decode.lean ====
section
/-! DEFINITION. Command words to instructions and back (30_encoding.md R70 to R72). A command word is a
32-bit register value; which bus byte lane carries which bits is not fixed (10_state.md R35, log 18). -/

namespace Sys2Proof

/-- The fields of a word: RSVD is bits 31:4, OP is bits 3:0 (30_encoding.md R70). -/
def CmdWord.ofWord (w : Word) : CmdWord :=
  { rsvd := w.extractLsb' 4 28, op := w.extractLsb' 0 4 }

/-- The word of its fields, RSVD above OP (30_encoding.md R70). -/
def CmdWord.toWord (c : CmdWord) : Word := c.rsvd ++ c.op

/-- The operation selectors of 30_encoding.md R71. -/
def opOf : BitVec 4 → Option Instr
  | 0x1#4 => some .encode
  | 0x2#4 => some .decode
  | _ => none

/-- Total decoding of a word (30_encoding.md R72): ENCODE, DECODE, or illegal, by name. -/
def decode (w : Word) : Except IllegalWord Instr :=
  let c := CmdWord.ofWord w
  match opOf c.op with
  | none => .error .unassignedOp
  | some i => if c.reservedClear then .ok i else .error .reservedBitsSet

/-- The selector of an instruction (30_encoding.md R71). -/
def selectorOf : Instr → BitVec 4
  | .encode => 0x1#4
  | .decode => 0x2#4

/-- The word of an instruction (30_encoding.md R70, R71). -/
def encode (i : Instr) : Word := CmdWord.toWord { rsvd := 0#28, op := selectorOf i }

/-- The instruction the decoder reads from an opcode-table row of `nbits` bits with bits `w`; every bit
above `nbits` is 0. A command is one 32-bit word (30_encoding.md R70). -/
def decodeTableWord (nbits w : Nat) : Option Instr :=
  let bits := w % 2 ^ nbits
  if bits < 2 ^ 32 then (decode (BitVec.ofNat 32 bits)).toOption else none

end Sys2Proof
end

