-- ==== Sys2Proof/Machine/State.lean ====
section
/-! DEFINITION. The machine's state, as plain data, and the state after reset (10_state.md R20;
70_reset_and_hazards.md R240). -/

namespace Sys2Proof.Machine

/-- System memory (20_memory.md R50): address and byte, addresses strictly rising, no entry equal to
what an unlisted address reads as (`Memory.wf`). -/
abbrev Memory := List Host.Cell

/-- The flags and the code of the STATUS register (10_state.md R23). Its reserved bits have no storage. -/
structure Status where
  /-- Bit 0: an accepted operation has not completed (R24). -/
  busy : Bool
  /-- Bit 1: an operation or an illegal command has completed (R25). -/
  done : Bool
  /-- Bit 2: a register write was ignored because BUSY was 1 (R26). -/
  ign  : Bool
  /-- Bits 7:4: the completion code of the last completion (R27). -/
  code : BitVec 4
deriving DecidableEq, Repr

/-- The engine phase (10_state.md R38). -/
inductive Phase where
  | idle
  | busy (op : Instr)
deriving DecidableEq, Repr

/-- An operation's operands as exact integers (30_encoding.md R73, 00_scope.md R10). -/
structure Operands where
  srcBase : Nat
  srcLen  : Nat
  dstBase : Nat
  dstCap  : Nat
deriving DecidableEq, Repr

/-- How a command ends (60_exceptions.md R200). -/
inductive Completion where
  | ok
  | invalidArgument
  | insufficientCapacity
  | illegalCmd
  | busError
deriving DecidableEq, Repr

/-- Memory about an operation that has completed and is not known to have (70_reset_and_hazards.md R245;
log 7). -/
structure Settled where
  /-- Memory as the completion step found it: what the operation read. -/
  found     : Memory
  /-- What memory would hold had the operation written nothing: `found` and other agents' writes since. -/
  unwritten : Memory
  /-- How it completed. -/
  code      : Completion
  /-- Its would-be write range (20_memory.md R56). -/
  range     : Range
deriving DecidableEq, Repr

/-- The operation whose buffers are not the host's again (70_reset_and_hazards.md R245; log 7). -/
structure Ownership where
  op       : Instr
  operands : Operands
  /-- None until the completion step. -/
  settled  : Option Settled
deriving DecidableEq, Repr

/-- An operation that completed and whose own DONE = 1 the host did not observe and can no longer: another
command was accepted since, or the block was reset (70_reset_and_hazards.md R245; log 23). -/
structure Claim where
  operands : Operands
  /-- The addresses of its would-be write range that no operation has written since. -/
  written  : AddrSet
deriving DecidableEq, Repr

/-- What happened to the operation's buffers that makes a value UNPREDICTABLE. -/
structure Race where
  /-- Another agent wrote a byte of either view (70_reset_and_hazards.md R245). -/
  raced       : Bool
  /-- Another agent wrote one of DECODE's last two source bytes (R245). -/
  racedTail   : Bool
  /-- The addresses of the source view that another agent wrote, without repeats (R245). -/
  racedSource : List Nat
  /-- The engine sees the host's source bytes (20_memory.md R63, R67), judged at acceptance. -/
  sourceSeen  : Bool
  /-- The draw of the source bytes of an operation that does not see the host's (log 13). -/
  sourceDraw  : Nat
deriving DecidableEq, Repr

/-- The registers of the window (10_state.md R21). -/
inductive Reg where
  | cmd | status | srcBase | srcLen | dstBase | dstCap | resultLen | cfg
deriving DecidableEq, Repr

/-- The masters of system memory beside the engine (00_scope.md R8): the host, whose caches 20_memory.md R67
speaks of, and every other bus master. -/
inductive Master where
  | host | other
deriving DecidableEq, Repr

/-- What reaches the block from outside, one entry for one step (00_scope.md R8; log 2). -/
inductive Input where
  /-- The engine's turn: its completion step where an operation is in progress (60_exceptions.md R210). -/
  | engine
  /-- The host writes `size` bytes at a host bus address (10_state.md R35). -/
  | busWrite (addr size : Nat) (data : Word)
  /-- The host reads `size` bytes at a host bus address (10_state.md R35). -/
  | busRead (addr size : Nat)
  /-- The host or another bus master writes one byte of system memory (20_memory.md R50). -/
  | memWrite (master : Master) (addr : Word) (value : Byte)
  /-- The host or another bus master reads one byte of system memory (20_memory.md R50). -/
  | memRead (master : Master) (addr : Word)
  /-- The host cleans a range of its caches (20_memory.md R67). -/
  | cacheClean (range : Range)
  /-- The host invalidates a range of its caches (20_memory.md R67). -/
  | cacheInvalidate (range : Range)
  /-- The host observes the level of IRQ (60_exceptions.md R214; 70_reset_and_hazards.md R246). -/
  | sampleIrq
  /-- The platform's reset input (70_reset_and_hazards.md R240). -/
  | reset
deriving DecidableEq, Repr

/-- What an agent outside the block was answered. -/
inductive Response where
  /-- A register read returned this value. -/
  | reg (r : Reg) (value : Word)
  /-- A read of system memory returned this byte. -/
  | mem (addr : Nat) (value : Byte)
  /-- System memory refused the agent's access (20_memory.md R68; log 19). -/
  | memRefused (addr : Nat)
  /-- The level of IRQ. -/
  | irq (level : Bool)
deriving DecidableEq, Repr

/-- The machine. The first block of fields is the spec's (10_state.md R20, 20_memory.md R50), the second
the platform's parameters, the third the model's own (INVENTORY.md, State). -/
structure State where
  srcBase   : Word
  srcLen    : Word
  dstBase   : Word
  dstCap    : Word
  resultLen : Word
  status    : Status
  /-- `CFG.IRQ_EN`, bit 0 of CFG (10_state.md R33). -/
  irqEn     : Bool
  phase     : Phase
  mem       : Memory
  platform  : Platform
  /-- What is still to come, in order; the head is the next step's (log 2). -/
  inputs    : List Input
  /-- What agents were answered so far, newest first. -/
  responses : List Response
  owned     : Option Ownership
  /-- The operations that completed unseen, newest first (log 23). -/
  unseen    : List Claim
  race      : Race
  /-- Addresses the host has cleaned since its last write there (20_memory.md R67; log 13). -/
  clean     : AddrSet
  /-- Addresses the engine may have written since the host's last invalidate (R67; log 13). -/
  stale     : AddrSet
  /-- The counter free values are drawn with (log 5). -/
  draws     : Nat
deriving DecidableEq, Repr

/-- The block raises no fault: errors are completion codes (60_exceptions.md R213, R224). The type has no
constructor (log 16). -/
inductive Fault where
deriving DecidableEq, Repr

/-- Why the model gives no next state. -/
inductive Refusal where
  /-- Raised by `exec` for an instruction without a meaning; safe. None is left. -/
  | notModelled (mnemonic : String)
  /-- Raised by the host port for a register access that is not an aligned 32-bit access, which is
  UNPREDICTABLE (10_state.md R35; 93_implementation_defined.md U1); safe. -/
  | unpredictableRegisterAccess
  /-- Raised where an access would reach memory with side effects, which is UNPREDICTABLE and acts on a
  device the spec does not describe (20_memory.md R59; 93_implementation_defined.md U2); safe. -/
  | sideEffectMemory
deriving DecidableEq, Repr

/-- `Status` after reset (70_reset_and_hazards.md R240). -/
def Status.reset : Status := { busy := false, done := false, ign := false, code := 0x0#4 }

/-- No race yet, the source visible or not. -/
def Race.fresh (sourceSeen : Bool) (sourceDraw : Nat) : Race :=
  { raced := false, racedTail := false, racedSource := [], sourceSeen := sourceSeen,
    sourceDraw := sourceDraw }

/-- No race, source visible: the value before any operation (log 7). -/
def Race.none : Race := Race.fresh true 0

/-- The machine right after reset (70_reset_and_hazards.md R240), memory with nothing listed (log 1) and
the model's own fields empty (logs 2, 4, 5, 7, 13, 23). -/
def State.reset : State :=
  { srcBase := 0#32, srcLen := 0#32, dstBase := 0#32, dstCap := 0#32, resultLen := 0#32,
    status := Status.reset, irqEn := false, phase := .idle, mem := [],
    platform := Config.platform, inputs := [], responses := [], owned := none, unseen := [],
    race := Race.none, clean := [], stale := [], draws := 0 }

end Sys2Proof.Machine
end

