-- ==== Sys2Proof/Machine/Flags.lean ====
section
/-! DEFINITION. The completion codes, the STATUS flags and the interrupt level (10_state.md R23 to R27,
R41; 60_exceptions.md R200, R214). -/

namespace Sys2Proof.Machine

/-- The number of a completion code (60_exceptions.md R200). -/
def completionCode : Completion → BitVec 4
  | .ok => 0x0#4
  | .invalidArgument => 0x1#4
  | .insufficientCapacity => 0x2#4
  | .illegalCmd => 0x3#4
  | .busError => 0x4#4

/-- The STATUS word (10_state.md R23): bits 31:8 and 3 read 0 (R34). -/
def Status.toWord (f : Status) : Word :=
  0#24 ++ f.code ++ 0#1 ++ BitVec.ofBool f.ign ++ BitVec.ofBool f.done ++ BitVec.ofBool f.busy

/-- The CFG word (10_state.md R33): bits 31:1 read 0. -/
def cfgWord (irqEn : Bool) : Word := 0#31 ++ BitVec.ofBool irqEn

/-- The flags at acceptance (60_exceptions.md R208): BUSY 1, DONE 0, CODE 0, IGN unchanged. -/
def Status.accept (f : Status) : Status := { f with busy := true, done := false, code := 0x0#4 }

/-- The flags at an operation's completion (60_exceptions.md R210): BUSY 0, DONE 1, IGN unchanged. -/
def Status.complete (f : Status) (c : Completion) : Status :=
  { f with busy := false, done := true, code := completionCode c }

/-- The flags at an ILLEGAL_CMD completion (60_exceptions.md R204): DONE 1, CODE 0x3. -/
def Status.illegal (f : Status) : Status :=
  { f with done := true, code := completionCode .illegalCmd }

/-- A host write to STATUS: bits 1 and 2 clear DONE and IGN where they are 1 (10_state.md R23). -/
def Status.write (f : Status) (w : Word) : Status :=
  { f with done := f.done && !w.getLsbD 1, ign := f.ign && !w.getLsbD 2 }

/-- An ignored write sets IGN (10_state.md R36). -/
def Status.ignore (f : Status) : Status := { f with ign := true }

/-- The level of the interrupt output (10_state.md R41, 60_exceptions.md R214). -/
def State.irq (s : State) : Bool := s.status.done && s.irqEn

end Sys2Proof.Machine
end

