-- ==== Sys2Proof/Machine/Operands.lean ====
section
/-! DEFINITION. Address sets, views and the operands of a command (20_memory.md R51, R52;
30_encoding.md R73). -/

namespace Sys2Proof

/-- The first address past a range. -/
def Range.stop (r : Range) : Nat := r.base + r.len

/-- The address lies in the range. -/
def Range.mem (r : Range) (a : Nat) : Bool := r.base ≤ a && a < r.stop

/-- Two ranges share an address (20_memory.md R60). -/
def Range.meets (r x : Range) : Bool := max r.base x.base < min r.stop x.stop

/-- The part of `x` below and above `r`, each only where it is not empty. -/
def Range.minus (x r : Range) : AddrSet :=
  let below : Range := { base := x.base, len := min x.stop r.base - x.base }
  let above : Range := { base := max x.base r.stop, len := x.stop - max x.base r.stop }
  if r.meets x then [below, above].filter (fun p => p.len != 0) else [x]

/-- The part of `r` below `n`. -/
def Range.below (r : Range) (n : Nat) : Range := { base := r.base, len := min r.stop n - r.base }

/-- The address lies in the set. -/
def AddrSet.mem (xs : AddrSet) (a : Nat) : Bool := xs.any (fun x => x.mem a)

/-- The set and the range share an address. -/
def AddrSet.meets (xs : AddrSet) (r : Range) : Bool := xs.any (fun x => x.meets r)

/-- The set without the range. -/
def AddrSet.remove (xs : AddrSet) (r : Range) : AddrSet := xs.flatMap (fun x => x.minus r)

/-- Every address of the range lies in the set. -/
def AddrSet.covers (xs : AddrSet) (r : Range) : Bool :=
  (xs.foldl (fun rest x => AddrSet.remove rest x) [r]).all (fun p => p.len == 0)

/-- The register window on the host bus (10_state.md R21). -/
def Platform.window (p : Platform) : Range := { base := p.b64Base, len := Config.windowSize }

/-- The addresses of system memory with read or write side effects: the platform's devices and the block's
own register window (20_memory.md R50, R59; log 20). -/
def Platform.sideEffects (p : Platform) : AddrSet :=
  (p.window :: p.device).map (fun r => r.below Config.addrSpace)

namespace Machine

/-- `MemAdmit(a)` (00_scope.md R9, 20_memory.md R68). -/
def memAdmit (p : Platform) (a : Nat) : Bool := !AddrSet.mem p.refused a

/-- `MemAdmit` holds at every address of the range. -/
def rangeAdmitted (p : Platform) (r : Range) : Bool := !AddrSet.meets p.refused r

/-- `ViewOK(b, s)` on exact integers (20_memory.md R52). -/
def viewOK (b s : Nat) : Bool :=
  !(b == Config.nullAddr && decide (s > 0)) && decide (b + s ≤ Config.addrSpace)

/-- The source view (20_memory.md R51). -/
def Operands.source (v : Operands) : Range := { base := v.srcBase, len := v.srcLen }

/-- The destination view (20_memory.md R51). -/
def Operands.destination (v : Operands) : Range := { base := v.dstBase, len := v.dstCap }

/-- Both views are structurally valid (40_encode.md R107 (a)(b), 41_decode.md R138 (a)(b)). -/
def Operands.viewsOK (v : Operands) : Bool :=
  viewOK v.srcBase v.srcLen && viewOK v.dstBase v.dstCap

/-- The two views share an address (20_memory.md R60). -/
def Operands.overlap (v : Operands) : Bool := v.source.meets v.destination

/-- Either view covers memory with side effects (20_memory.md R59). -/
def Operands.touchesDevice (v : Operands) (p : Platform) : Bool :=
  AddrSet.meets p.sideEffects v.source || AddrSet.meets p.sideEffects v.destination

/-- The address lies in one of the views (70_reset_and_hazards.md R245). -/
def Operands.inViews (v : Operands) (a : Nat) : Bool := v.source.mem a || v.destination.mem a

/-- The operand registers, read as unsigned integers (30_encoding.md R73). -/
def State.operands (s : State) : Operands :=
  { srcBase := s.srcBase.toNat, srcLen := s.srcLen.toNat,
    dstBase := s.dstBase.toNat, dstCap := s.dstCap.toNat }

/-- The offset of a register in the window (10_state.md R21, 30_encoding.md R74). -/
def Reg.offset : Reg → Nat
  | .cmd => 0x00
  | .status => 0x04
  | .srcBase => 0x08
  | .srcLen => 0x0C
  | .dstBase => 0x10
  | .dstCap => 0x14
  | .resultLen => 0x18
  | .cfg => 0x1C

/-- The register at an offset of the window (10_state.md R21); none where the offset is not a multiple
of 4 or lies outside. -/
def Reg.ofOffset (n : Nat) : Option Reg :=
  [Reg.cmd, .status, .srcBase, .srcLen, .dstBase, .dstCap, .resultLen, .cfg].find?
    (fun r => r.offset == n)

end Machine

end Sys2Proof
end

