-- ==== Sys2Proof/Machine/Ops.lean ====
section
/-! DEFINITION. The shared operations: system memory (20_memory.md), acceptance and completion
(60_exceptions.md R204, R208, R210), and the register window (10_state.md R22 to R36). -/

namespace Sys2Proof.Machine

/-- The byte at an address (20_memory.md R53). -/
def Memory.read : Memory → Nat → Byte
  | [], _ => Config.unwrittenByte
  | (k, v) :: rest, a => if k = a then v else Memory.read rest a

/-- Write one byte (20_memory.md R53). The canonical form is kept: an entry equal to what an unlisted
address reads as is not listed. -/
def Memory.write : Memory → Nat → Byte → Memory
  | [], a, b => if b = Config.unwrittenByte then [] else [(a, b)]
  | (k, v) :: rest, a, b =>
    if a < k then
      if b = Config.unwrittenByte then (k, v) :: rest else (a, b) :: (k, v) :: rest
    else if a = k then
      if b = Config.unwrittenByte then rest else (a, b) :: rest
    else (k, v) :: Memory.write rest a b

/-- The bytes at `a, a + 1, …` in ascending order (20_memory.md R54). -/
def Memory.readBytes (m : Memory) (a : Nat) : Nat → List Byte
  | 0 => []
  | n + 1 => m.read a :: Memory.readBytes m (a + 1) n

/-- Write bytes in ascending order from `a` (20_memory.md R54). -/
def Memory.writeBytes (m : Memory) (a : Nat) : List Byte → Memory
  | [] => m
  | b :: bs => Memory.writeBytes (m.write a b) (a + 1) bs

/-- Every listed address is above the bound, strictly rising, and no entry is one an unlisted address
would read as. -/
def Memory.wfFrom : Nat → Memory → Bool
  | _, [] => true
  | lo, (k, v) :: rest => decide (lo ≤ k) && v != Config.unwrittenByte && Memory.wfFrom (k + 1) rest

/-- The canonical form of a memory. -/
def Memory.wf (m : Memory) : Bool := Memory.wfFrom 0 m

/-- Every listed address is one of system memory's `2^ADDR_W` (20_memory.md R50). -/
def Memory.bounded (m : Memory) : Bool := m.all (fun c => decide (c.1 < Config.addrSpace))

/-- Free bytes for `n` addresses from `a` (log 5). -/
def freeBytes (draw a : Nat) : Nat → List Byte
  | 0 => []
  | n + 1 => Config.freeByte draw a :: freeBytes draw (a + 1) n

/-- The source range is visible to the engine (20_memory.md R63, R67): the platform is coherent, or the
host has cleaned all of it since its last write there (log 13). -/
def State.sourceVisible (s : State) : Bool :=
  s.platform.coherent || AddrSet.covers s.clean s.operands.source

/-- Free bytes at every address of the set (log 5). -/
def Memory.scatter (m : Memory) (draw : Nat) (xs : AddrSet) : Memory :=
  xs.foldl (fun m r => m.writeBytes r.base (freeBytes draw r.base r.len)) m

/-- The addresses an operation is sure to have written: its write range where it completed with OK
(20_memory.md R56), and none where its bytes may be the old ones (60_exceptions.md R205). -/
def Settled.overwritten (m : Settled) : Range :=
  if m.code = .ok then m.range else { m.range with len := 0 }

/-- The claim without the addresses of the range. -/
def Claim.without (r : Range) (c : Claim) : Claim := { c with written := AddrSet.remove c.written r }

/-- The claims of the operations the host never saw complete, once it has seen this one complete. -/
def Ownership.observed (o : Ownership) (unseen : List Claim) : List Claim :=
  match o.settled with
  | none => unseen
  | some m => unseen.map (Claim.without m.overwritten)

/-- The claims of the operations the host never saw complete, once it can no longer see this one complete: a
completed one has its claim for good (70_reset_and_hazards.md R245, `its DONE = 1`; log 23). -/
def Ownership.retired (o : Ownership) (unseen : List Claim) : List Claim :=
  match o.settled with
  | none => unseen
  | some m => { operands := o.operands, written := [m.range] } :: o.observed unseen

/-- The claims after the newest operation lost its DONE. -/
def State.retire (s : State) : List Claim :=
  match s.owned with
  | none => s.unseen
  | some o => o.retired s.unseen

/-- Acceptance of a command (60_exceptions.md R208). From here its buffers are the engine's; those of an
operation whose own DONE was not observed stay claimed (70_reset_and_hazards.md R245; log 23). -/
def accept (i : Instr) (s : State) : State :=
  { s with
    phase := .busy i, status := s.status.accept, resultLen := 0#32,
    owned := some { op := i, operands := s.operands, settled := none }, unseen := s.retire,
    race := Race.fresh s.sourceVisible s.draws }

/-- `complete(code, len)` (60_exceptions.md R210), the one way an operation ends. -/
def complete (c : Completion) (len : Nat) (s : State) : State :=
  { s with
    resultLen := BitVec.ofNat 32 len, status := s.status.complete c, phase := .idle }

/-- The completion of an illegal command word (60_exceptions.md R204). -/
def completeIllegal (s : State) : State :=
  { s with resultLen := 0#32, status := s.status.illegal }

/-- What the body of an operation yields (40_encode.md R110, 41_decode.md R143). -/
structure OpResult where
  code  : Completion
  /-- What RESULT_LEN becomes. -/
  len   : Nat
  /-- The values of the would-be write range (20_memory.md R56), from DST_BASE up. -/
  bytes : List Byte
deriving DecidableEq, Repr

/-- An operation that ends with an error before its first write (20_memory.md R57). -/
def OpResult.failed (c : Completion) : OpResult := { code := c, len := 0, bytes := [] }

/-- The host must invalidate the destination before it reads it, where the platform is not coherent
(20_memory.md R67; log 13). -/
def State.markStale (s : State) (r : Range) : AddrSet :=
  if s.platform.coherent then s.stale else r :: s.stale

/-- The would-be write range of an operation with this result. -/
def OpResult.range (r : OpResult) (dstBase : Nat) : Range := { base := dstBase, len := r.bytes.length }

/-- How an operation completed, by its result. -/
def Settled.record (m : Settled) (r : OpResult) (dstBase : Nat) : Settled :=
  { m with code := r.code, range := r.range dstBase }

/-- The operation has completed over this memory; what it wrote is not observed yet (log 7). -/
def Ownership.settle (m : Memory) (r : OpResult) (o : Ownership) : Ownership :=
  let range := r.range o.operands.dstBase
  { o with settled := some { found := m, unwritten := m, code := r.code, range := range } }

/-- The engine's completion step (60_exceptions.md R210) once the body has its result: its writes, and
DONE after them (20_memory.md R63). -/
def finish (result : Except Refusal OpResult) (s : State) :
    Host.Outcome State Fault Refusal :=
  match result with
  | .error r => .refused r
  | .ok r =>
    .next (complete r.code r.len
      { s with
        mem := s.mem.writeBytes s.operands.dstBase r.bytes,
        owned := s.owned.map (Ownership.settle s.mem r),
        stale := s.markStale s.operands.destination,
        draws := s.draws + 1 })

/-- The source byte the engine reads (20_memory.md R51, R58): memory's where the host's writes are
visible, a free value where they are not (R67; log 13). DESIGN CHOICE (log 22): however often an operation
reads a byte (41_decode.md R143 reads one up to three times), it reads one value. -/
def sourceByte (rc : Race) (s : State) (a : Nat) : Byte :=
  if rc.sourceSeen then s.mem.read a else Config.freeSourceByte rc.sourceDraw a

/-- The `n` source bytes from `a`, in ascending address order (20_memory.md R54). -/
def sourceBytes (rc : Race) (s : State) (a : Nat) : Nat → List Byte
  | 0 => []
  | n + 1 => sourceByte rc s a :: sourceBytes rc s (a + 1) n

/-- The values an operation writes are UNPREDICTABLE: its views overlap (20_memory.md R60) or another
agent wrote one of them (70_reset_and_hazards.md R245). -/
def unpredictable (v : Operands) (rc : Race) : Bool :=
  v.overlap || rc.raced || rc.racedTail || !rc.racedSource.isEmpty

/-- The address is one of DECODE's last two source bytes (41_decode.md R130). -/
def Operands.inTail (v : Operands) (a : Nat) : Bool :=
  v.source.mem a && decide (v.srcBase + v.srcLen ≤ a + 2)

/-- A host write to a register that is ignored while BUSY (10_state.md R36). -/
def ignoreWrite (s : State) : State := { s with status := s.status.ignore }

/-- A host write to CMD while not BUSY, a command issue (10_state.md R22). -/
def issue (w : Word) (s : State) : State :=
  match decode w with
  | .ok i => accept i s
  | .error _ => completeIllegal s

/-- An aligned 32-bit host write to a register (10_state.md R22, R23, R28 to R33, R36). -/
def writeReg (r : Reg) (w : Word) (s : State) : State :=
  match r with
  | .cmd => if s.status.busy then ignoreWrite s else issue w s
  | .status => { s with status := s.status.write w }
  | .srcBase => if s.status.busy then ignoreWrite s else { s with srcBase := w }
  | .srcLen => if s.status.busy then ignoreWrite s else { s with srcLen := w }
  | .dstBase => if s.status.busy then ignoreWrite s else { s with dstBase := w }
  | .dstCap => if s.status.busy then ignoreWrite s else { s with dstCap := w }
  | .resultLen => s
  | .cfg => if s.status.busy then ignoreWrite s else { s with irqEn := w.getLsbD 0 }

/-- The value of an aligned 32-bit host read of a register (10_state.md R21 to R33). -/
def readReg (r : Reg) (s : State) : Word :=
  match r with
  | .cmd => 0#32
  | .status => s.status.toWord
  | .srcBase => s.srcBase
  | .srcLen => s.srcLen
  | .dstBase => s.dstBase
  | .dstCap => s.dstCap
  | .resultLen => s.resultLen
  | .cfg => cfgWord s.irqEn

/-- STATUS.DONE is the newest operation's own: 1, and not set by an illegal command since
(70_reset_and_hazards.md R245, `its DONE = 1`; 60_exceptions.md R204; log 23). -/
def Status.doneIsOwn (f : Status) : Bool := f.done && f.code != completionCode .illegalCmd

/-- The claims after the host has seen the newest operation complete. -/
def State.release (s : State) : List Claim :=
  match s.owned with
  | none => s.unseen
  | some o => o.observed s.unseen

/-- The host has looked at DONE: if it is 1, and the newest operation's own, that operation's buffers are the
host's again (70_reset_and_hazards.md R245, R246). -/
def observeDone (s : State) : State :=
  if s.status.doneIsOwn then { s with owned := none, unseen := s.release } else s

/-- The host's read of a register: the answer, and what reading STATUS tells the host. -/
def hostReadReg (r : Reg) (s : State) : State :=
  let answered := { s with responses := .reg r (readReg r s) :: s.responses }
  match r with
  | .status => observeDone answered
  | _ => answered

/-- The register an access of `size` bytes reaches (10_state.md R35): none where it is not an aligned
32-bit access of the window. -/
def accessedReg (p : Platform) (addr size : Nat) : Option Reg :=
  if size = 4 ∧ p.b64Base ≤ addr then Reg.ofOffset (addr - p.b64Base) else none

/-- A host bus access (10_state.md R35): one that does not touch the window is not the block's (log 12);
one that touches it in another shape than an aligned 32-bit access is refused by name. -/
def hostAccess (addr size : Nat) (act : Reg → State → State) (s : State) :
    Host.Outcome State Fault Refusal :=
  if Range.meets { base := addr, len := size } (Platform.window s.platform) then
    match accessedReg s.platform addr size with
    | some r => .next (act r s)
    | none => .refused .unpredictableRegisterAccess
  else .next s

/-- The host observes IRQ (60_exceptions.md R214; 70_reset_and_hazards.md R246). -/
def sampleIrq (s : State) : State :=
  let answered := { s with responses := .irq s.irq :: s.responses }
  if s.irq then observeDone answered else answered

/-- The host cleans a range (20_memory.md R67; log 13). -/
def cacheClean (r : Range) (s : State) : State := { s with clean := r :: s.clean }

/-- The host invalidates a range (20_memory.md R67; log 13). -/
def cacheInvalidate (r : Range) (s : State) : State :=
  { s with stale := AddrSet.remove s.stale r }

end Sys2Proof.Machine
end

