-- ==== Sys2Proof/Machine/DecodeOp.lean ====
section
/-! DEFINITION. DECODE (41_decode.md). -/

namespace Sys2Proof.Machine

/-- 1 for the pad byte, 0 for another: `e1` and `e2` of 41_decode.md R130. -/
def padCount (c : Byte) : Nat := if c = padByte then 1 else 0

/-- `DecLen` from the length and the bytes at offsets `L - 1` and `L - 2` (41_decode.md R130). -/
def decodedLen (n : Nat) (last secondLast : Byte) : Nat :=
  if n = 0 then 0 else n / 4 * 3 - padCount last - padCount secondLast

/-- The values of the valid prefix (41_decode.md R131): its length is `K`. -/
def validPrefix : List Byte → List Sextet
  | [] => []
  | c :: rest => if (unmap8 c).2 then (unmap8 c).1 :: validPrefix rest else []

/-- `byte0 = (v1 << 2) | (v2 >> 4)` (41_decode.md R132). -/
def decodedByte0 (v1 v2 : Sextet) : Byte := v1.setWidth 8 <<< 2 ||| v2.setWidth 8 >>> 4

/-- `byte1 = ((v2 & 0xF) << 4) | (v3 >> 2)` (41_decode.md R132). -/
def decodedByte1 (v2 v3 : Sextet) : Byte := (v2.setWidth 8 &&& 0xF#8) <<< 4 ||| v3.setWidth 8 >>> 2

/-- `byte2 = ((v3 & 0x3) << 6) | v4` (41_decode.md R132). -/
def decodedByte2 (v3 v4 : Sextet) : Byte := (v3.setWidth 8 &&& 0x3#8) <<< 6 ||| v4.setWidth 8

/-- The bytes of the valid symbols (41_decode.md R132 to R135): full groups, then a remainder of 3 or 2
symbols; a remainder of 1 is dropped (REM1_DROP). -/
def decodeSymbols : List Sextet → List Byte
  | v1 :: v2 :: v3 :: v4 :: rest =>
    decodedByte0 v1 v2 :: decodedByte1 v2 v3 :: decodedByte2 v3 v4 :: decodeSymbols rest
  | [v1, v2, v3] => [decodedByte0 v1 v2, decodedByte1 v2 v3]
  | [v1, v2] => [decodedByte0 v1 v2]
  | [_] => []
  | [] => []

/-- `out` from `K` (41_decode.md R136). -/
def decodedCount (k : Nat) : Nat :=
  3 * (k / 4) + (if k % 4 = 2 then 1 else if k % 4 = 3 then 2 else 0)

/-- DECODE's INVALID_ARGUMENT cases (41_decode.md R138). -/
def decodeInvalid (v : Operands) : Bool := !v.viewsOK || v.srcLen % 4 != 0

/-- `DecLen(s, L)` over the bytes the engine reads (41_decode.md R130). -/
def decLen (v : Operands) (rc : Race) (s : State) : Nat :=
  decodedLen v.srcLen (sourceByte rc s (v.srcBase + v.srcLen - 1))
    (sourceByte rc s (v.srcBase + v.srcLen - 2))

/-- The capacity check (41_decode.md R139); free where another agent wrote one of the two bytes it reads
(70_reset_and_hazards.md R245; log 7). -/
def decodeTooSmall (v : Operands) (rc : Race) (s : State) : Bool :=
  if rc.racedTail then Config.freeTooSmall s.draws else decide (v.dstCap < decLen v rc s)

/-- The values of the valid prefix of the source (41_decode.md R131). -/
def sourceSymbols (v : Operands) (rc : Race) (s : State) : List Sextet :=
  validPrefix (sourceBytes rc s v.srcBase v.srcLen)

/-- The source range the scan reads (41_decode.md R131): the valid prefix and the byte that ends it. -/
def scanRange (v : Operands) (k : Nat) : Range :=
  { base := v.srcBase, len := min (k + 1) v.srcLen }

/-- How many of `n` addresses from `a` come before the first at which the scan stops. -/
def scanCount (goesOn : Nat → Bool) (a : Nat) : Nat → Nat
  | 0 => 0
  | n + 1 => if goesOn a then scanCount goesOn (a + 1) n + 1 else 0

/-- The scan finds the source byte at an address to be one of the alphabet (41_decode.md R131); free where
another agent wrote it (70_reset_and_hazards.md R245; log 7). -/
def validAt (rc : Race) (s : State) (a : Nat) : Bool :=
  if rc.racedSource.contains a then Config.freeValid s.draws a else (unmap8 (sourceByte rc s a)).2

/-- `K`, the length of the valid prefix the scan finds (41_decode.md R131). -/
def prefixLength (v : Operands) (rc : Race) (s : State) : Nat :=
  scanCount (validAt rc s) v.srcBase v.srcLen

/-- The bytes that a valid prefix of `k` symbols yields, within DST_CAP (41_decode.md R136, R144). -/
def prefixCount (v : Operands) (k : Nat) : Nat := min v.dstCap (decodedCount k)

/-- No access of the scan and of the writes with a valid prefix of `k` symbols is refused (41_decode.md R131,
R137). No byte that 41_decode.md R143 does not name is read (R141; log 10). -/
def accessesAdmitted (v : Operands) (k : Nat) (s : State) : Bool :=
  rangeAdmitted s.platform (scanRange v k)
    && rangeAdmitted s.platform { base := v.dstBase, len := prefixCount v k }

/-- The accesses after the capacity check meet a refused address (60_exceptions.md R205). -/
def decodeBusError (v : Operands) (rc : Race) (s : State) : Bool :=
  !accessesAdmitted v (prefixLength v rc s) s

/-- DECODE's RESULT_LEN where it is UNPREDICTABLE, from 0 to DST_CAP (93_implementation_defined.md U3). -/
def freeDecodeLen (v : Operands) (s : State) : Nat := Config.freeLength s.draws % (v.dstCap + 1)

/-- The number of bytes of DECODE's would-be write range: the count of 41_decode.md R136 (20_memory.md R56;
log 6) of the prefix the scan finds, so that an operation that meets no refused address writes none. -/
def decodeWriteCount (v : Operands) (rc : Race) (s : State) : Nat := prefixCount v (prefixLength v rc s)

/-- DECODE's RESULT_LEN on OK (41_decode.md R142), free where the views overlap or another agent wrote one of
them, and so too for an empty source (20_memory.md R60, 70_reset_and_hazards.md R245). -/
def decodeLength (v : Operands) (rc : Race) (s : State) : Nat :=
  if unpredictable v rc then freeDecodeLen v s else decodedCount (sourceSymbols v rc s).length

/-- The body of DECODE (41_decode.md R143), with the free values of 20_memory.md R60,
60_exceptions.md R205 and 70_reset_and_hazards.md R245, and the refusal of R59 (log 11). -/
def decodeResult (v : Operands) (rc : Race) (s : State) : Except Refusal OpResult :=
  if v.touchesDevice s.platform then .error .sideEffectMemory
  else if decodeInvalid v then .ok (.failed .invalidArgument)
  else if v.srcLen = 0 then .ok { code := .ok, len := decodeLength v rc s, bytes := [] }
  else if !(memAdmit s.platform (v.srcBase + v.srcLen - 1)
      && memAdmit s.platform (v.srcBase + v.srcLen - 2)) then .ok (.failed .busError)
  else if decodeTooSmall v rc s then .ok (.failed .insufficientCapacity)
  else if decodeBusError v rc s then
    .ok { code := .busError, len := 0, bytes := freeBytes s.draws v.dstBase (decodeWriteCount v rc s) }
  else if unpredictable v rc then
    .ok { code := .ok, len := decodeLength v rc s,
          bytes := freeBytes s.draws v.dstBase (decodeWriteCount v rc s) }
  else
    .ok { code := .ok, len := decodeLength v rc s,
          bytes := decodeSymbols (sourceSymbols v rc s) }

/-- DECODE: the completion step of phase `BUSY(DECODE)` (41_decode.md R143, 60_exceptions.md R210). -/
def execDecode (s : State) : Host.Outcome State Fault Refusal :=
  finish (decodeResult s.operands s.race s) s

end Sys2Proof.Machine
end

