-- ==== Sys2Proof/Machine/EncodeOp.lean ====
section
/-! DEFINITION. ENCODE (40_encode.md). -/

namespace Sys2Proof.Machine

/-- `ReqCap(N)`, exact (40_encode.md R100). -/
def reqCap (n : Nat) : Nat := if n = 0 then 0 else (n + 2) / 3 * 4 + 1

/-- `OLEN(N)`, exact (40_encode.md R101). -/
def encodedLen (n : Nat) : Nat := if n = 0 then 0 else (n + 2) / 3 * 4

/-- The first symbol of a group: the top 6 bits of byte 0 (40_encode.md R102). -/
def symbol1 (b0 : Byte) : Byte := map6 (b0.extractLsb' 2 6)

/-- The second symbol: the low 2 bits of byte 0, then the top 4 of byte 1 (40_encode.md R102). -/
def symbol2 (b0 b1 : Byte) : Byte := map6 (b0.extractLsb' 0 2 ++ b1.extractLsb' 4 4)

/-- The third symbol: the low 4 bits of byte 1, then the top 2 of byte 2 (40_encode.md R102). -/
def symbol3 (b1 b2 : Byte) : Byte := map6 (b1.extractLsb' 0 4 ++ b2.extractLsb' 6 2)

/-- The fourth symbol: the low 6 bits of byte 2 (40_encode.md R102). -/
def symbol4 (b2 : Byte) : Byte := map6 (b2.extractLsb' 0 6)

/-- The text of a source, without the terminator (40_encode.md R102 to R105): full groups, then the
partial group of 2 or 1 bytes, whose missing bits are 0. -/
def encodeText : List Byte → List Byte
  | b0 :: b1 :: b2 :: rest =>
    symbol1 b0 :: symbol2 b0 b1 :: symbol3 b1 b2 :: symbol4 b2 :: encodeText rest
  | [b0, b1] => [symbol1 b0, symbol2 b0 b1, symbol3 b1 0#8, padByte]
  | [b0] => [symbol1 b0, symbol2 b0 0#8, padByte, padByte]
  | [] => []

/-- ENCODE's INVALID_ARGUMENT cases (40_encode.md R107). -/
def encodeInvalid (v : Operands) : Bool :=
  !v.viewsOK || decide (v.srcLen > 0) && (v.dstBase == Config.nullAddr || v.dstCap == 0)

/-- ENCODE's write range on OK: the text and the terminator (20_memory.md R56, 40_encode.md R106). -/
def encodeWriteRange (v : Operands) : Range :=
  { base := v.dstBase, len := encodedLen v.srcLen + 1 }

/-- The body of ENCODE (40_encode.md R110), with the free values of 20_memory.md R60,
60_exceptions.md R205 and 70_reset_and_hazards.md R245, and the refusal of R59 (log 11). -/
def encodeResult (v : Operands) (rc : Race) (s : State) : Except Refusal OpResult :=
  if v.touchesDevice s.platform then .error .sideEffectMemory
  else if encodeInvalid v then .ok (.failed .invalidArgument)
  else if v.dstCap < reqCap v.srcLen then .ok (.failed .insufficientCapacity)
  else if v.srcLen = 0 then .ok { code := .ok, len := 0, bytes := [] }
  else if !(rangeAdmitted s.platform v.source && rangeAdmitted s.platform (encodeWriteRange v)) then
    .ok { code := .busError, len := 0,
          bytes := freeBytes s.draws v.dstBase (encodedLen v.srcLen + 1) }
  else if unpredictable v rc then
    .ok { code := .ok, len := encodedLen v.srcLen,
          bytes := freeBytes s.draws v.dstBase (encodedLen v.srcLen + 1) }
  else
    .ok { code := .ok, len := encodedLen v.srcLen,
          bytes := encodeText (sourceBytes rc s v.srcBase v.srcLen) ++ [terminator] }

/-- ENCODE: the completion step of phase `BUSY(ENCODE)` (40_encode.md R110, 60_exceptions.md R210). -/
def execEncode (s : State) : Host.Outcome State Fault Refusal :=
  finish (encodeResult s.operands s.race s) s

end Sys2Proof.Machine
end

