-- ==== Sys2Proof/Machine/Agents.lean ====
section
/-! DEFINITION. Whose step it is: the engine's turn, and the inputs of the host, of other agents and of
the platform (00_scope.md R8; logs 2, 7, 8, 15). -/

namespace Sys2Proof.Machine

/-- The body of an operation. -/
def opResult (i : Instr) (v : Operands) (rc : Race) (s : State) : Except Refusal OpResult :=
  match i with
  | .encode => encodeResult v rc s
  | .decode => decodeResult v rc s

/-- The engine's turn (60_exceptions.md R210): its one enabled step while an operation is in progress;
none while IDLE. -/
def engineTurn (s : State) : Host.Outcome State Fault Refusal :=
  match s.phase with
  | .idle => .next s
  | .busy i => exec i s

/-- Another agent's write, in what memory would hold had the operation written nothing. -/
def Ownership.noteWrite (a : Nat) (b : Byte) (o : Ownership) : Ownership :=
  { o with settled := o.settled.map (fun m => { m with unwritten := m.unwritten.write a b }) }

/-- The record of a race with another agent's write of `a`, a byte of either view
(70_reset_and_hazards.md R245). -/
def Race.note (v : Operands) (a : Nat) (rc : Race) : Race :=
  { rc with
    raced := true, racedTail := rc.racedTail || v.inTail a,
    racedSource :=
      if v.source.mem a then rc.racedSource.insert a else rc.racedSource }

/-- The claims of operations the host never saw complete that a write of `a` disturbs (70_reset_and_hazards.md
R245; log 23): those with a view that holds `a`, and the later ones whose source a disturbed one wrote. -/
def disturbed (a : Nat) : List Claim → List Claim
  | [] => []
  | c :: older =>
    let hit := disturbed a older
    if c.operands.inViews a || hit.any (fun o => c.operands.source.meets o.operands.destination) then c :: hit
    else hit

/-- The addresses whose bytes the disturbed operations wrote, if any did. -/
def disturbedBytes (a : Nat) (unseen : List Claim) : AddrSet := (disturbed a unseen).flatMap Claim.written

/-- The bytes of the set free, in what the newest operation found and in what memory would hold without it. -/
def Ownership.scatter (draw : Nat) (xs : AddrSet) (o : Ownership) : Ownership :=
  { o with settled := o.settled.map (fun m =>
      { m with found := m.found.scatter draw xs, unwritten := m.unwritten.scatter draw xs }) }

/-- What operations the host never saw complete wrote is UNPREDICTABLE from here on
(70_reset_and_hazards.md R245; log 23). -/
def scatterClaims (xs : AddrSet) (s : State) : State :=
  { s with
    mem := s.mem.scatter s.draws xs, owned := s.owned.map (Ownership.scatter s.draws xs),
    draws := s.draws + xs.length }

/-- A write by another agent after the completion step makes what the operation did UNPREDICTABLE, as long
as DONE has not been observed (70_reset_and_hazards.md R245; log 7). The outcome is drawn again over
the memory the completion step found, and what the first one wrote is taken back. CODE and RESULT_LEN
are left where they are already an illegal command's. -/
def redoRaced (o : Ownership) (m : Settled) (s : State) : Host.Outcome State Fault Refusal :=
  match opResult o.op o.operands s.race { s with mem := m.found } with
  | .error r => .refused r
  | .ok r =>
    let changed := { s with
      mem := m.unwritten.writeBytes o.operands.dstBase r.bytes, draws := s.draws + 1,
      owned := some { o with settled := some (m.record r o.operands.dstBase) } }
    .next (if s.status.code = completionCode .illegalCmd then changed
      else { changed with
        status := { s.status with code := completionCode r.code },
        resultLen := BitVec.ofNat 32 r.len })

/-- A write of `a` made the newest operation's outcome UNPREDICTABLE (70_reset_and_hazards.md R245): by a race,
or, if it has completed, by the bytes it found (log 23). -/
def raceWith (o : Ownership) (a : Nat) (s : State) : Host.Outcome State Fault Refusal :=
  let raced := { s with
    race := if o.operands.inViews a then s.race.note o.operands a else s.race }
  match o.settled with
  | none => .next raced
  | some m => redoRaced o m raced

/-- The byte a master writes lands. The host's write waits in its caches for a clean (20_memory.md R67;
log 13). -/
def landWrite (master : Master) (a : Nat) (b : Byte) (s : State) : State :=
  { s with
    mem := s.mem.write a b, owned := s.owned.map (Ownership.noteWrite a b),
    clean := if master = .host then AddrSet.remove s.clean { base := a, len := 1 } else s.clean }

/-- The host or another master writes one byte of system memory (20_memory.md R50, R63, R68; log 19). -/
def agentWrite (master : Master) (a : Nat) (b : Byte) (s : State) : Host.Outcome State Fault Refusal :=
  if AddrSet.mem s.platform.sideEffects a then .refused .sideEffectMemory
  else if !memAdmit s.platform a then .next { s with responses := .memRefused a :: s.responses }
  else
    let lost := disturbedBytes a s.unseen
    let written := scatterClaims lost (landWrite master a b s)
    match written.owned with
    | none => .next written
    | some o => if o.operands.inViews a || !lost.isEmpty then raceWith o a written else .next written

/-- The byte is one of the destination of an operation the host has not seen complete
(70_reset_and_hazards.md R245; logs 8 and 23). -/
def State.claimed (s : State) (a : Nat) : Bool :=
  (match s.owned with
    | none => false
    | some o => o.operands.destination.mem a)
  || s.unseen.any (fun c => c.operands.destination.mem a)

/-- The byte a read returns is UNPREDICTABLE: a destination byte the host has not seen complete
(70_reset_and_hazards.md R245; log 8), or, for the host alone, one it has not invalidated (20_memory.md R67;
log 13). Every other master sees the engine's writes (20_memory.md R63). -/
def readUnpredictable (master : Master) (a : Nat) (s : State) : Bool :=
  s.claimed a || master = .host && AddrSet.mem s.stale a

/-- The host or another master reads one byte of system memory (20_memory.md R50, R63, R68; log 19). -/
def agentRead (master : Master) (a : Nat) (s : State) : Host.Outcome State Fault Refusal :=
  if AddrSet.mem s.platform.sideEffects a then .refused .sideEffectMemory
  else if !memAdmit s.platform a then .next { s with responses := .memRefused a :: s.responses }
  else if readUnpredictable master a s then
    .next { s with responses := .mem a (Config.freeByte s.draws a) :: s.responses,
                   draws := s.draws + 1 }
  else .next { s with responses := .mem a (s.mem.read a) :: s.responses }

/-- The block's registers and phase at their reset values (70_reset_and_hazards.md R240); memory is left
as it is (R242), and so is everything outside the block. A completed operation whose DONE was not observed keeps
its claim (R245; log 23); an abandoned one has none (R241). -/
def resetBlock (s : State) : State :=
  { s with
    srcBase := 0#32, srcLen := 0#32, dstBase := 0#32, dstCap := 0#32, resultLen := 0#32,
    status := Status.reset, irqEn := false, phase := .idle, owned := none, unseen := s.retire,
    race := Race.none }

/-- The platform's reset input (70_reset_and_hazards.md R240 to R242). An operation in progress is
abandoned, the bytes of its would-be write range free (R241; log 15). -/
def platformReset (s : State) : Host.Outcome State Fault Refusal :=
  match s.phase with
  | .idle => .next (resetBlock s)
  | .busy i =>
    match opResult i s.operands s.race s with
    | .error r => .refused r
    | .ok r =>
      .next (resetBlock { s with
        mem := s.mem.writeBytes s.operands.dstBase
          (freeBytes s.draws s.operands.dstBase r.bytes.length),
        stale := s.markStale s.operands.destination,
        draws := s.draws + 1 })

/-- One input from outside the block. -/
def receive (x : Input) (s : State) : Host.Outcome State Fault Refusal :=
  match x with
  | .engine => engineTurn s
  | .busWrite addr size data => hostAccess addr size (fun r t => writeReg r data t) s
  | .busRead addr size => hostAccess addr size hostReadReg s
  | .memWrite master addr value => agentWrite master addr.toNat value s
  | .memRead master addr => agentRead master addr.toNat s
  | .cacheClean range => .next (cacheClean range s)
  | .cacheInvalidate range => .next (cacheInvalidate range s)
  | .sampleIrq => .next (sampleIrq s)
  | .reset => platformReset s

/-- One step: the head of `inputs`, which is then gone; with nothing left to come, the engine's turn
(60_exceptions.md R210, weak fairness; log 2). -/
def advance (s : State) : Host.Outcome State Fault Refusal :=
  match s.inputs with
  | [] => engineTurn s
  | x :: rest => receive x { s with inputs := rest }

/-- A command word where the next step takes it up (log 3). A legal word is accepted
(60_exceptions.md R208) and the engine has the next turn, which runs it; an illegal word stands as the
host's next write to CMD, with no operation in progress. -/
def placeCommand (w : Word) (s : State) : State :=
  match decode w with
  | .ok i => { accept i s with inputs := .engine :: s.inputs }
  | .error _ =>
    { s with
      phase := .idle, status := { s.status with busy := false },
      inputs := .busWrite s.platform.b64Base 4 w :: s.inputs }

end Sys2Proof.Machine
end

