-- ==== Sys2Proof/Safety.lean ====
section
/-! DEFINITION. The terms the statements are made in: where an address lies, when the rules of
40_encode.md and 41_decode.md describe an operation (70_reset_and_hazards.md R244, R245), how an
operation ended (60_exceptions.md R210), and the invariant every step keeps. -/

namespace Sys2Proof.Machine

/-- The address is one of the source view (20_memory.md R51). -/
def InSource (s : State) (a : Nat) : Prop :=
  s.srcBase.toNat ≤ a ∧ a < s.srcBase.toNat + s.srcLen.toNat

/-- The address is one of the destination view (20_memory.md R51). -/
def InDestination (s : State) (a : Nat) : Prop :=
  s.dstBase.toNat ≤ a ∧ a < s.dstBase.toNat + s.dstCap.toNat

/-- `ViewOK(b, s)` in the words of 20_memory.md R52. -/
def ViewValid (b n : Nat) : Prop := ¬ (b = 0 ∧ n > 0) ∧ b + n ≤ 2 ^ 32

/-- Both views of the operand registers are valid. -/
def ViewsValid (s : State) : Prop :=
  ViewValid s.srcBase.toNat s.srcLen.toNat ∧ ViewValid s.dstBase.toNat s.dstCap.toNat

/-- `MemAdmit(a)` (00_scope.md R9). -/
def Admits (s : State) (a : Nat) : Prop := memAdmit s.platform a = true

/-- Neither view covers an address of system memory with side effects, of a device or of the block's own
register window (20_memory.md R59). -/
def PlainMemory (s : State) : Prop :=
  ∀ a, InSource s a ∨ InDestination s a → AddrSet.mem s.platform.sideEffects a = false

/-- The two views share no address (20_memory.md R60). -/
def DisjointViews (s : State) : Prop := ∀ a, ¬ (InSource s a ∧ InDestination s a)

/-- No other agent wrote the views of the operation in progress (70_reset_and_hazards.md R245), and the
engine sees the host's source bytes (20_memory.md R63, R67). -/
def Undisturbed (s : State) : Prop :=
  s.race.raced = false ∧ s.race.racedTail = false ∧ s.race.racedSource = [] ∧
    s.race.sourceSeen = true

/-- No hazard: the rules give every value the operation writes. -/
structure Quiet (s : State) : Prop where
  plain       : PlainMemory s
  disjoint    : DisjointViews s
  undisturbed : Undisturbed s

/-- No operation that the host never saw complete has the address in one of its views
(70_reset_and_hazards.md R245; log 23). -/
def Unclaimed (s : State) (a : Nat) : Prop := ∀ c ∈ s.unseen, c.operands.inViews a = false

/-- No byte that such an operation wrote, or may have written, stands at the address (log 23). -/
def Unheld (s : State) (a : Nat) : Prop := ∀ c ∈ s.unseen, AddrSet.mem c.written a = false

/-- An operation ended with `code` and RESULT_LEN `len` (60_exceptions.md R210): BUSY 0, DONE 1, IGN
unchanged, phase IDLE; and the frame, everything an operation does not write. Memory is stated beside
it. The last four fields are the model's own bookkeeping (logs 7, 23, 13 and 5). -/
structure Completed (s t : State) (code : BitVec 4) (len : Nat) : Prop where
  status    : t.status = { busy := false, done := true, ign := s.status.ign, code := code }
  resultLen : t.resultLen.toNat = len
  phase     : t.phase = .idle
  operands  : t.srcBase = s.srcBase ∧ t.srcLen = s.srcLen ∧ t.dstBase = s.dstBase
    ∧ t.dstCap = s.dstCap
  irqEn     : t.irqEn = s.irqEn
  outside   : t.platform = s.platform ∧ t.inputs = s.inputs ∧ t.responses = s.responses
    ∧ t.race = s.race ∧ t.clean = s.clean
  owned     : ∃ m, t.owned = s.owned.map (fun o => { o with settled := some m }) ∧
    m.found = s.mem ∧ m.unwritten = s.mem
  unseen    : t.unseen = s.unseen
  stale     : t.stale = if s.platform.coherent = true then s.stale
    else { base := s.dstBase.toNat, len := s.dstCap.toNat } :: s.stale
  draws     : t.draws = s.draws + 1

/-- `K`, the length of the valid prefix of the source (41_decode.md R131): every byte before offset `k`
is of the alphabet, and the one at `k`, if the source has it, is not. -/
structure IsValidPrefix (s : State) (k : Nat) : Prop where
  within : k ≤ s.srcLen.toNat
  valid  : ∀ i, i < k → (unmap8 (s.mem.read (s.srcBase.toNat + i))).2 = true
  stops  : k < s.srcLen.toNat → (unmap8 (s.mem.read (s.srcBase.toNat + k))).2 = false

/-- `DecLen(s, L)` over system memory (41_decode.md R130). -/
def RequiredDecoded (s : State) : Nat :=
  if s.srcLen.toNat = 0 then 0
  else s.srcLen.toNat / 4 * 3
    - (if s.mem.read (s.srcBase.toNat + s.srcLen.toNat - 1) = 0x3D#8 then 1 else 0)
    - (if s.mem.read (s.srcBase.toNat + s.srcLen.toNat - 2) = 0x3D#8 then 1 else 0)

/-- `out` from `K` (41_decode.md R136): `3q + t(r)`. -/
def OutCount (k : Nat) : Nat := 3 * (k / 4) + [0, 0, 1, 2].getD (k % 4) 0

/-- The host's next access is a 32-bit write of `w` to the register `r` (30_encoding.md R75). -/
def Writes (s : State) (r : Reg) (w : Word) (rest : List Input) : Prop :=
  s.inputs = .busWrite (s.platform.b64Base + r.offset) 4 w :: rest

/-- The host's next access is a 32-bit read of the register `r` (30_encoding.md R75). -/
def Reads (s : State) (r : Reg) (rest : List Input) : Prop :=
  s.inputs = .busRead (s.platform.b64Base + r.offset) 4 :: rest

/-- ENCODE passes its checks on a source that is not empty and meets no refused address and no hazard
(40_encode.md R107 to R109). -/
structure EncodeRuns (s : State) : Prop where
  views     : ViewsValid s
  nonempty  : 0 < s.srcLen.toNat
  room      : (s.srcLen.toNat + 2) / 3 * 4 + 1 ≤ s.dstCap.toNat
  quiet     : Quiet s
  canonical : Memory.wf s.mem = true
  admitted  : ∀ a, InSource s a ∨
    (s.dstBase.toNat ≤ a ∧ a ≤ s.dstBase.toNat + (s.srcLen.toNat + 2) / 3 * 4) → Admits s a

/-- The addresses DECODE reads and writes with a valid prefix of `k` symbols (41_decode.md R130, R131,
R137): the last two source bytes, the prefix and the byte that ends it, and the bytes written. -/
def DecodeTouches (s : State) (k a : Nat) : Prop :=
  (s.srcBase.toNat ≤ a ∧ a < s.srcBase.toNat + min (k + 1) s.srcLen.toNat) ∨
  a + 1 = s.srcBase.toNat + s.srcLen.toNat ∨ a + 2 = s.srcBase.toNat + s.srcLen.toNat ∨
  (s.dstBase.toNat ≤ a ∧ a < s.dstBase.toNat + OutCount k)

/-- DECODE passes its checks on a source that is not empty, without a hazard, its valid prefix being
`k` symbols (41_decode.md R138, R139, R131). -/
structure DecodePasses (s : State) (k : Nat) : Prop where
  views     : ViewsValid s
  nonempty  : 0 < s.srcLen.toNat
  fours     : s.srcLen.toNat % 4 = 0
  room      : RequiredDecoded s ≤ s.dstCap.toNat
  quiet     : Quiet s
  canonical : Memory.wf s.mem = true
  prefixed  : IsValidPrefix s k

/-- DECODE runs to its end: it passes its checks, and no byte of its source nor any byte it writes is
refused (41_decode.md R142). -/
structure DecodeRuns (s : State) (k : Nat) : Prop where
  passes    : DecodePasses s k
  admitted  : ∀ a, InSource s a ∨ DecodeTouches s k a → Admits s a

/-- What every step keeps. -/
structure MachineInv (s : State) : Prop where
  /-- Memory keeps its canonical form. -/
  memWf         : Memory.wf s.mem = true
  /-- System memory has `2^ADDR_W` bytes (20_memory.md R50). -/
  memBounded    : Memory.bounded s.mem = true
  /-- BUSY = 1 exactly when the phase is BUSY(op) (10_state.md R24). -/
  busyPhase     : s.status.busy = true ↔ s.phase ≠ .idle
  /-- While BUSY = 1, DONE is 0 (10_state.md R25). -/
  busyNotDone   : s.status.busy = true → s.status.done = false
  /-- While an operation is in progress CODE and RESULT_LEN read 0 (70_reset_and_hazards.md R246). -/
  busyNoResult  : s.status.busy = true → s.status.code = 0x0#4 ∧ s.resultLen = 0#32
  /-- CODE is never a reserved one (60_exceptions.md R206). -/
  codeLegal     : s.status.code.toNat ≤ 4
  /-- RESULT_LEN is 0 on every code but OK (10_state.md R32). -/
  errorNoLength : s.status.code ≠ 0x0#4 → s.resultLen = 0#32
  /-- The operand registers hold what they held at acceptance (10_state.md R36). -/
  operandsHeld  : ∀ i, s.phase = .busy i →
    s.owned = some { op := i, operands := s.operands, settled := none }
  /-- An operation that holds its buffers is in progress or has completed (log 7). -/
  heldOrSettled : ∀ o, s.owned = some o → o.settled = none → s.phase = .busy o.op
  /-- What memory would hold had a completed operation written nothing is a canonical memory of the address
  space, and differs from memory only in that operation's destination view (20_memory.md R56; log 7). -/
  settledApart  : ∀ o m, s.owned = some o → o.settled = some m →
    Memory.wf m.unwritten = true ∧ Memory.bounded m.unwritten = true ∧
    ∀ a, ¬ (o.operands.dstBase ≤ a ∧ a < o.operands.dstBase + o.operands.dstCap) →
      m.unwritten.read a = s.mem.read a
  /-- The would-be write range of an operation not known to have completed lies in its destination view, and in
  the address space (20_memory.md R56; logs 7 and 23). -/
  writtenInside : (∀ o m a, s.owned = some o → o.settled = some m → m.range.mem a = true →
      o.operands.destination.mem a = true ∧ a < 2 ^ 32) ∧
    ∀ c ∈ s.unseen, ∀ a, AddrSet.mem c.written a = true →
      c.operands.destination.mem a = true ∧ a < 2 ^ 32

end Sys2Proof.Machine
end

