-- ==== Sys2Proof/Certificates/Slice0/Obligations.lean ====
section
/-! DEFINITION. The statements for the provers (OBLIGATIONS.json). -/

open Sys2Proof Sys2Proof.Machine

/-! ## Command words -/

/-- 30_encoding.md R71: the two words, and no other, are instructions. -/
def Obligations.CommandWordsDecode : Prop :=
  ∀ w : Word, (decode w).toOption =
    if w = 0x00000001#32 then some Instr.encode
    else if w = 0x00000002#32 then some Instr.decode
    else none

/-- Words written out bit by bit from the pattern of 30_encoding.md R70 and the table. -/
def Obligations.WordsFromTheTable : Prop :=
  decode 0b00000000000000000000000000000001#32 = .ok .encode ∧
  decode 0b00000000000000000000000000000010#32 = .ok .decode ∧
  decode 0b00000000000000000000000000000000#32 = .error .unassignedOp ∧
  decode 0b00000000000000000000000000000011#32 = .error .unassignedOp ∧
  decode 0b00000000000000000000000000010001#32 = .error .reservedBitsSet ∧
  decode 0b10000000000000000000000000000010#32 = .error .reservedBitsSet ∧
  decode 0b11111111111111111111111111111111#32 = .error .unassignedOp

/-- Decoding and encoding agree, in both directions: each legal word has one meaning. -/
def Obligations.DecodeEncodeAgree : Prop :=
  (∀ i, i.wellFormed = true → decode (encode i) = .ok i) ∧
  (∀ w i, decode w = .ok i → w = encode i)

/-- 30_encoding.md R74: the offsets of the registers, and that no other offset has one. -/
def Obligations.RegisterOffsets : Prop :=
  (Reg.cmd.offset = 0x00 ∧ Reg.status.offset = 0x04 ∧ Reg.srcBase.offset = 0x08 ∧
    Reg.srcLen.offset = 0x0C ∧ Reg.dstBase.offset = 0x10 ∧ Reg.dstCap.offset = 0x14 ∧
    Reg.resultLen.offset = 0x18 ∧ Reg.cfg.offset = 0x1C) ∧
  ∀ n r, Reg.ofOffset n = some r ↔ n = r.offset

/-! ## The step -/

/-- A step runs the decoded instruction: the engine's turn runs the operation in progress, whether the
turn is the next input or nothing is left to come; and a command word written while not BUSY is decoded,
accepted, and run by the engine's next turn. With no operation in progress the engine's turn does
nothing (60_exceptions.md R210; log 2). -/
def Obligations.StepRunsDecodedInstruction : Prop :=
  (∀ s i, s.phase = .busy i →
    (s.inputs = [] → step s = exec i s) ∧
    ∀ rest, s.inputs = .engine :: rest → step s = exec i { s with inputs := rest }) ∧
  (∀ s w rest i, Writes s .cmd w (.engine :: rest) → s.status.busy = false → decode w = .ok i →
    ∃ t, step s = .next t ∧ step t = exec i { accept i s with inputs := rest }) ∧
  (∀ s, s.phase = .idle →
    (s.inputs = [] → step s = .next s) ∧
    ∀ rest, s.inputs = .engine :: rest → step s = .next { s with inputs := rest })

/-- The model's placing of a command word (log 3): the next step runs exactly it, in the state its
acceptance leaves; an illegal word completes as the host's write of it does. -/
def Obligations.PlacedCommandRuns : Prop :=
  (∀ (s : State) i, step (s.withFetchWord 32 (encode i).toNat) = exec i (accept i s)) ∧
  (∀ (s : State) (w : Word) e, decode w = .error e →
    ∃ t, step (s.withFetchWord 32 w.toNat) = .next t ∧ t.status.code = 0x3#4 ∧
      t.status.done = true ∧ t.phase = .idle ∧ t.mem = s.mem ∧ t.inputs = s.inputs)

/-- 60_exceptions.md R208: acceptance. The operands of this step are recorded with the operation, and
`MachineInv` says that the registers keep them until it completes. -/
def Obligations.AcceptanceEffect : Prop :=
  ∀ s w rest i, Writes s .cmd w rest → s.status.busy = false →
    (w = 0x00000001#32 ∧ i = Instr.encode) ∨ (w = 0x00000002#32 ∧ i = Instr.decode) →
    ∃ t, step s = .next t ∧ t.phase = .busy i ∧
      t.status = { busy := true, done := false, ign := s.status.ign, code := 0x0#4 } ∧
      t.resultLen = 0#32 ∧
      t.srcBase = s.srcBase ∧ t.srcLen = s.srcLen ∧ t.dstBase = s.dstBase ∧ t.dstCap = s.dstCap ∧
      t.irqEn = s.irqEn ∧ t.mem = s.mem ∧ t.platform = s.platform ∧ t.inputs = rest ∧
      t.responses = s.responses ∧ t.owned = some { op := i, operands := s.operands, settled := none }

/-- 30_encoding.md R72 and 60_exceptions.md R204: every other word completes at once as ILLEGAL_CMD while
BUSY = 0, and is ignored while BUSY = 1. -/
def Obligations.IllegalCommandCompletes : Prop :=
  ∀ s w rest, Writes s .cmd w rest → w ≠ 0x00000001#32 → w ≠ 0x00000002#32 →
    (s.status.busy = false →
      step s = .next { s with
        inputs := rest, resultLen := 0#32,
        status := { busy := false, done := true, ign := s.status.ign, code := 0x3#4 } }) ∧
    (s.status.busy = true →
      step s = .next { s with inputs := rest, status := { s.status with ign := true } })

/-! ## The register window -/

/-- 10_state.md R36: while BUSY = 1 a write to CMD, an operand register or CFG only sets IGN, a write to
STATUS acts as ever, and a write to RESULT_LEN does nothing. -/
def Obligations.WritesWhileBusyIgnored : Prop :=
  ∀ s r w rest, Writes s r w rest → s.status.busy = true →
    (r ≠ .status → r ≠ .resultLen →
      step s = .next { s with inputs := rest, status := { s.status with ign := true } }) ∧
    (r = .resultLen → step s = .next { s with inputs := rest }) ∧
    (r = .status →
      step s = .next { s with
        inputs := rest,
        status := { s.status with
          done := s.status.done && !w.getLsbD 1, ign := s.status.ign && !w.getLsbD 2 } })

/-- 10_state.md R23: the STATUS word's layout as the host reads it, and what a host write does whatever
the value of BUSY. -/
def Obligations.StatusRegister : Prop :=
  (∀ s rest, Reads s .status rest → ∃ t v, step s = .next t ∧
    t.responses = .reg .status v :: s.responses ∧
    v.getLsbD 0 = s.status.busy ∧ v.getLsbD 1 = s.status.done ∧ v.getLsbD 2 = s.status.ign ∧
    v.getLsbD 3 = false ∧ v.extractLsb' 4 4 = s.status.code ∧ v.extractLsb' 8 24 = 0#24) ∧
  (∀ s w rest, Writes s .status w rest →
    step s = .next { s with
      inputs := rest,
      status := { s.status with
        done := if w.getLsbD 1 = true then false else s.status.done,
        ign := if w.getLsbD 2 = true then false else s.status.ign } }) ∧
  State.reset.status = { busy := false, done := false, ign := false, code := 0x0#4 }

/-- 10_state.md R28 to R31 and 70_reset_and_hazards.md R248: while not BUSY an operand register takes any
value, reads it back in the next access, and no other register changes. -/
def Obligations.OperandRegistersReadBack : Prop :=
  ∀ s r (w : Word) rest, Writes s r w (.busRead (s.platform.b64Base + r.offset) 4 :: rest) →
    r ∈ [Reg.srcBase, .srcLen, .dstBase, .dstCap] → s.status.busy = false →
    ∃ t u, step s = .next t ∧ step t = .next u ∧ u.responses = .reg r w :: s.responses ∧
      u.inputs = rest ∧
      (r ≠ .srcBase → u.srcBase = s.srcBase) ∧ (r ≠ .srcLen → u.srcLen = s.srcLen) ∧
      (r ≠ .dstBase → u.dstBase = s.dstBase) ∧ (r ≠ .dstCap → u.dstCap = s.dstCap) ∧
      u.resultLen = s.resultLen ∧ u.status = s.status ∧ u.irqEn = s.irqEn ∧ u.phase = s.phase ∧
      u.mem = s.mem

/-- 10_state.md R32: a host write to RESULT_LEN changes nothing, in any state. -/
def Obligations.ResultLenIsReadOnly : Prop :=
  ∀ s w rest, Writes s .resultLen w rest → step s = .next { s with inputs := rest }

/-- 10_state.md R33: CFG has bit 0 alone; the other bits ignore writes and read 0. -/
def Obligations.CfgRegister : Prop :=
  (∀ s w rest, Writes s .cfg w rest → s.status.busy = false →
    step s = .next { s with inputs := rest, irqEn := w.getLsbD 0 }) ∧
  (∀ s rest, Reads s .cfg rest → ∃ t v, step s = .next t ∧
    t.responses = .reg .cfg v :: s.responses ∧ v = if s.irqEn then 1#32 else 0#32) ∧
  State.reset.irqEn = false

/-- 10_state.md R21, R22 and R28 to R32: what a host read of the other registers answers, and that no
read changes anything of the block. -/
def Obligations.RegisterReads : Prop :=
  ∀ s r rest, Reads s r rest → ∃ t v, step s = .next t ∧ t.responses = .reg r v :: s.responses ∧
    (r = .cmd → v = 0#32) ∧ (r = .srcBase → v = s.srcBase) ∧ (r = .srcLen → v = s.srcLen) ∧
    (r = .dstBase → v = s.dstBase) ∧ (r = .dstCap → v = s.dstCap) ∧
    (r = .resultLen → v = s.resultLen) ∧
    t.srcBase = s.srcBase ∧ t.srcLen = s.srcLen ∧ t.dstBase = s.dstBase ∧ t.dstCap = s.dstCap ∧
    t.resultLen = s.resultLen ∧ t.status = s.status ∧ t.irqEn = s.irqEn ∧ t.phase = s.phase ∧
    t.mem = s.mem ∧ t.inputs = rest

/-- 60_exceptions.md R224: an aligned 32-bit access to any offset of the window, read or write, in any
state, is answered. -/
def Obligations.RegisterAccessNeverFails : Prop :=
  ∀ (s : State) (n : Nat) (rest : List Input), n % 4 = 0 → n < 0x20 →
    (∀ w, s.inputs = .busWrite (s.platform.b64Base + n) 4 w :: rest → ∃ t, step s = .next t) ∧
    (s.inputs = .busRead (s.platform.b64Base + n) 4 :: rest → ∃ t, step s = .next t)

/-- 10_state.md R35 and 93_implementation_defined.md U1: an access of the window that is narrower or wider
than 32 bits, or not at a multiple of 4, is refused by name. -/
def Obligations.MisshapenAccessRefused : Prop :=
  ∀ (s : State) (n size : Nat) (rest : List Input), n < 0x20 → 0 < size → (size ≠ 4 ∨ n % 4 ≠ 0) →
    (∀ w, s.inputs = .busWrite (s.platform.b64Base + n) size w :: rest →
      step s = .refused .unpredictableRegisterAccess) ∧
    (s.inputs = .busRead (s.platform.b64Base + n) size :: rest →
      step s = .refused .unpredictableRegisterAccess)

/-! ## The interrupt -/

/-- 10_state.md R41: what the host sees on IRQ is DONE & IRQ_EN, and after reset 0. -/
def Obligations.SampledIrqLevel : Prop :=
  (∀ s rest, s.inputs = .sampleIrq :: rest → ∃ t, step s = .next t ∧
    t.responses = .irq (s.status.done && s.irqEn) :: s.responses ∧
    t.status = s.status ∧ t.irqEn = s.irqEn ∧ t.phase = s.phase ∧ t.mem = s.mem) ∧
  State.reset.irq = false

/-- 60_exceptions.md R214: IRQ rises, where it is enabled, with a completion step and with an ILLEGAL_CMD
completion. -/
def Obligations.IrqRisesWithCompletion : Prop :=
  (∀ i s t, exec i s = .next t → t.irq = s.irqEn) ∧
  (∀ s w rest e, Writes s .cmd w rest → s.status.busy = false → decode w = .error e →
    ∃ t, step s = .next t ∧ t.irq = s.irqEn)

/-- 60_exceptions.md R215: the three ways the host clears the pending condition, each in the same step. -/
def Obligations.IrqFallsWhenCleared : Prop :=
  (∀ s w rest, Writes s .status w rest → w.getLsbD 1 = true →
    ∃ t, step s = .next t ∧ t.status.done = false ∧ t.irq = false) ∧
  (∀ s w rest, Writes s .cfg w rest → s.status.busy = false → w.getLsbD 0 = false →
    ∃ t, step s = .next t ∧ t.irqEn = false ∧ t.irq = false) ∧
  (∀ s w rest i, Writes s .cmd w rest → s.status.busy = false → decode w = .ok i →
    ∃ t, step s = .next t ∧ t.status.done = false ∧ t.irq = false)

/-! ## ENCODE -/

/-- 40_encode.md R107. The views lie in memory without side effects (20_memory.md R59), as for every
result below: `SideEffectMemoryRefused` says what happens elsewhere. -/
def Obligations.EncodeInvalidArgument : Prop :=
  ∀ s : State, PlainMemory s →
    ¬ ViewValid s.srcBase.toNat s.srcLen.toNat ∨ ¬ ViewValid s.dstBase.toNat s.dstCap.toNat ∨
      (s.srcLen.toNat > 0 ∧ s.dstBase = 0#32) ∨ (s.srcLen.toNat > 0 ∧ s.dstCap = 0#32) →
    ∃ t, exec .encode s = .next t ∧ Completed s t 0x1#4 0 ∧ t.mem = s.mem

/-- 40_encode.md R108, with ReqCap(N) of R100 on exact integers. -/
def Obligations.EncodeInsufficientCapacity : Prop :=
  ∀ s : State, PlainMemory s → ViewsValid s →
    ¬ (s.srcLen.toNat > 0 ∧ (s.dstBase = 0#32 ∨ s.dstCap = 0#32)) →
    s.dstCap.toNat < (if s.srcLen.toNat = 0 then 0 else (s.srcLen.toNat + 2) / 3 * 4 + 1) →
    ∃ t, exec .encode s = .next t ∧ Completed s t 0x2#4 0 ∧ t.mem = s.mem

/-- 40_encode.md R112: an empty source, at any capacity. -/
def Obligations.EncodeEmptySource : Prop :=
  ∀ s : State, PlainMemory s → ViewsValid s → s.srcLen.toNat = 0 →
    ∃ t, exec .encode s = .next t ∧ Completed s t 0x0#4 0 ∧ t.mem = s.mem

/-- 40_encode.md R109 and R106, 20_memory.md R56: OK, RESULT_LEN = OLEN(N), the terminator, and no byte
outside the write range. -/
def Obligations.EncodeCompletesOk : Prop :=
  ∀ s, EncodeRuns s → ∃ t, exec .encode s = .next t ∧
    Completed s t 0x0#4 ((s.srcLen.toNat + 2) / 3 * 4) ∧
    t.mem.read (s.dstBase.toNat + (s.srcLen.toNat + 2) / 3 * 4) = 0x00#8 ∧
    ∀ a, a < s.dstBase.toNat ∨ s.dstBase.toNat + (s.srcLen.toNat + 2) / 3 * 4 < a →
      t.mem.read a = s.mem.read a

/-- 40_encode.md R102 and R105: the four symbols of every full group, by the 24-bit word of its three
bytes, at their places. -/
def Obligations.EncodeFullGroups : Prop :=
  ∀ s, EncodeRuns s → ∃ t, exec .encode s = .next t ∧ ∀ j, j < s.srcLen.toNat / 3 →
    let w := (s.mem.read (s.srcBase.toNat + 3 * j)).toNat * 2 ^ 16
      + (s.mem.read (s.srcBase.toNat + 3 * j + 1)).toNat * 2 ^ 8
      + (s.mem.read (s.srcBase.toNat + 3 * j + 2)).toNat
    t.mem.read (s.dstBase.toNat + 4 * j) = map6 (BitVec.ofNat 6 (w / 2 ^ 18)) ∧
    t.mem.read (s.dstBase.toNat + 4 * j + 1) = map6 (BitVec.ofNat 6 (w / 2 ^ 12 % 64)) ∧
    t.mem.read (s.dstBase.toNat + 4 * j + 2) = map6 (BitVec.ofNat 6 (w / 2 ^ 6 % 64)) ∧
    t.mem.read (s.dstBase.toNat + 4 * j + 3) = map6 (BitVec.ofNat 6 (w % 64))

/-- 40_encode.md R103 and R104: the partial group of two bytes and of one byte, with their pads. -/
def Obligations.EncodePartialGroup : Prop :=
  ∀ s, EncodeRuns s → ∃ t, exec .encode s = .next t ∧
    let g := s.srcLen.toNat / 3
    let b0 := (s.mem.read (s.srcBase.toNat + 3 * g)).toNat
    let b1 := (s.mem.read (s.srcBase.toNat + 3 * g + 1)).toNat
    (s.srcLen.toNat % 3 = 2 →
      t.mem.read (s.dstBase.toNat + 4 * g) = map6 (BitVec.ofNat 6 (b0 / 4)) ∧
      t.mem.read (s.dstBase.toNat + 4 * g + 1) = map6 (BitVec.ofNat 6 (b0 % 4 * 16 + b1 / 16)) ∧
      t.mem.read (s.dstBase.toNat + 4 * g + 2) = map6 (BitVec.ofNat 6 (b1 % 16 * 4)) ∧
      t.mem.read (s.dstBase.toNat + 4 * g + 3) = 0x3D#8) ∧
    (s.srcLen.toNat % 3 = 1 →
      t.mem.read (s.dstBase.toNat + 4 * g) = map6 (BitVec.ofNat 6 (b0 / 4)) ∧
      t.mem.read (s.dstBase.toNat + 4 * g + 1) = map6 (BitVec.ofNat 6 (b0 % 4 * 16)) ∧
      t.mem.read (s.dstBase.toNat + 4 * g + 2) = 0x3D#8 ∧
      t.mem.read (s.dstBase.toNat + 4 * g + 3) = 0x3D#8)

/-- 40_encode.md R111: the length law, the padding law, the alphabet of the text, and the terminator as
the only zero byte written. -/
def Obligations.EncodeTextLaws : Prop :=
  (∀ s, EncodeRuns s → ∃ t, exec .encode s = .next t ∧
    let n := s.srcLen.toNat
    let len := t.resultLen.toNat
    let text := fun i => t.mem.read (s.dstBase.toNat + i)
    let pads := if n % 3 = 1 then 2 else if n % 3 = 2 then 1 else 0
    len = (n + 2) / 3 * 4 + 1 - 1 ∧
    (n % 3 = 1 → text (len - 1) = 0x3D#8 ∧ text (len - 2) = 0x3D#8) ∧
    (n % 3 = 2 → text (len - 1) = 0x3D#8 ∧ text (len - 2) ≠ 0x3D#8) ∧
    (n % 3 = 0 → text (len - 1) ≠ 0x3D#8) ∧
    (∀ i, i + pads < len → ∃ v, text i = map6 v) ∧
    (∀ i, i < len → text i ≠ 0x00#8) ∧ text len = 0x00#8) ∧
  (∀ s t, s.srcLen.toNat = 0 → exec .encode s = .next t → t.resultLen = 0#32)

/-- 60_exceptions.md R205 for ENCODE: a refused address it reads or writes ends it with BUS_ERROR, and no
byte outside its would-be write range changes. -/
def Obligations.EncodeBusError : Prop :=
  ∀ s : State, ViewsValid s → 0 < s.srcLen.toNat →
    (s.srcLen.toNat + 2) / 3 * 4 + 1 ≤ s.dstCap.toNat → PlainMemory s →
    (∃ a, (InSource s a ∨
      (s.dstBase.toNat ≤ a ∧ a ≤ s.dstBase.toNat + (s.srcLen.toNat + 2) / 3 * 4)) ∧
      ¬ Admits s a) →
    ∃ t, exec .encode s = .next t ∧ Completed s t 0x4#4 0 ∧
      ∀ a, a < s.dstBase.toNat ∨ s.dstBase.toNat + (s.srcLen.toNat + 2) / 3 * 4 < a →
        t.mem.read a = s.mem.read a

/-- 20_memory.md R60 for ENCODE: overlapping views are not detected, the code is OK, RESULT_LEN is exact,
and no byte outside the write range is written. -/
def Obligations.EncodeOverlap : Prop :=
  ∀ s : State, ViewsValid s → 0 < s.srcLen.toNat →
    (s.srcLen.toNat + 2) / 3 * 4 + 1 ≤ s.dstCap.toNat → PlainMemory s →
    (∀ a, InSource s a ∨ InDestination s a → Admits s a) →
    (∃ a, InSource s a ∧ InDestination s a) →
    ∃ t, exec .encode s = .next t ∧ Completed s t 0x0#4 ((s.srcLen.toNat + 2) / 3 * 4) ∧
      ∀ a, a < s.dstBase.toNat ∨ s.dstBase.toNat + (s.srcLen.toNat + 2) / 3 * 4 < a →
        t.mem.read a = s.mem.read a

/-! ## DECODE -/

/-- 41_decode.md R138. -/
def Obligations.DecodeInvalidArgument : Prop :=
  ∀ s : State, PlainMemory s →
    ¬ ViewValid s.srcBase.toNat s.srcLen.toNat ∨ ¬ ViewValid s.dstBase.toNat s.dstCap.toNat ∨
      s.srcLen.toNat % 4 ≠ 0 →
    ∃ t, exec .decode s = .next t ∧ Completed s t 0x1#4 0 ∧ t.mem = s.mem

/-- 41_decode.md R139, whatever the overlap of the views. -/
def Obligations.DecodeInsufficientCapacity : Prop :=
  ∀ s : State, ViewsValid s → s.srcLen.toNat % 4 = 0 → PlainMemory s → Undisturbed s →
    (∀ a, a + 1 = s.srcBase.toNat + s.srcLen.toNat ∨ a + 2 = s.srcBase.toNat + s.srcLen.toNat →
      Admits s a) →
    s.dstCap.toNat < RequiredDecoded s →
    ∃ t, exec .decode s = .next t ∧ Completed s t 0x2#4 0 ∧ t.mem = s.mem

/-- 41_decode.md R143, corner cases: an empty source, at any capacity, completes with OK and writes nothing;
RESULT_LEN is 0, and after another agent wrote the destination some value up to DST_CAP
(70_reset_and_hazards.md R245). -/
def Obligations.DecodeEmptySource : Prop :=
  ∀ s : State, PlainMemory s → ViewsValid s → s.srcLen.toNat = 0 →
    ∃ t len, exec .decode s = .next t ∧ Completed s t 0x0#4 len ∧ t.mem = s.mem ∧
      len ≤ s.dstCap.toNat ∧ (Undisturbed s → len = 0)

/-- 41_decode.md R142 and R136, 20_memory.md R56: OK, RESULT_LEN = out, and no byte outside the write
range, where no byte of the source is refused. A byte outside the alphabet only ends the valid prefix (R140). -/
def Obligations.DecodeCompletesOk : Prop :=
  ∀ s k, DecodeRuns s k → ∃ t, exec .decode s = .next t ∧ Completed s t 0x0#4 (OutCount k) ∧
    ∀ a, a < s.dstBase.toNat ∨ s.dstBase.toNat + OutCount k ≤ a → t.mem.read a = s.mem.read a

/-- 41_decode.md R132 and R137: the three bytes of every full group, by the 24-bit word of its four
values, at their places. -/
def Obligations.DecodeFullGroups : Prop :=
  ∀ s k, DecodeRuns s k → ∃ t, exec .decode s = .next t ∧ ∀ j, j < k / 4 →
    let v := fun i => (unmap8 (s.mem.read (s.srcBase.toNat + 4 * j + i))).1.toNat
    let w := v 0 * 2 ^ 18 + v 1 * 2 ^ 12 + v 2 * 2 ^ 6 + v 3
    (t.mem.read (s.dstBase.toNat + 3 * j)).toNat = w / 2 ^ 16 ∧
    (t.mem.read (s.dstBase.toNat + 3 * j + 1)).toNat = w / 2 ^ 8 % 256 ∧
    (t.mem.read (s.dstBase.toNat + 3 * j + 2)).toNat = w % 256

/-- 41_decode.md R133 and R134: a remainder of two and of three valid symbols, and that it adds exactly
one byte and two bytes. -/
def Obligations.DecodeRemainder : Prop :=
  ∀ s k, DecodeRuns s k → ∃ t, exec .decode s = .next t ∧
    let q := k / 4
    let v := fun i => (unmap8 (s.mem.read (s.srcBase.toNat + 4 * q + i))).1.toNat
    (k % 4 = 2 → t.resultLen.toNat = 3 * q + 1 ∧
      (t.mem.read (s.dstBase.toNat + 3 * q)).toNat = v 0 * 4 + v 1 / 16) ∧
    (k % 4 = 3 → t.resultLen.toNat = 3 * q + 2 ∧
      (t.mem.read (s.dstBase.toNat + 3 * q)).toNat = v 0 * 4 + v 1 / 16 ∧
      (t.mem.read (s.dstBase.toNat + 3 * q + 1)).toNat = v 1 % 16 * 16 + v 2 / 4)

/-- 41_decode.md R144: on OK, out is within DecLen and DecLen within DST_CAP, and every write is inside
DecLen bytes of the destination and inside the address space. -/
def Obligations.DecodedWithinRequired : Prop :=
  ∀ s t, Quiet s → exec .decode s = .next t → t.status.code = 0x0#4 →
    t.resultLen.toNat ≤ RequiredDecoded s ∧ RequiredDecoded s ≤ s.dstCap.toNat ∧
    s.dstBase.toNat + s.dstCap.toNat ≤ 2 ^ 32 ∧
    ∀ a, a < s.dstBase.toNat ∨ s.dstBase.toNat + RequiredDecoded s ≤ a →
      t.mem.read a = s.mem.read a

/-- 60_exceptions.md R205 and R207: a refused address at one of the two reads of DecLen ends DECODE with
BUS_ERROR, before the capacity check and without a write, whatever races or overlaps. -/
def Obligations.DecodeLengthReadBusError : Prop :=
  ∀ s : State, ViewsValid s → s.srcLen.toNat % 4 = 0 → 0 < s.srcLen.toNat → PlainMemory s →
    (∃ a, (a + 1 = s.srcBase.toNat + s.srcLen.toNat ∨ a + 2 = s.srcBase.toNat + s.srcLen.toNat) ∧
      ¬ Admits s a) →
    ∃ t, exec .decode s = .next t ∧ Completed s t 0x4#4 0 ∧ t.mem = s.mem

/-- 60_exceptions.md R205 for the rest of DECODE: a refused address among its accesses ends it with
BUS_ERROR, and no byte outside its would-be write range changes. That a refused source byte counts in the
length of that range as memory holds it is the model's reading (log 9). A refused address that is none of its
accesses, such as a byte after the one that ends the prefix, changes nothing (41_decode.md R141; log 10). -/
def Obligations.DecodeBodyBusError : Prop :=
  (∀ s k, DecodePasses s k → (∃ a, DecodeTouches s k a ∧ ¬ Admits s a) →
    ∃ t, exec .decode s = .next t ∧ Completed s t 0x4#4 0 ∧
      ∀ a, a < s.dstBase.toNat ∨ s.dstBase.toNat + OutCount k ≤ a → t.mem.read a = s.mem.read a) ∧
  ∀ s k, DecodePasses s k → (∀ a, DecodeTouches s k a → Admits s a) →
    ∃ t, exec .decode s = .next t ∧ Completed s t 0x0#4 (OutCount k) ∧
      ∀ a, a < s.dstBase.toNat ∨ s.dstBase.toNat + OutCount k ≤ a → t.mem.read a = s.mem.read a

/-- 20_memory.md R60 for DECODE: overlapping views are not detected, the code is OK, RESULT_LEN is some
value up to DST_CAP, and no byte is written outside the write range of R56, whose length is R136's count of
the source as the operation finds it (log 6). -/
def Obligations.DecodeOverlap : Prop :=
  ∀ s k, ViewsValid s → s.srcLen.toNat % 4 = 0 → PlainMemory s → Undisturbed s →
    IsValidPrefix s k → RequiredDecoded s ≤ s.dstCap.toNat →
    (∀ a, InSource s a ∨ InDestination s a → Admits s a) →
    (∃ a, InSource s a ∧ InDestination s a) →
    ∃ t len, exec .decode s = .next t ∧ Completed s t 0x0#4 len ∧ len ≤ s.dstCap.toNat ∧
      ∀ a, a < s.dstBase.toNat ∨ s.dstBase.toNat + OutCount k ≤ a → t.mem.read a = s.mem.read a

/-- 41_decode.md R145: DECODE of what ENCODE wrote gives the source back; with the terminator counted in
it is INVALID_ARGUMENT. -/
def Obligations.RoundTrip : Prop :=
  ∀ s t (base cap : Word), Quiet s → Memory.wf s.mem = true →
    exec .encode s = .next t → t.status.code = 0x0#4 →
    let u := { t with
      srcBase := s.dstBase, srcLen := t.resultLen, dstBase := base, dstCap := cap }
    (ViewValid base.toNat cap.toNat → s.srcLen.toNat ≤ cap.toNat → Quiet u →
      (∀ a, InSource u a ∨ InDestination u a → Admits u a) →
      ∃ v, exec .decode u = .next v ∧ Completed u v 0x0#4 s.srcLen.toNat ∧
        ∀ i, i < s.srcLen.toNat →
          v.mem.read (base.toNat + i) = s.mem.read (s.srcBase.toNat + i)) ∧
    (PlainMemory { u with srcLen := t.resultLen + 1#32 } →
      ∃ v, exec .decode { u with srcLen := t.resultLen + 1#32 } = .next v ∧
        v.status.code = 0x1#4 ∧ v.mem = t.mem)

/-! ## The alphabet -/

/-- 42_alphabet.md R171: the 64 entries of MAP6. -/
def Obligations.AlphabetTable : Prop :=
  "ABCDEFGHIJKLMNOPQRSTUVWXYZabcdefghijklmnopqrstuvwxyz0123456789+/".toList.map
    (fun c => BitVec.ofNat 8 c.toNat) = (List.range 64).map (fun n => map6 (BitVec.ofNat 6 n))

/-- 42_alphabet.md R175: MAP6 and UNMAP8 are inverse on the alphabet. -/
def Obligations.AlphabetInverse : Prop :=
  (∀ v : Sextet, unmap8 (map6 v) = (v, true)) ∧
  (∀ c : Byte, (unmap8 c).2 = true → map6 (unmap8 c).1 = c)

/-! ## Both operations -/

/-- 20_memory.md R57: no byte is written by an operation that ends with INVALID_ARGUMENT or
INSUFFICIENT_CAPACITY. -/
def Obligations.FailureWritesNothing : Prop :=
  ∀ i s t, exec i s = .next t → t.status.code = 0x1#4 ∨ t.status.code = 0x2#4 → t.mem = s.mem

/-- The whole-machine rule of 10_state.md R31 and 20_memory.md R56: an operation never writes outside its
destination view, whatever its code, its hazards and its free values (for a source the engine does not see,
by log 22). And 20_memory.md R68: one that completes with OK changed no byte that the platform refuses. -/
def Obligations.WritesStayInDestination : Prop :=
  (∀ i s t a, exec i s = .next t → ¬ InDestination s a → t.mem.read a = s.mem.read a) ∧
  ∀ i s t a, exec i s = .next t → t.status.code = 0x0#4 → t.mem.read a ≠ s.mem.read a → Admits s a

/-- 60_exceptions.md R210 and R200 to R206: outside memory with side effects every operation completes, in
every state, with one of the four codes, and with RESULT_LEN 0 unless the code is OK, and never above DST_CAP
(for a source the engine does not see, by log 22). -/
def Obligations.EveryOperationCompletes : Prop :=
  ∀ i s, PlainMemory s → ∃ t code len, exec i s = .next t ∧ Completed s t code len ∧
    code ∈ [0x0#4, 0x1#4, 0x2#4, 0x4#4] ∧ (code ≠ 0x0#4 → len = 0) ∧ len ≤ s.dstCap.toNat

/-- 20_memory.md R59 and 93_implementation_defined.md U2: an operation is refused, by one name, where a
view covers an address with side effects, and there only (log 11). The addresses of system memory that are
the block's own register window are among those (log 20). -/
def Obligations.SideEffectMemoryRefused : Prop :=
  (∀ i s, ¬ PlainMemory s → exec i s = .refused .sideEffectMemory) ∧
  (∀ i s r, exec i s = .refused r → r = .sideEffectMemory ∧ ¬ PlainMemory s) ∧
  (∀ s a, s.platform.b64Base ≤ a ∧ a < s.platform.b64Base + 0x20 → a < 2 ^ 32 →
    InSource s a ∨ InDestination s a → ¬ PlainMemory s)

/-- 60_exceptions.md R212: the code and RESULT_LEN of an undisturbed operation are functions of the
operand registers, the source bytes and MemAdmit; and 20_memory.md R58, 41_decode.md R141: of DECODE's source
bytes only the valid prefix, the byte that ends it and the last two count (log 10). -/
def Obligations.ResultDependsOnSourceOnly : Prop :=
  (∀ i s s' t t', Quiet s → Quiet s' → s.operands = s'.operands → s.platform = s'.platform →
    (∀ a, InSource s a → s.mem.read a = s'.mem.read a) →
    exec i s = .next t → exec i s' = .next t' →
    t.status.code = t'.status.code ∧ t.resultLen = t'.resultLen) ∧
  ∀ s s' t t' k, Quiet s → Quiet s' → s.operands = s'.operands → s.platform = s'.platform →
    IsValidPrefix s k →
    (∀ a, InSource s a → a ≤ s.srcBase.toNat + k ∨ s.srcBase.toNat + s.srcLen.toNat ≤ a + 2 →
      s.mem.read a = s'.mem.read a) →
    exec .decode s = .next t → exec .decode s' = .next t' →
    t.status.code = t'.status.code ∧ t.resultLen = t'.resultLen

/-- 70_reset_and_hazards.md R245: ENCODE's code depends only on the operand registers and MemAdmit, whatever
memory holds, whatever the views share and whoever wrote them. -/
def Obligations.EncodeCodeDependsOnOperands : Prop :=
  ∀ s s' t t', s.operands = s'.operands → s.platform = s'.platform →
    exec .encode s = .next t → exec .encode s' = .next t' →
    t.status.code = t'.status.code ∧ t.resultLen = t'.resultLen

/-- 70_reset_and_hazards.md R245 and 93_implementation_defined.md U6: DECODE after another agent wrote one
of its last two source bytes is OK or INSUFFICIENT_CAPACITY, with RESULT_LEN up to DST_CAP, and writes
nothing in the second case; after a write elsewhere in the views the capacity check is exact, and so is
the code. No byte is written past what SRC_LEN valid symbols would yield (20_memory.md R56), nor past R136's
count where the scan ends below every source byte written. -/
def Obligations.RacedDecode : Prop :=
  (∀ s, ViewsValid s → s.srcLen.toNat % 4 = 0 → 0 < s.srcLen.toNat → PlainMemory s →
    (∀ a, InSource s a ∨ InDestination s a → Admits s a) →
    s.race.raced = true → s.race.racedTail = true →
    ∃ t code len, exec .decode s = .next t ∧ Completed s t code len ∧ len ≤ s.dstCap.toNat ∧
      (code = 0x0#4 ∨ (code = 0x2#4 ∧ len = 0 ∧ t.mem = s.mem)) ∧
      ∀ a, s.dstBase.toNat + OutCount s.srcLen.toNat ≤ a → t.mem.read a = s.mem.read a) ∧
  (∀ s, ViewsValid s → s.srcLen.toNat % 4 = 0 → 0 < s.srcLen.toNat → PlainMemory s →
    (∀ a, InSource s a ∨ InDestination s a → Admits s a) →
    s.race.raced = true → s.race.racedTail = false → s.race.sourceSeen = true →
    (RequiredDecoded s ≤ s.dstCap.toNat →
      ∃ t len, exec .decode s = .next t ∧ Completed s t 0x0#4 len ∧ len ≤ s.dstCap.toNat ∧
        (∀ a, s.dstBase.toNat + OutCount s.srcLen.toNat ≤ a → t.mem.read a = s.mem.read a) ∧
        ∀ k, IsValidPrefix s k → (∀ x ∈ s.race.racedSource, s.srcBase.toNat + k < x) →
          ∀ a, s.dstBase.toNat + OutCount k ≤ a → t.mem.read a = s.mem.read a) ∧
    (s.dstCap.toNat < RequiredDecoded s →
      ∃ t, exec .decode s = .next t ∧ Completed s t 0x2#4 0 ∧ t.mem = s.mem))

/-! ## The life cycle -/

/-- 60_exceptions.md R211, 10_state.md R36 and 70_reset_and_hazards.md R246: once accepted, an operation is
not stopped or changed by any access or event but reset. That the visibility of its source, too, is settled
at acceptance is the model's reading of 20_memory.md R63 and R67 (log 13). -/
def Obligations.NoCancellation : Prop :=
  ∀ s t x rest i, MachineInv s → s.phase = .busy i → s.inputs = x :: rest → x ≠ .engine → x ≠ .reset →
    step s = .next t →
    t.phase = .busy i ∧ t.operands = s.operands ∧ t.owned = s.owned ∧ t.irqEn = s.irqEn ∧
    t.resultLen = s.resultLen ∧ t.status.busy = true ∧ t.status.done = false ∧
    t.status.code = s.status.code ∧ t.race.sourceSeen = s.race.sourceSeen ∧
    t.race.sourceDraw = s.race.sourceDraw

/-- 60_exceptions.md R209: a write of a legal command word to CMD while not BUSY is the only way an
operation starts. -/
def Obligations.OperationsStartByCommand : Prop :=
  ∀ s t i, s.phase = .idle → step s = .next t → t.phase = .busy i →
    s.status.busy = false ∧ ∃ rest, Writes s .cmd (encode i) rest

/-- 70_reset_and_hazards.md R240 and R242: the state after reset, at power-on and by the reset input in any
state; and that with no operation in progress reset leaves memory as it was. -/
def Obligations.ResetEffect : Prop :=
  (∀ s rest, s.inputs = .reset :: rest → s.phase = .idle → ∃ t, step s = .next t ∧ t.mem = s.mem) ∧
  ∀ t, (t = State.reset ∨ ∃ s rest, s.inputs = .reset :: rest ∧ step s = .next t) →
    t.status = { busy := false, done := false, ign := false, code := 0x0#4 } ∧
    t.srcBase = 0#32 ∧ t.srcLen = 0#32 ∧ t.dstBase = 0#32 ∧ t.dstCap = 0#32 ∧
    t.resultLen = 0#32 ∧ t.irqEn = false ∧ t.phase = .idle ∧ t.irq = false

/-- 70_reset_and_hazards.md R241: reset during an operation abandons it; no byte outside the would-be
write range is written: for DECODE none past what SRC_LEN valid symbols would yield (20_memory.md R56), nor
past R136's count where the scan ends below every source byte another agent wrote. -/
def Obligations.ResetAbandonsOperation : Prop :=
  ∀ s rest i, s.inputs = .reset :: rest → s.phase = .busy i → PlainMemory s →
    ∃ t, step s = .next t ∧ t.phase = .idle ∧ t.status.done = false ∧ t.status.code = 0x0#4 ∧
      (∀ a, ¬ InDestination s a → t.mem.read a = s.mem.read a) ∧
      (i = .encode → ∀ a, s.dstBase.toNat + (s.srcLen.toNat + 2) / 3 * 4 < a →
        t.mem.read a = s.mem.read a) ∧
      (i = .decode → ∀ a, s.dstBase.toNat + OutCount s.srcLen.toNat ≤ a →
        t.mem.read a = s.mem.read a) ∧
      (i = .decode → ∀ k, s.race.sourceSeen = true → IsValidPrefix s k →
        (∀ x ∈ s.race.racedSource, s.srcBase.toNat + k < x) →
        ∀ a, s.dstBase.toNat + OutCount k ≤ a → t.mem.read a = s.mem.read a)

/-- Every step keeps the invariant: memory's canonical form inside the address space, BUSY and the phase,
DONE, CODE and RESULT_LEN, the operands of the operation in progress, and what is kept of a completed one
until its own DONE is observed, or can no longer be (logs 7 and 23). -/
def Obligations.StepKeepsInvariant : Prop :=
  ∀ s t, MachineInv s → step s = .next t → MachineInv t

/-- The state after reset meets the invariant. -/
def Obligations.ResetMeetsInvariant : Prop := MachineInv State.reset

/-- No step changes the platform's parameters (00_scope.md R9; log 4). -/
def Obligations.PlatformIsFixed : Prop :=
  ∀ s t, step s = .next t → t.platform = s.platform

/-! ## System memory and other agents -/

/-- 20_memory.md R50: a write by any master of an admitted byte outside the buffers of every operation the host
has not seen complete writes that byte and nothing else. Which operations those are is the model's choice, its
reading of R245 (logs 7 and 23): the newest one until its own DONE is observed, and any whose own DONE can no
longer be.
A write into the buffers of one of the latter changes no register of the block, and leaves every byte but its
own that neither such an operation wrote nor the newest one may have written. -/
def Obligations.AgentWriteLands : Prop :=
  (∀ s (m : Master) (a : Word) b rest, s.inputs = .memWrite m a b :: rest → Memory.wf s.mem = true →
    Admits s a.toNat → AddrSet.mem s.platform.sideEffects a.toNat = false →
    (∀ o, s.owned = some o → o.operands.inViews a.toNat = false) → Unclaimed s a.toNat →
    ∃ t, step s = .next t ∧ t.mem.read a.toNat = b ∧
      (∀ x, x ≠ a.toNat → t.mem.read x = s.mem.read x) ∧
      t.status = s.status ∧ t.operands = s.operands ∧ t.resultLen = s.resultLen ∧
      t.phase = s.phase ∧ t.irqEn = s.irqEn ∧ t.race = s.race) ∧
  (∀ s (m : Master) (a : Word) b rest, s.inputs = .memWrite m a b :: rest →
    Admits s a.toNat → AddrSet.mem s.platform.sideEffects a.toNat = false →
    (∀ o, s.owned = some o → o.settled = none) →
    ∃ t, step s = .next t ∧ t.status = s.status ∧ t.resultLen = s.resultLen) ∧
  (∀ s t (m : Master) (a : Word) b rest, MachineInv s → s.inputs = .memWrite m a b :: rest →
    Admits s a.toNat → step s = .next t →
    (∀ x, Unheld s x → (∀ o, s.owned = some o → o.operands.destination.mem x = false) →
      t.mem.read x = if x = a.toNat then b else s.mem.read x) ∧
    t.operands = s.operands ∧ t.phase = s.phase ∧ t.irqEn = s.irqEn ∧ t.unseen = s.unseen)

/-- 20_memory.md R50, R63 and R68: a master's access outside memory with side effects is answered. A read
answers the byte memory holds unless the byte is one of a destination the host has not seen complete
(R245; log 8) or, for the host alone, one its caches may hide (R67; log 13). Which destinations those are is the
model's choice, its reading of R245 (logs 7 and 23). A refused access changes nothing (log 19). -/
def Obligations.AgentAccessAnswered : Prop :=
  ∀ (s : State) (m : Master) (a : Word) rest, AddrSet.mem s.platform.sideEffects a.toNat = false →
    (s.inputs = .memRead m a :: rest → Admits s a.toNat →
      ∃ t b, step s = .next t ∧ t.responses = .mem a.toNat b :: s.responses ∧
        ((∀ o, s.owned = some o → o.operands.destination.mem a.toNat = false) →
          (∀ c ∈ s.unseen, c.operands.destination.mem a.toNat = false) →
          (m = .host → AddrSet.mem s.stale a.toNat = false) → b = s.mem.read a.toNat) ∧
        t.mem = s.mem ∧ t.status = s.status ∧ t.operands = s.operands ∧
        t.resultLen = s.resultLen ∧ t.irqEn = s.irqEn ∧ t.phase = s.phase ∧ t.race = s.race) ∧
    (s.inputs = .memRead m a :: rest ∨ (∃ b, s.inputs = .memWrite m a b :: rest) → ¬ Admits s a.toNat →
      step s = .next { s with
        inputs := rest, responses := .memRefused a.toNat :: s.responses })

/-- 70_reset_and_hazards.md R245: an agent's write of a byte of the operation in progress lands, is marked
as a race, and touches no register. A write after the completion step, DONE not being observed yet, makes
the model draw the outcome again (log 7): ENCODE's code and RESULT_LEN stay, DECODE's code stays unless the
byte is one of its last two source bytes, and with INVALID_ARGUMENT or INSUFFICIENT_CAPACITY the operation has
written no byte. Bytes that an operation the host never saw complete wrote are let out, and so is DECODE's code
where the write disturbs one (log 23): what that operation wrote is free then. -/
def Obligations.RacingWriteIsMarked : Prop :=
  (∀ s (m : Master) (a : Word) b rest i, MachineInv s → s.phase = .busy i →
    s.inputs = .memWrite m a b :: rest →
    Admits s a.toNat → AddrSet.mem s.platform.sideEffects a.toNat = false →
    InSource s a.toNat ∨ InDestination s a.toNat →
    ∃ t, step s = .next t ∧ (Unheld s a.toNat → t.mem.read a.toNat = b) ∧
      (∀ x, x ≠ a.toNat → Unheld s x → t.mem.read x = s.mem.read x) ∧ t.race.raced = true ∧
      (i = .decode → InSource s a.toNat → s.srcBase.toNat + s.srcLen.toNat ≤ a.toNat + 2 →
        t.race.racedTail = true) ∧
      (InSource s a.toNat → a.toNat ∈ t.race.racedSource) ∧
      t.status = s.status ∧ t.operands = s.operands ∧ t.resultLen = s.resultLen ∧
      t.irqEn = s.irqEn ∧ t.phase = s.phase) ∧
  (∀ s (m : Master) (a : Word) b rest i, MachineInv s → s.phase = .busy i →
    s.inputs = .engine :: .memWrite m a b :: rest → PlainMemory s → Admits s a.toNat →
    InSource s a.toNat ∨ InDestination s a.toNat →
    ∃ t u, step s = .next t ∧ step t = .next u ∧
      u.phase = .idle ∧ u.status.busy = false ∧ u.status.done = true ∧
      u.status.ign = s.status.ign ∧ u.operands = s.operands ∧ u.irqEn = s.irqEn ∧
      u.resultLen.toNat ≤ s.dstCap.toNat ∧ u.inputs = rest ∧
      (∀ x, x ≠ a.toNat → ¬ InDestination s x → Unheld s x → u.mem.read x = s.mem.read x) ∧
      (¬ InDestination s a.toNat → Unheld s a.toNat → u.mem.read a.toNat = b) ∧
      (u.status.code = 0x1#4 ∨ u.status.code = 0x2#4 → u.resultLen = 0#32 ∧
        (Unheld s a.toNat → u.mem.read a.toNat = b) ∧
        ∀ x, x ≠ a.toNat → Unheld s x → u.mem.read x = s.mem.read x) ∧
      (i = .encode → u.status.code = t.status.code ∧ u.resultLen = t.resultLen) ∧
      (i = .decode → (∀ x, InSource s x ∨ InDestination s x → Admits s x) →
        s.race.racedTail = false → Unclaimed s a.toNat →
        ¬ (InSource s a.toNat ∧ s.srcBase.toNat + s.srcLen.toNat ≤ a.toNat + 2) →
        u.status.code = t.status.code) ∧
      (i = .decode → (∀ x, InSource s x ∨ InDestination s x → Admits s x) →
        ViewsValid s → s.srcLen.toNat % 4 = 0 →
        InSource s a.toNat ∧ s.srcBase.toNat + s.srcLen.toNat ≤ a.toNat + 2 →
        u.status.code = 0x0#4 ∨ u.status.code = 0x2#4))

/-- 20_memory.md R63, R64 and R67, 70_reset_and_hazards.md R245 and R246: once a read of STATUS has returned an
operation's own DONE = 1, or IRQ was sampled at 1 for it, its buffers are given back, and a read by any master of
a byte that no other operation claims answers the byte memory holds, for the host where its caches do not hide
the byte; and an invalidate of a range makes every byte of it one they do not hide, and no other (log 13).
Nothing else gives a buffer back: a DONE that an illegal command set does not, and an operation replaced, or
completed before a reset, keeps its claim for good. Those are the model's reading of `its DONE = 1` (log 23). -/
def Obligations.PollThenReadIsExact : Prop :=
  (∀ s (m : Master) (a : Word) rest, Reads s .status (.memRead m a :: rest) →
    s.status.done = true → s.status.code ≠ 0x3#4 →
    (∀ c ∈ s.unseen, c.operands.destination.mem a.toNat = false) →
    Admits s a.toNat → AddrSet.mem s.platform.sideEffects a.toNat = false →
    (m = .host → AddrSet.mem s.stale a.toNat = false) →
    ∃ t u v, step s = .next t ∧ t.owned = none ∧ step t = .next u ∧
      u.responses = .mem a.toNat (s.mem.read a.toNat) :: .reg .status v :: s.responses ∧
      v.getLsbD 1 = true ∧ u.mem = s.mem) ∧
  (∀ s (m : Master) (a : Word) rest, s.inputs = .sampleIrq :: .memRead m a :: rest →
    s.status.done = true → s.irqEn = true → s.status.code ≠ 0x3#4 →
    (∀ c ∈ s.unseen, c.operands.destination.mem a.toNat = false) →
    Admits s a.toNat → AddrSet.mem s.platform.sideEffects a.toNat = false →
    (m = .host → AddrSet.mem s.stale a.toNat = false) →
    ∃ t u, step s = .next t ∧ t.owned = none ∧ step t = .next u ∧
      u.responses = .mem a.toNat (s.mem.read a.toNat) :: .irq true :: s.responses ∧
      u.mem = s.mem) ∧
  (∀ s (m : Master) (a : Word) (r : Range) rest, s.inputs = .cacheInvalidate r :: .memRead m a :: rest →
    s.owned = none → (∀ c ∈ s.unseen, c.operands.destination.mem a.toNat = false) → r.mem a.toNat = true →
    Admits s a.toNat → AddrSet.mem s.platform.sideEffects a.toNat = false →
    ∃ t u, step s = .next t ∧ step t = .next u ∧
      u.responses = .mem a.toNat (s.mem.read a.toNat) :: s.responses ∧ u.mem = s.mem) ∧
  (∀ s (r : Range) rest, s.inputs = .cacheInvalidate r :: rest →
    ∃ t, step s = .next t ∧ t.mem = s.mem ∧ t.status = s.status ∧ t.owned = s.owned ∧
      ∀ x, AddrSet.mem t.stale x = true ↔ AddrSet.mem s.stale x = true ∧ ¬ r.mem x = true) ∧
  (∀ s rest, Reads s .status rest ∨ s.inputs = .sampleIrq :: rest →
    s.status.done = false ∨ s.status.code = 0x3#4 →
    ∃ t, step s = .next t ∧ t.owned = s.owned ∧ t.unseen = s.unseen) ∧
  (∀ s rest o m, s.owned = some o → o.settled = some m →
    (∃ w i, Writes s .cmd w rest ∧ decode w = .ok i ∧ s.status.busy = false) ∨
      (s.inputs = .reset :: rest ∧ s.phase = .idle) →
    ∃ t, step s = .next t ∧ ∃ c ∈ t.unseen, c.operands = o.operands) ∧
  (∀ s t c, step s = .next t → c ∈ s.unseen → ∃ c' ∈ t.unseen, c'.operands = c.operands)

/-- 20_memory.md R67: on a platform that is not coherent the engine sees the host's source bytes when the
host cleaned the source range before the command, and then only; on a coherent one it always does. -/
def Obligations.SourceSeenWhenCleaned : Prop :=
  ∀ s i, ((accept i s).race.sourceSeen = true ↔
    s.platform.coherent = true ∨ ∀ a, InSource s a → AddrSet.mem s.clean a = true) ∧
  ∀ (r : Range) w rest, s.inputs = .cacheClean r :: .busWrite s.platform.b64Base 4 w :: rest →
    s.status.busy = false → decode w = .ok i → (∀ a, InSource s a → r.mem a = true) →
    ∃ t u, step s = .next t ∧ step t = .next u ∧ u.phase = .busy i ∧ u.race.sourceSeen = true
end

