-- ==== Sys2Proof/Laws/Ranges.lean ====
section
/-! SUPPORT. Ranges and address sets, said by their members. -/

namespace Sys2Proof

theorem Range.mem_iff (r : Range) (a : Nat) :
    r.mem a = true ↔ r.base ≤ a ∧ a < r.base + r.len := by
  simp only [Range.mem, Bool.and_eq_true, decide_eq_true_eq]
  rfl

/-- Two ranges meet where they share an address. -/
theorem Range.meets_iff (r x : Range) :
    r.meets x = true ↔ ∃ a, r.mem a = true ∧ x.mem a = true := by
  simp only [Range.meets, decide_eq_true_eq, Range.mem_iff]
  simp only [Range.stop]
  constructor
  · intro h
    exact ⟨max r.base x.base, by omega, by omega⟩
  · rintro ⟨a, h1, h2⟩
    omega

theorem AddrSet.mem_iff (xs : AddrSet) (a : Nat) :
    AddrSet.mem xs a = true ↔ ∃ x ∈ xs, x.mem a = true := by
  simp [AddrSet.mem]

/-- A set meets a range where they share an address. -/
theorem AddrSet.meets_iff (xs : AddrSet) (r : Range) :
    AddrSet.meets xs r = true ↔ ∃ a, AddrSet.mem xs a = true ∧ r.mem a = true := by
  simp only [AddrSet.meets, List.any_eq_true, Range.meets_iff, AddrSet.mem_iff]
  constructor
  · rintro ⟨x, hx, a, h1, h2⟩
    exact ⟨a, ⟨x, hx, h1⟩, h2⟩
  · rintro ⟨a, ⟨x, hx, h1⟩, h2⟩
    exact ⟨x, hx, a, h1, h2⟩

/-- The pieces of a range without another one hold the addresses of the first that are not in the
second. -/
theorem Range.mem_minus (x r : Range) (a : Nat) :
    AddrSet.mem (x.minus r) a = true ↔ x.mem a = true ∧ ¬ r.mem a = true := by
  unfold Range.minus
  simp only []
  split
  · rename_i h
    simp only [Range.meets, decide_eq_true_eq] at h
    simp only [Range.stop] at h
    simp only [AddrSet.mem_iff, List.mem_filter, List.mem_cons, List.not_mem_nil, or_false,
      bne_iff_ne, Range.mem_iff, Range.stop]
    constructor
    · rintro ⟨p, ⟨rfl | rfl, hp⟩, h1⟩ <;> simp only at h1 hp <;> omega
    · rintro ⟨h1, h2⟩
      by_cases hb : a < r.base
      · exact ⟨_, ⟨Or.inl rfl, by simp only; omega⟩, by simp only; omega⟩
      · exact ⟨_, ⟨Or.inr rfl, by simp only; omega⟩, by simp only; omega⟩
  · rename_i h
    simp only [Range.meets, decide_eq_true_eq] at h
    simp only [Range.stop] at h
    simp only [AddrSet.mem_iff, List.mem_singleton, exists_eq_left, Range.mem_iff]
    omega

/-- The set without a range. -/
theorem AddrSet.mem_remove (xs : AddrSet) (r : Range) (a : Nat) :
    AddrSet.mem (AddrSet.remove xs r) a = true ↔ AddrSet.mem xs a = true ∧ ¬ r.mem a = true := by
  have h := fun x : Range => Range.mem_minus x r a
  simp only [AddrSet.mem_iff] at h
  simp only [AddrSet.remove, AddrSet.mem_iff, List.mem_flatMap]
  constructor
  · rintro ⟨p, ⟨x, hx, hp⟩, ha⟩
    obtain ⟨h1, h2⟩ := (h x).mp ⟨p, hp, ha⟩
    exact ⟨⟨x, hx, h1⟩, h2⟩
  · rintro ⟨⟨x, hx, h1⟩, h2⟩
    obtain ⟨p, hp, ha⟩ := (h x).mpr ⟨h1, h2⟩
    exact ⟨p, ⟨x, hx, hp⟩, ha⟩

theorem Range.mem_below (r : Range) (n a : Nat) : (r.below n).mem a = true ↔ r.mem a = true ∧ a < n := by
  simp only [Range.mem_iff, Range.below, Range.stop]
  omega

/-- What has side effects is a device's or the window's, and of system memory (20_memory.md R50, R59). -/
theorem Platform.mem_sideEffects (p : Platform) (a : Nat) :
    AddrSet.mem p.sideEffects a = true ↔
      (p.window.mem a = true ∨ AddrSet.mem p.device a = true) ∧ a < Config.addrSpace := by
  simp only [Platform.sideEffects, AddrSet.mem_iff, List.map_cons, List.mem_cons, List.mem_map]
  constructor
  · rintro ⟨x, rfl | ⟨y, hy, rfl⟩, ha⟩
    · exact ((Range.mem_below _ _ _).mp ha).imp .inl id
    · exact ((Range.mem_below _ _ _).mp ha).imp (fun h => .inr ⟨y, hy, h⟩) id
  · rintro ⟨h | ⟨y, hy, h⟩, ha⟩
    · exact ⟨_, .inl rfl, (Range.mem_below _ _ _).mpr ⟨h, ha⟩⟩
    · exact ⟨_, .inr ⟨y, hy, rfl⟩, (Range.mem_below _ _ _).mpr ⟨h, ha⟩⟩

theorem AddrSet.mem_foldl_remove (xs ys : AddrSet) (a : Nat) :
    AddrSet.mem (xs.foldl (fun rest x => AddrSet.remove rest x) ys) a = true
      ↔ AddrSet.mem ys a = true ∧ ¬ AddrSet.mem xs a = true := by
  induction xs generalizing ys with
  | nil => simp [AddrSet.mem]
  | cons x xs ih =>
    rw [List.foldl_cons, ih, AddrSet.mem_remove]
    simp only [AddrSet.mem, List.any_cons, Bool.or_eq_true]
    tauto

/-- A set covers a range when it holds every address of it. -/
theorem AddrSet.covers_iff (xs : AddrSet) (r : Range) :
    AddrSet.covers xs r = true ↔ ∀ a, r.mem a = true → AddrSet.mem xs a = true := by
  have key := fun a => AddrSet.mem_foldl_remove xs [r] a
  have empty : ∀ ys : AddrSet, (ys.all (fun p => p.len == 0)) = true
      ↔ ∀ a, ¬ AddrSet.mem ys a = true := by
    intro ys
    simp only [List.all_eq_true, beq_iff_eq, AddrSet.mem_iff, Range.mem_iff]
    constructor
    · rintro h a ⟨x, hx, h1⟩
      have := h x hx
      omega
    · intro h x hx
      by_contra hne
      exact h x.base ⟨x, hx, by omega⟩
  unfold AddrSet.covers
  rw [empty]
  constructor
  · intro h a ha
    by_contra hn
    exact h a ((key a).mpr ⟨by simp [AddrSet.mem, ha], hn⟩)
  · intro h a ha
    obtain ⟨h1, h2⟩ := (key a).mp ha
    exact h2 (h a (by simpa [AddrSet.mem] using h1))

namespace Machine

theorem memAdmit_iff (p : Platform) (a : Nat) :
    memAdmit p a = true ↔ ¬ AddrSet.mem p.refused a = true := by
  simp [memAdmit]

/-- A range is admitted when every address of it is. -/
theorem rangeAdmitted_iff (p : Platform) (r : Range) :
    rangeAdmitted p r = true ↔ ∀ a, r.mem a = true → memAdmit p a = true := by
  have h := AddrSet.meets_iff p.refused r
  simp only [rangeAdmitted, Bool.not_eq_true', memAdmit_iff]
  rw [← Bool.not_eq_true, h]
  constructor
  · intro hn a ha hm
    exact hn ⟨a, hm, ha⟩
  · rintro hall ⟨a, hm, ha⟩
    exact hall a ha hm

/-- `ViewOK` in the words of 20_memory.md R52. -/
theorem viewOK_iff (b n : Nat) : viewOK b n = true ↔ ¬ (b = 0 ∧ n > 0) ∧ b + n ≤ 2 ^ 32 := by
  simp only [viewOK, Bool.and_eq_true, Bool.not_eq_true', Bool.and_eq_false_iff, beq_eq_false_iff_ne,
    decide_eq_false_iff_not, decide_eq_true_eq]
  simp only [Config.nullAddr, Config.addrSpace]
  omega

/-- The views overlap where they share an address. -/
theorem Operands.overlap_iff (v : Operands) :
    v.overlap = true ↔ ∃ a, v.source.mem a = true ∧ v.destination.mem a = true :=
  Range.meets_iff _ _

end Machine

end Sys2Proof
end

