-- ==== Sys2Proof/Laws/Memory.lean ====
section
/-! SUPPORT. System memory: reading after writing, and the canonical form every operation keeps. -/

namespace Sys2Proof.Machine

@[simp] theorem Memory.read_nil (a : Nat) : Memory.read [] a = Config.unwrittenByte := rfl

theorem Memory.read_cons (k : Nat) (v : Byte) (m : Memory) (a : Nat) :
    Memory.read ((k, v) :: m) a = if k = a then v else Memory.read m a := rfl

/-- A canonical memory lists nothing below its bound. -/
theorem Memory.read_below {m : Memory} {lo a : Nat} (h : Memory.wfFrom lo m = true) (ha : a < lo) :
    m.read a = Config.unwrittenByte := by
  induction m generalizing lo with
  | nil => rfl
  | cons c m ih =>
    obtain ⟨k, v⟩ := c
    simp only [Memory.wfFrom, Bool.and_eq_true, decide_eq_true_eq] at h
    rw [Memory.read_cons, if_neg (by omega)]
    exact ih h.2 (by omega)

theorem Memory.wfFrom_mono {m : Memory} {lo lo' : Nat} (h : Memory.wfFrom lo m = true)
    (hl : lo' ≤ lo) : Memory.wfFrom lo' m = true := by
  cases m with
  | nil => rfl
  | cons c m =>
    obtain ⟨k, v⟩ := c
    simp only [Memory.wfFrom, Bool.and_eq_true, decide_eq_true_eq] at h ⊢
    exact ⟨⟨by omega, h.1.2⟩, h.2⟩

/-- A write keeps the canonical form. -/
theorem Memory.wfFrom_write {m : Memory} {lo a : Nat} (b : Byte)
    (h : Memory.wfFrom lo m = true) (ha : lo ≤ a) : Memory.wfFrom lo (m.write a b) = true := by
  induction m generalizing lo with
  | nil =>
    unfold Memory.write
    split
    · rfl
    · simp_all [Memory.wfFrom]
  | cons c m ih =>
    obtain ⟨k, v⟩ := c
    have h0 := h
    simp only [Memory.wfFrom, Bool.and_eq_true, decide_eq_true_eq] at h
    unfold Memory.write
    split
    · rename_i hlt
      split
      · exact h0
      · simp only [Memory.wfFrom, Bool.and_eq_true, decide_eq_true_eq]
        refine ⟨⟨ha, ?_⟩, ⟨by omega, h.1.2⟩, h.2⟩
        simpa using ‹¬ b = Config.unwrittenByte›
    · split
      · rename_i heq
        subst heq
        split
        · exact Memory.wfFrom_mono h.2 (by omega)
        · simp only [Memory.wfFrom, Bool.and_eq_true, decide_eq_true_eq]
          refine ⟨⟨ha, ?_⟩, h.2⟩
          simpa using ‹¬ b = Config.unwrittenByte›
      · simp only [Memory.wfFrom, Bool.and_eq_true, decide_eq_true_eq]
        exact ⟨h.1, ih h.2 (by omega)⟩

/-- A write keeps the canonical form. -/
theorem Memory.wf_write {m : Memory} (a : Nat) (b : Byte) (h : m.wf = true) :
    (m.write a b).wf = true :=
  Memory.wfFrom_write b h (Nat.zero_le a)

/-- Writing bytes keeps the canonical form. -/
theorem Memory.wf_writeBytes {m : Memory} (a : Nat) (bs : List Byte) (h : m.wf = true) :
    (m.writeBytes a bs).wf = true := by
  induction bs generalizing m a with
  | nil => exact h
  | cons b bs ih => exact ih (a + 1) (Memory.wf_write a b h)

/-- A write inside the address space keeps memory inside it. -/
theorem Memory.bounded_write {m : Memory} {a : Nat} (b : Byte) (h : m.bounded = true)
    (ha : a < Config.addrSpace) : (m.write a b).bounded = true := by
  induction m with
  | nil => unfold Memory.write; split <;> simp_all [Memory.bounded]
  | cons c m ih =>
    obtain ⟨k, v⟩ := c
    simp only [Memory.bounded, List.all_cons, Bool.and_eq_true, decide_eq_true_eq] at h ih ⊢
    have ih := ih h.2
    unfold Memory.write
    by_cases hlt : a < k
    · rw [if_pos hlt]
      split <;> simp [h.1, ha, h.2]
    · rw [if_neg hlt]
      by_cases he : a = k
      · rw [if_pos he]
        split <;> simp [h.2, ha]
      · rw [if_neg he]
        simp [h.1, ih]

/-- Writing bytes inside the address space keeps memory inside it. -/
theorem Memory.bounded_writeBytes {m : Memory} {a : Nat} (bs : List Byte) (h : m.bounded = true)
    (ha : a + bs.length ≤ Config.addrSpace) : (m.writeBytes a bs).bounded = true := by
  induction bs generalizing m a with
  | nil => exact h
  | cons b bs ih =>
    simp only [List.length_cons] at ha
    exact ih (Memory.bounded_write b h (by omega)) (by omega)

/-- A read gives what was last written there, in a canonical memory. -/
theorem Memory.read_write {m : Memory} (h : m.wf = true) (a x : Nat) (b : Byte) :
    (m.write a b).read x = if x = a then b else m.read x := by
  unfold Memory.wf at h
  generalize 0 = lo at h
  induction m generalizing lo with
  | nil =>
    unfold Memory.write
    by_cases hb : b = Config.unwrittenByte
    · rw [if_pos hb, hb]; simp
    · rw [if_neg hb, Memory.read_cons, Memory.read_nil]; simp [eq_comm]
  | cons c m ih =>
    obtain ⟨k, v⟩ := c
    simp only [Memory.wfFrom, Bool.and_eq_true, decide_eq_true_eq] at h
    have below : ∀ y, y ≤ k → Memory.read m y = Config.unwrittenByte :=
      fun y hy => Memory.read_below h.2 (by omega)
    have ih := ih _ h.2
    unfold Memory.write
    by_cases hlt : a < k
    · rw [if_pos hlt]
      split
      · by_cases hx : x = a
        · subst hx
          rw [if_pos rfl, Memory.read_cons, if_neg (by omega), below x (by omega)]
          exact Eq.symm ‹_›
        · rw [if_neg hx]
      · by_cases hx : x = a
        · rw [Memory.read_cons, if_pos hx.symm, if_pos hx]
        · rw [Memory.read_cons, if_neg (fun e => hx e.symm), if_neg hx]
    · rw [if_neg hlt]
      by_cases he : a = k
      · subst he
        rw [if_pos rfl]
        split
        · by_cases hx : x = a
          · subst hx
            rw [if_pos rfl, below x (by omega)]
            exact Eq.symm ‹_›
          · rw [if_neg hx, Memory.read_cons, if_neg (fun e => hx e.symm)]
        · by_cases hx : x = a
          · rw [Memory.read_cons, if_pos hx.symm, if_pos hx]
          · rw [Memory.read_cons, if_neg (fun e => hx e.symm), if_neg hx, Memory.read_cons,
              if_neg (fun e => hx e.symm)]
      · rw [if_neg he, Memory.read_cons, Memory.read_cons, ih]
        by_cases hk : k = x
        · subst hk
          rw [if_pos rfl, if_neg (fun e => he e.symm), if_pos rfl]
        · rw [if_neg hk, if_neg hk]

/-- A write leaves every other address, in any memory. -/
theorem Memory.read_write_other (m : Memory) {a x : Nat} (b : Byte) (hx : x ≠ a) :
    (m.write a b).read x = m.read x := by
  induction m with
  | nil => unfold Memory.write; split <;> simp [Memory.read, Ne.symm hx]
  | cons c m ih =>
    obtain ⟨k, v⟩ := c
    unfold Memory.write
    by_cases hlt : a < k
    · rw [if_pos hlt]
      split
      · rfl
      · rw [Memory.read_cons, if_neg (Ne.symm hx)]
    · rw [if_neg hlt]
      by_cases he : a = k
      · subst he
        rw [if_pos rfl]
        split
        · rw [Memory.read_cons, if_neg (Ne.symm hx)]
        · rw [Memory.read_cons, Memory.read_cons, if_neg (Ne.symm hx), if_neg (Ne.symm hx)]
      · rw [if_neg he, Memory.read_cons, Memory.read_cons, ih]

/-- Writing bytes leaves every address outside them, in any memory. -/
theorem Memory.read_writeBytes_outside (m : Memory) {a x : Nat} (bs : List Byte)
    (hx : x < a ∨ a + bs.length ≤ x) : (m.writeBytes a bs).read x = m.read x := by
  induction bs generalizing m a with
  | nil => rfl
  | cons b bs ih =>
    simp only [List.length_cons] at hx
    rw [Memory.writeBytes, ih (m.write a b) (by omega), Memory.read_write_other m b (by omega)]

/-- The written bytes, read back, in a canonical memory. -/
theorem Memory.read_writeBytes_inside {m : Memory} (h : m.wf = true) {a i : Nat} (bs : List Byte)
    (hi : i < bs.length) : (m.writeBytes a bs).read (a + i) = bs[i] := by
  induction bs generalizing m a i with
  | nil => simp at hi
  | cons b bs ih =>
    rw [Memory.writeBytes]
    cases i with
    | zero =>
      rw [Memory.read_writeBytes_outside _ _ (by omega), Memory.read_write h]
      simp
    | succ i =>
      have := ih (m := m.write a b) (a := a + 1) (i := i) (Memory.wf_write a b h) (by simpa using hi)
      rw [show a + (i + 1) = a + 1 + i by omega, this]
      rfl

@[simp] theorem Memory.readBytes_length (m : Memory) (a n : Nat) : (m.readBytes a n).length = n := by
  induction n generalizing a with
  | zero => rfl
  | succ n ih => simp [Memory.readBytes, ih]

@[simp] theorem freeBytes_length (d a n : Nat) : (freeBytes d a n).length = n := by
  induction n generalizing a with
  | zero => rfl
  | succ n ih => simp [freeBytes, ih]

/-- What stands at an address after a write depends on what stood there alone, in canonical memories. -/
theorem Memory.read_writeBytes_congr {m m' : Memory} {x : Nat} (h : m.wf = true) (h' : m'.wf = true)
    (he : m.read x = m'.read x) (a : Nat) (bs : List Byte) :
    (m.writeBytes a bs).read x = (m'.writeBytes a bs).read x := by
  induction bs generalizing m m' a with
  | nil => exact he
  | cons b bs ih =>
    refine ih (Memory.wf_write _ _ h) (Memory.wf_write _ _ h') ?_ (a + 1)
    rw [Memory.read_write h, Memory.read_write h', he]

/-- Free bytes over a set of addresses leave every other address. -/
theorem Memory.read_scatter_outside (m : Memory) (d : Nat) {xs : AddrSet} {a : Nat}
    (h : AddrSet.mem xs a = false) : (m.scatter d xs).read a = m.read a := by
  unfold Memory.scatter
  induction xs generalizing m with
  | nil => rfl
  | cons r xs ih =>
    simp only [AddrSet.mem, List.any_cons, Bool.or_eq_false_iff] at h
    rw [List.foldl_cons, ih _ h.2]
    apply Memory.read_writeBytes_outside
    have := mt (Range.mem_iff r a).mpr (by simp [h.1])
    rw [freeBytes_length]
    omega

/-- They keep the canonical form. -/
theorem Memory.wf_scatter {m : Memory} (d : Nat) (xs : AddrSet) (h : m.wf = true) :
    (m.scatter d xs).wf = true := by
  unfold Memory.scatter
  induction xs generalizing m with
  | nil => exact h
  | cons r xs ih => exact ih (Memory.wf_writeBytes _ _ h)

theorem Memory.read_scatter_congr {m m' : Memory} {x : Nat} (d : Nat) (xs : AddrSet) (h : m.wf = true)
    (h' : m'.wf = true) (he : m.read x = m'.read x) : (m.scatter d xs).read x = (m'.scatter d xs).read x := by
  unfold Memory.scatter
  induction xs generalizing m m' with
  | nil => exact he
  | cons r xs ih =>
    exact ih (Memory.wf_writeBytes _ _ h) (Memory.wf_writeBytes _ _ h')
      (Memory.read_writeBytes_congr h h' he _ _)

/-- Over addresses of the address space they keep memory inside it. -/
theorem Memory.bounded_scatter {m : Memory} (d : Nat) {xs : AddrSet} (h : m.bounded = true)
    (hx : ∀ a, AddrSet.mem xs a = true → a < Config.addrSpace) : (m.scatter d xs).bounded = true := by
  unfold Memory.scatter
  induction xs generalizing m with
  | nil => exact h
  | cons r xs ih =>
    simp only [AddrSet.mem, List.any_cons, Bool.or_eq_true] at hx
    refine ih ?_ (fun a ha => hx a (.inr ha))
    by_cases hl : r.len = 0
    · simpa [hl, freeBytes, Memory.writeBytes] using h
    · have := hx (r.base + r.len - 1) (.inl ((Range.mem_iff _ _).mpr (by omega)))
      exact Memory.bounded_writeBytes _ h (by rw [freeBytes_length]; omega)

end Sys2Proof.Machine
end

