-- ==== Sys2Proof/Laws/Codec.lean ====
section
/-! SUPPORT. The text of a source and the bytes of a text, position by position, and what the body of an
operation can yield. -/

namespace Sys2Proof.Machine

@[simp] theorem sourceBytes_length (rc : Race) (s : State) (a n : Nat) :
    (sourceBytes rc s a n).length = n := by
  induction n generalizing a with
  | zero => rfl
  | succ n ih => simp [sourceBytes, ih]

theorem sourceBytes_getElem (rc : Race) (s : State) (a n i : Nat)
    (h : i < (sourceBytes rc s a n).length) :
    (sourceBytes rc s a n)[i] = sourceByte rc s (a + i) := by
  induction n generalizing a i with
  | zero => simp at h
  | succ n ih =>
    cases i with
    | zero => rfl
    | succ i =>
      have := ih (a + 1) i (by simpa using h)
      simp only [sourceBytes, List.getElem_cons_succ, this]
      congr 1
      omega

theorem encodedLen_eq (n : Nat) : encodedLen n = (n + 2) / 3 * 4 := by
  unfold encodedLen; split <;> omega

/-- The text has `OLEN(N)` bytes (40_encode.md R101, R105). -/
theorem encodeText_length (l : List Byte) : (encodeText l).length = encodedLen l.length := by
  rw [encodedLen_eq]
  induction l using encodeText.induct with
  | case1 b0 b1 b2 rest ih => simp only [encodeText, List.length_cons, ih]; omega
  | case2 b0 b1 => simp [encodeText]
  | case3 b0 => simp [encodeText]
  | case4 => simp [encodeText]

/-- The symbols of a full group stand at offsets `4j` to `4j + 3` (40_encode.md R102, R105). -/
theorem encodeText_group (l : List Byte) (j : Nat) (h : 3 * j + 3 ≤ l.length) :
    (encodeText l)[4 * j]? = some (symbol1 l[3 * j]) ∧
    (encodeText l)[4 * j + 1]? = some (symbol2 l[3 * j] l[3 * j + 1]) ∧
    (encodeText l)[4 * j + 2]? = some (symbol3 l[3 * j + 1] l[3 * j + 2]) ∧
    (encodeText l)[4 * j + 3]? = some (symbol4 l[3 * j + 2]) := by
  induction l using encodeText.induct generalizing j with
  | case1 b0 b1 b2 rest ih =>
    cases j with
    | zero => simp [encodeText]
    | succ j =>
      have := ih j (by simp only [List.length_cons] at h; omega)
      simpa [encodeText, Nat.mul_add] using this
  | case2 b0 b1 => simp at h
  | case3 b0 => simp at h
  | case4 => simp at h

/-- A partial group of 2 bytes (40_encode.md R103). -/
theorem encodeText_two (l : List Byte) (g : Nat) (h : l.length = 3 * g + 2) :
    (encodeText l)[4 * g]? = some (symbol1 l[3 * g]) ∧
    (encodeText l)[4 * g + 1]? = some (symbol2 l[3 * g] l[3 * g + 1]) ∧
    (encodeText l)[4 * g + 2]? = some (symbol3 l[3 * g + 1] 0#8) ∧
    (encodeText l)[4 * g + 3]? = some padByte := by
  induction l using encodeText.induct generalizing g with
  | case1 b0 b1 b2 rest ih =>
    cases g with
    | zero => simp at h
    | succ g =>
      have := ih g (by simp only [List.length_cons] at h; omega)
      simpa [encodeText, Nat.mul_add] using this
  | case2 b0 b1 =>
    obtain rfl : g = 0 := by simp only [List.length_cons, List.length_nil] at h; omega
    simp [encodeText]
  | case3 b0 => simp only [List.length_cons, List.length_nil] at h; omega
  | case4 => simp at h

/-- A partial group of 1 byte (40_encode.md R104). -/
theorem encodeText_one (l : List Byte) (g : Nat) (h : l.length = 3 * g + 1) :
    (encodeText l)[4 * g]? = some (symbol1 l[3 * g]) ∧
    (encodeText l)[4 * g + 1]? = some (symbol2 l[3 * g] 0#8) ∧
    (encodeText l)[4 * g + 2]? = some padByte ∧
    (encodeText l)[4 * g + 3]? = some padByte := by
  induction l using encodeText.induct generalizing g with
  | case1 b0 b1 b2 rest ih =>
    cases g with
    | zero => simp at h
    | succ g =>
      have := ih g (by simp only [List.length_cons] at h; omega)
      simpa [encodeText, Nat.mul_add] using this
  | case2 b0 b1 => simp only [List.length_cons, List.length_nil] at h; omega
  | case3 b0 =>
    obtain rfl : g = 0 := by simp only [List.length_cons, List.length_nil] at h; omega
    simp [encodeText]
  | case4 => simp at h

/-- The bytes of `K` symbols number `out` (41_decode.md R136). -/
theorem decodeSymbols_length (vs : List Sextet) :
    (decodeSymbols vs).length = decodedCount vs.length := by
  unfold decodedCount
  induction vs using decodeSymbols.induct with
  | case1 v1 v2 v3 v4 rest ih =>
    simp only [decodeSymbols, List.length_cons, ih]
    repeat (any_goals split)
    all_goals omega
  | case2 v1 v2 v3 => simp [decodeSymbols]
  | case3 v1 v2 => simp [decodeSymbols]
  | case4 v => simp [decodeSymbols]
  | case5 => simp [decodeSymbols]

/-- The bytes of a full group stand at offsets `3j` to `3j + 2` (41_decode.md R132, R137). -/
theorem decodeSymbols_group (vs : List Sextet) (j : Nat) (h : 4 * j + 4 ≤ vs.length) :
    (decodeSymbols vs)[3 * j]? = some (decodedByte0 vs[4 * j] vs[4 * j + 1]) ∧
    (decodeSymbols vs)[3 * j + 1]? = some (decodedByte1 vs[4 * j + 1] vs[4 * j + 2]) ∧
    (decodeSymbols vs)[3 * j + 2]? = some (decodedByte2 vs[4 * j + 2] vs[4 * j + 3]) := by
  induction vs using decodeSymbols.induct generalizing j with
  | case1 v1 v2 v3 v4 rest ih =>
    cases j with
    | zero => simp [decodeSymbols]
    | succ j =>
      have := ih j (by simp only [List.length_cons] at h; omega)
      simpa [decodeSymbols, Nat.mul_add] using this
  | case2 v1 v2 v3 => simp at h
  | case3 v1 v2 => simp at h
  | case4 v => simp at h
  | case5 => simp at h

/-- A remainder of 2 symbols (41_decode.md R133). -/
theorem decodeSymbols_two (vs : List Sextet) (q : Nat) (h : vs.length = 4 * q + 2) :
    (decodeSymbols vs)[3 * q]? = some (decodedByte0 vs[4 * q] vs[4 * q + 1]) := by
  induction vs using decodeSymbols.induct generalizing q with
  | case1 v1 v2 v3 v4 rest ih =>
    cases q with
    | zero => simp at h
    | succ q =>
      have := ih q (by simp only [List.length_cons] at h; omega)
      simpa [decodeSymbols, Nat.mul_add] using this
  | case2 v1 v2 v3 => simp only [List.length_cons, List.length_nil] at h; omega
  | case3 v1 v2 =>
    obtain rfl : q = 0 := by simp only [List.length_cons, List.length_nil] at h; omega
    simp [decodeSymbols]
  | case4 v => simp only [List.length_cons, List.length_nil] at h; omega
  | case5 => simp at h

/-- A remainder of 3 symbols (41_decode.md R134). -/
theorem decodeSymbols_three (vs : List Sextet) (q : Nat) (h : vs.length = 4 * q + 3) :
    (decodeSymbols vs)[3 * q]? = some (decodedByte0 vs[4 * q] vs[4 * q + 1]) ∧
    (decodeSymbols vs)[3 * q + 1]? = some (decodedByte1 vs[4 * q + 1] vs[4 * q + 2]) := by
  induction vs using decodeSymbols.induct generalizing q with
  | case1 v1 v2 v3 v4 rest ih =>
    cases q with
    | zero => simp at h
    | succ q =>
      have := ih q (by simp only [List.length_cons] at h; omega)
      simpa [decodeSymbols, Nat.mul_add] using this
  | case2 v1 v2 v3 =>
    obtain rfl : q = 0 := by simp only [List.length_cons, List.length_nil] at h; omega
    simp [decodeSymbols]
  | case3 v1 v2 => simp only [List.length_cons, List.length_nil] at h; omega
  | case4 v => simp only [List.length_cons, List.length_nil] at h; omega
  | case5 => simp at h

theorem validPrefix_length_le (l : List Byte) : (validPrefix l).length ≤ l.length := by
  induction l with
  | nil => simp [validPrefix]
  | cons c rest ih => simp only [validPrefix]; split <;> simp [ih]

/-- Before `K` every byte is of the alphabet, and the prefix holds its value (41_decode.md R131). -/
theorem validPrefix_getElem (l : List Byte) (i : Nat) (h : i < (validPrefix l).length) :
    (unmap8 (l[i]'(Nat.lt_of_lt_of_le h (validPrefix_length_le l)))).2 = true ∧
    (validPrefix l)[i] = (unmap8 (l[i]'(Nat.lt_of_lt_of_le h (validPrefix_length_le l)))).1 := by
  induction l generalizing i with
  | nil => simp [validPrefix] at h
  | cons c rest ih =>
    by_cases hc : (unmap8 c).2 = true
    · cases i with
      | zero => simp [validPrefix, hc]
      | succ i =>
        have := ih i (by simpa [validPrefix, hc] using h)
        simpa [validPrefix, hc] using this
    · simp [validPrefix, hc] at h

/-- The byte at `K` is not of the alphabet (41_decode.md R131). -/
theorem validPrefix_stops (l : List Byte) (h : (validPrefix l).length < l.length) :
    (unmap8 l[(validPrefix l).length]).2 = false := by
  induction l with
  | nil => simp at h
  | cons c rest ih =>
    by_cases hc : (unmap8 c).2 = true
    · simp only [validPrefix, hc, if_true, List.length_cons, List.getElem_cons_succ] at h ⊢
      exact ih (by omega)
    · simp only [validPrefix, hc]
      simpa using hc

/-- What the completion step can do: refuse, or complete with the body's result. -/
theorem finish_eq_next {result : Except Refusal OpResult} {s t : State}
    (h : finish result s = .next t) :
    ∃ r, result = .ok r ∧ t = complete r.code r.len
      { s with
        mem := s.mem.writeBytes s.operands.dstBase r.bytes,
        owned := s.owned.map (Ownership.settle s.mem r),
        stale := s.markStale s.operands.destination,
        draws := s.draws + 1 } := by
  unfold finish at h
  split at h
  · simp at h
  · rename_i r
    exact ⟨r, rfl, by simpa using h.symm⟩

/-- What ENCODE's body can yield. -/
theorem encodeResult_ok {v : Operands} {rc : Race} {s : State} {r : OpResult}
    (h : encodeResult v rc s = .ok r) :
    v.touchesDevice s.platform = false ∧
    ((r = .failed .invalidArgument ∧ encodeInvalid v = true) ∨
    (r = .failed .insufficientCapacity ∧ encodeInvalid v = false ∧ v.dstCap < reqCap v.srcLen) ∨
    (r = { code := .ok, len := 0, bytes := [] } ∧ encodeInvalid v = false ∧ v.srcLen = 0) ∨
    (encodeInvalid v = false ∧ reqCap v.srcLen ≤ v.dstCap ∧ v.srcLen ≠ 0 ∧
      ((r.code = .busError ∧ r.len = 0 ∧
          r.bytes = freeBytes s.draws v.dstBase (encodedLen v.srcLen + 1)) ∨
       (r.code = .ok ∧ r.len = encodedLen v.srcLen ∧
          r.bytes = freeBytes s.draws v.dstBase (encodedLen v.srcLen + 1)) ∨
       (r.code = .ok ∧ r.len = encodedLen v.srcLen ∧
          r.bytes = encodeText (sourceBytes rc s v.srcBase v.srcLen) ++ [terminator])))) := by
  unfold encodeResult at h
  split at h
  · simp at h
  refine ⟨by simpa using ‹¬ v.touchesDevice s.platform = true›, ?_⟩
  split at h
  · exact .inl ⟨by simpa using h.symm, ‹_›⟩
  split at h
  · exact .inr (.inl ⟨by simpa using h.symm, by simpa using ‹¬ encodeInvalid v = true›, ‹_›⟩)
  split at h
  · exact .inr (.inr (.inl ⟨by simpa using h.symm, by simpa using ‹¬ encodeInvalid v = true›, ‹_›⟩))
  refine .inr (.inr (.inr ⟨by simpa using ‹¬ encodeInvalid v = true›, by omega, ‹_›, ?_⟩))
  split at h
  · obtain rfl := (Except.ok.inj h)
    exact .inl ⟨rfl, rfl, rfl⟩
  split at h
  · obtain rfl := (Except.ok.inj h)
    exact .inr (.inl ⟨rfl, rfl, rfl⟩)
  · obtain rfl := (Except.ok.inj h)
    exact .inr (.inr ⟨rfl, rfl, rfl⟩)

theorem scanCount_le (p : Nat → Bool) (a n : Nat) : scanCount p a n ≤ n := by
  induction n generalizing a with
  | zero => simp [scanCount]
  | succ n ih => have := ih (a + 1); simp only [scanCount]; split <;> omega

/-- A scan that goes on more often goes further. -/
theorem scanCount_mono {p q : Nat → Bool} (h : ∀ a, p a = true → q a = true) (a n : Nat) :
    scanCount p a n ≤ scanCount q a n := by
  induction n generalizing a with
  | zero => simp [scanCount]
  | succ n ih =>
    have := ih (a + 1)
    by_cases hp : p a = true
    · simp [scanCount, hp, h a hp, this]
    · simp [scanCount, hp]

/-- Where a scan ends: before it every address goes on, and there it does not. -/
theorem scanCount_eq {p : Nat → Bool} {a n k : Nat} (hk : k ≤ n) (hp : ∀ i, i < k → p (a + i) = true)
    (hs : k < n → p (a + k) = false) : scanCount p a n = k := by
  induction n generalizing a k with
  | zero => simp only [scanCount]; omega
  | succ n ih =>
    cases k with
    | zero => simpa [scanCount] using hs (by omega)
    | succ k =>
      have h0 : p a = true := by simpa using hp 0 (by omega)
      simp only [scanCount, h0, if_true, Nat.add_right_cancel_iff]
      refine ih (by omega) (fun i hi => ?_) (fun h => ?_)
      · rw [Nat.add_assoc, Nat.add_comm 1 i]; exact hp (i + 1) (by omega)
      · rw [Nat.add_assoc, Nat.add_comm 1 k]; exact hs (by omega)

/-- The length of the valid prefix is where the scan of valid bytes ends (41_decode.md R131). -/
theorem sourceSymbols_length (v : Operands) (rc : Race) (s : State) :
    (sourceSymbols v rc s).length
      = scanCount (fun a => (unmap8 (sourceByte rc s a)).2) v.srcBase v.srcLen := by
  unfold sourceSymbols
  generalize v.srcBase = a
  induction v.srcLen generalizing a with
  | zero => rfl
  | succ n ih =>
    simp only [sourceBytes, validPrefix, scanCount]
    by_cases h : (unmap8 (sourceByte rc s a)).2 = true <;> simp [h, ih]

theorem prefixLength_le (v : Operands) (rc : Race) (s : State) : prefixLength v rc s ≤ v.srcLen :=
  scanCount_le _ _ _

/-- Where another agent wrote no source byte, `K` is the valid prefix of what stands there. -/
theorem prefixLength_exact {v : Operands} {rc : Race} (h : rc.racedSource = []) (s : State) :
    prefixLength v rc s = (sourceSymbols v rc s).length := by
  rw [sourceSymbols_length, prefixLength]
  congr 1
  funext a
  simp [validAt, h]

theorem decodedCount_mono {k n : Nat} (h : k ≤ n) : decodedCount k ≤ decodedCount n := by
  unfold decodedCount
  repeat' split
  all_goals omega

/-- DECODE's write range is within DST_CAP and within what SRC_LEN valid symbols yield (20_memory.md R56). -/
theorem decodeWriteCount_le (v : Operands) (rc : Race) (s : State) :
    decodeWriteCount v rc s ≤ v.dstCap ∧ decodeWriteCount v rc s ≤ decodedCount (prefixLength v rc s) ∧
    decodeWriteCount v rc s ≤ decodedCount v.srcLen := by
  have := decodedCount_mono (prefixLength_le v rc s)
  unfold decodeWriteCount prefixCount
  omega

/-- An empty source decodes to nothing (41_decode.md R143), its length free after a race (R245). -/
theorem decodeLength_empty {v : Operands} (rc : Race) (h : v.srcLen = 0) (s : State) :
    decodeLength v rc s = if unpredictable v rc then freeDecodeLen v s else 0 := by
  simp [decodeLength, sourceSymbols, h, sourceBytes, validPrefix, decodedCount]

/-- What DECODE's body can yield. -/
theorem decodeResult_ok {v : Operands} {rc : Race} {s : State} {r : OpResult}
    (h : decodeResult v rc s = .ok r) :
    v.touchesDevice s.platform = false ∧
    ((r = .failed .invalidArgument ∧ decodeInvalid v = true) ∨
    (r = { code := .ok, len := if unpredictable v rc then freeDecodeLen v s else 0, bytes := [] } ∧
      decodeInvalid v = false ∧ v.srcLen = 0) ∨
    (decodeInvalid v = false ∧ v.srcLen ≠ 0 ∧
      (r = .failed .busError ∨
       (r = .failed .insufficientCapacity ∧ decodeTooSmall v rc s = true) ∨
       (decodeTooSmall v rc s = false ∧
        ((r.code = .busError ∧ r.len = 0 ∧
            r.bytes = freeBytes s.draws v.dstBase (decodeWriteCount v rc s)) ∨
         (r.code = .ok ∧ unpredictable v rc = true ∧ r.len = freeDecodeLen v s ∧
            r.bytes = freeBytes s.draws v.dstBase (decodeWriteCount v rc s)) ∨
         (r.code = .ok ∧ unpredictable v rc = false ∧
            r.len = decodedCount (sourceSymbols v rc s).length ∧
            r.bytes = decodeSymbols (sourceSymbols v rc s))))))) := by
  unfold decodeResult at h
  split at h
  · simp at h
  refine ⟨by simpa using ‹¬ v.touchesDevice s.platform = true›, ?_⟩
  split at h
  · exact .inl ⟨by simpa using h.symm, ‹_›⟩
  have hv : decodeInvalid v = false := by simpa using ‹¬ decodeInvalid v = true›
  split at h
  · exact .inr (.inl ⟨by rw [← decodeLength_empty _ ‹_›]; simpa using h.symm, hv, ‹_›⟩)
  refine .inr (.inr ⟨hv, ‹_›, ?_⟩)
  split at h
  · exact .inl (by simpa using h.symm)
  split at h
  · exact .inr (.inl ⟨by simpa using h.symm, ‹_›⟩)
  refine .inr (.inr ⟨by simpa using ‹¬ decodeTooSmall v rc s = true›, ?_⟩)
  split at h
  · obtain rfl := (Except.ok.inj h)
    exact .inl ⟨rfl, rfl, rfl⟩
  split at h
  · obtain rfl := (Except.ok.inj h)
    exact .inr (.inl ⟨rfl, ‹_›, if_pos ‹_›, rfl⟩)
  · obtain rfl := (Except.ok.inj h)
    exact .inr (.inr ⟨rfl, by simpa using ‹¬ unpredictable v rc = true›, if_neg ‹_›, rfl⟩)

/-- The body of an operation is refused where a view covers memory with side effects, and there only
(20_memory.md R59). -/
theorem opResult_error_iff (i : Instr) (v : Operands) (rc : Race) (s : State) (e : Refusal) :
    opResult i v rc s = .error e ↔
      e = .sideEffectMemory ∧ v.touchesDevice s.platform = true := by
  by_cases ht : v.touchesDevice s.platform = true
  · cases i <;> simp [opResult, encodeResult, decodeResult, ht, eq_comm]
  · refine ⟨fun h => ?_, fun h => absurd h.2 ht⟩
    cases i <;> simp only [opResult, encodeResult, decodeResult, if_neg ht] at h <;>
      (repeat' split at h) <;> cases h

end Sys2Proof.Machine
end

