-- ==== Sys2Proof/Laws/State.lean ====
section
/-! SUPPORT. What each update of the state leaves in each field, so that no proof unfolds a record update. -/

namespace Sys2Proof.Machine

@[simp] theorem accept_srcBase (i : Instr) (s : State) : (accept i s).srcBase = s.srcBase := rfl
@[simp] theorem accept_srcLen (i : Instr) (s : State) : (accept i s).srcLen = s.srcLen := rfl
@[simp] theorem accept_dstBase (i : Instr) (s : State) : (accept i s).dstBase = s.dstBase := rfl
@[simp] theorem accept_dstCap (i : Instr) (s : State) : (accept i s).dstCap = s.dstCap := rfl
@[simp] theorem accept_resultLen (i : Instr) (s : State) : (accept i s).resultLen = 0#32 := rfl
@[simp] theorem accept_status (i : Instr) (s : State) : (accept i s).status = s.status.accept := rfl
@[simp] theorem accept_irqEn (i : Instr) (s : State) : (accept i s).irqEn = s.irqEn := rfl
@[simp] theorem accept_phase (i : Instr) (s : State) : (accept i s).phase = .busy i := rfl
@[simp] theorem accept_mem (i : Instr) (s : State) : (accept i s).mem = s.mem := rfl
@[simp] theorem accept_platform (i : Instr) (s : State) : (accept i s).platform = s.platform := rfl
@[simp] theorem accept_inputs (i : Instr) (s : State) : (accept i s).inputs = s.inputs := rfl
@[simp] theorem accept_responses (i : Instr) (s : State) : (accept i s).responses = s.responses := rfl
@[simp] theorem accept_owned (i : Instr) (s : State) : (accept i s).owned = some { op := i, operands := s.operands, settled := none } := rfl
@[simp] theorem accept_unseen (i : Instr) (s : State) : (accept i s).unseen = s.retire := rfl
@[simp] theorem accept_race (i : Instr) (s : State) : (accept i s).race = Race.fresh s.sourceVisible s.draws := rfl
@[simp] theorem accept_clean (i : Instr) (s : State) : (accept i s).clean = s.clean := rfl
@[simp] theorem accept_stale (i : Instr) (s : State) : (accept i s).stale = s.stale := rfl
@[simp] theorem accept_draws (i : Instr) (s : State) : (accept i s).draws = s.draws := rfl

@[simp] theorem complete_srcBase (c : Completion) (n : Nat) (s : State) : (complete c n s).srcBase = s.srcBase := rfl
@[simp] theorem complete_srcLen (c : Completion) (n : Nat) (s : State) : (complete c n s).srcLen = s.srcLen := rfl
@[simp] theorem complete_dstBase (c : Completion) (n : Nat) (s : State) : (complete c n s).dstBase = s.dstBase := rfl
@[simp] theorem complete_dstCap (c : Completion) (n : Nat) (s : State) : (complete c n s).dstCap = s.dstCap := rfl
@[simp] theorem complete_resultLen (c : Completion) (n : Nat) (s : State) : (complete c n s).resultLen = BitVec.ofNat 32 n := rfl
@[simp] theorem complete_status (c : Completion) (n : Nat) (s : State) : (complete c n s).status = s.status.complete c := rfl
@[simp] theorem complete_irqEn (c : Completion) (n : Nat) (s : State) : (complete c n s).irqEn = s.irqEn := rfl
@[simp] theorem complete_phase (c : Completion) (n : Nat) (s : State) : (complete c n s).phase = .idle := rfl
@[simp] theorem complete_mem (c : Completion) (n : Nat) (s : State) : (complete c n s).mem = s.mem := rfl
@[simp] theorem complete_platform (c : Completion) (n : Nat) (s : State) : (complete c n s).platform = s.platform := rfl
@[simp] theorem complete_inputs (c : Completion) (n : Nat) (s : State) : (complete c n s).inputs = s.inputs := rfl
@[simp] theorem complete_responses (c : Completion) (n : Nat) (s : State) : (complete c n s).responses = s.responses := rfl
@[simp] theorem complete_owned (c : Completion) (n : Nat) (s : State) : (complete c n s).owned = s.owned := rfl
@[simp] theorem complete_unseen (c : Completion) (n : Nat) (s : State) : (complete c n s).unseen = s.unseen := rfl
@[simp] theorem complete_race (c : Completion) (n : Nat) (s : State) : (complete c n s).race = s.race := rfl
@[simp] theorem complete_clean (c : Completion) (n : Nat) (s : State) : (complete c n s).clean = s.clean := rfl
@[simp] theorem complete_stale (c : Completion) (n : Nat) (s : State) : (complete c n s).stale = s.stale := rfl
@[simp] theorem complete_draws (c : Completion) (n : Nat) (s : State) : (complete c n s).draws = s.draws := rfl

@[simp] theorem completeIllegal_srcBase (s : State) : (completeIllegal s).srcBase = s.srcBase := rfl
@[simp] theorem completeIllegal_srcLen (s : State) : (completeIllegal s).srcLen = s.srcLen := rfl
@[simp] theorem completeIllegal_dstBase (s : State) : (completeIllegal s).dstBase = s.dstBase := rfl
@[simp] theorem completeIllegal_dstCap (s : State) : (completeIllegal s).dstCap = s.dstCap := rfl
@[simp] theorem completeIllegal_resultLen (s : State) : (completeIllegal s).resultLen = 0#32 := rfl
@[simp] theorem completeIllegal_status (s : State) : (completeIllegal s).status = s.status.illegal := rfl
@[simp] theorem completeIllegal_irqEn (s : State) : (completeIllegal s).irqEn = s.irqEn := rfl
@[simp] theorem completeIllegal_phase (s : State) : (completeIllegal s).phase = s.phase := rfl
@[simp] theorem completeIllegal_mem (s : State) : (completeIllegal s).mem = s.mem := rfl
@[simp] theorem completeIllegal_platform (s : State) : (completeIllegal s).platform = s.platform := rfl
@[simp] theorem completeIllegal_inputs (s : State) : (completeIllegal s).inputs = s.inputs := rfl
@[simp] theorem completeIllegal_responses (s : State) : (completeIllegal s).responses = s.responses := rfl
@[simp] theorem completeIllegal_owned (s : State) : (completeIllegal s).owned = s.owned := rfl
@[simp] theorem completeIllegal_unseen (s : State) : (completeIllegal s).unseen = s.unseen := rfl
@[simp] theorem completeIllegal_race (s : State) : (completeIllegal s).race = s.race := rfl
@[simp] theorem completeIllegal_clean (s : State) : (completeIllegal s).clean = s.clean := rfl
@[simp] theorem completeIllegal_stale (s : State) : (completeIllegal s).stale = s.stale := rfl
@[simp] theorem completeIllegal_draws (s : State) : (completeIllegal s).draws = s.draws := rfl

@[simp] theorem ignoreWrite_srcBase (s : State) : (ignoreWrite s).srcBase = s.srcBase := rfl
@[simp] theorem ignoreWrite_srcLen (s : State) : (ignoreWrite s).srcLen = s.srcLen := rfl
@[simp] theorem ignoreWrite_dstBase (s : State) : (ignoreWrite s).dstBase = s.dstBase := rfl
@[simp] theorem ignoreWrite_dstCap (s : State) : (ignoreWrite s).dstCap = s.dstCap := rfl
@[simp] theorem ignoreWrite_resultLen (s : State) : (ignoreWrite s).resultLen = s.resultLen := rfl
@[simp] theorem ignoreWrite_status (s : State) : (ignoreWrite s).status = s.status.ignore := rfl
@[simp] theorem ignoreWrite_irqEn (s : State) : (ignoreWrite s).irqEn = s.irqEn := rfl
@[simp] theorem ignoreWrite_phase (s : State) : (ignoreWrite s).phase = s.phase := rfl
@[simp] theorem ignoreWrite_mem (s : State) : (ignoreWrite s).mem = s.mem := rfl
@[simp] theorem ignoreWrite_platform (s : State) : (ignoreWrite s).platform = s.platform := rfl
@[simp] theorem ignoreWrite_inputs (s : State) : (ignoreWrite s).inputs = s.inputs := rfl
@[simp] theorem ignoreWrite_responses (s : State) : (ignoreWrite s).responses = s.responses := rfl
@[simp] theorem ignoreWrite_owned (s : State) : (ignoreWrite s).owned = s.owned := rfl
@[simp] theorem ignoreWrite_unseen (s : State) : (ignoreWrite s).unseen = s.unseen := rfl
@[simp] theorem ignoreWrite_race (s : State) : (ignoreWrite s).race = s.race := rfl
@[simp] theorem ignoreWrite_clean (s : State) : (ignoreWrite s).clean = s.clean := rfl
@[simp] theorem ignoreWrite_stale (s : State) : (ignoreWrite s).stale = s.stale := rfl
@[simp] theorem ignoreWrite_draws (s : State) : (ignoreWrite s).draws = s.draws := rfl

@[simp] theorem resetBlock_srcBase (s : State) : (resetBlock s).srcBase = 0#32 := rfl
@[simp] theorem resetBlock_srcLen (s : State) : (resetBlock s).srcLen = 0#32 := rfl
@[simp] theorem resetBlock_dstBase (s : State) : (resetBlock s).dstBase = 0#32 := rfl
@[simp] theorem resetBlock_dstCap (s : State) : (resetBlock s).dstCap = 0#32 := rfl
@[simp] theorem resetBlock_resultLen (s : State) : (resetBlock s).resultLen = 0#32 := rfl
@[simp] theorem resetBlock_status (s : State) : (resetBlock s).status = Status.reset := rfl
@[simp] theorem resetBlock_irqEn (s : State) : (resetBlock s).irqEn = false := rfl
@[simp] theorem resetBlock_phase (s : State) : (resetBlock s).phase = .idle := rfl
@[simp] theorem resetBlock_mem (s : State) : (resetBlock s).mem = s.mem := rfl
@[simp] theorem resetBlock_platform (s : State) : (resetBlock s).platform = s.platform := rfl
@[simp] theorem resetBlock_inputs (s : State) : (resetBlock s).inputs = s.inputs := rfl
@[simp] theorem resetBlock_responses (s : State) : (resetBlock s).responses = s.responses := rfl
@[simp] theorem resetBlock_owned (s : State) : (resetBlock s).owned = none := rfl
@[simp] theorem resetBlock_unseen (s : State) : (resetBlock s).unseen = s.retire := rfl
@[simp] theorem resetBlock_race (s : State) : (resetBlock s).race = Race.none := rfl
@[simp] theorem resetBlock_clean (s : State) : (resetBlock s).clean = s.clean := rfl
@[simp] theorem resetBlock_stale (s : State) : (resetBlock s).stale = s.stale := rfl
@[simp] theorem resetBlock_draws (s : State) : (resetBlock s).draws = s.draws := rfl

@[simp] theorem cacheClean_srcBase (r : Range) (s : State) : (cacheClean r s).srcBase = s.srcBase := rfl
@[simp] theorem cacheClean_srcLen (r : Range) (s : State) : (cacheClean r s).srcLen = s.srcLen := rfl
@[simp] theorem cacheClean_dstBase (r : Range) (s : State) : (cacheClean r s).dstBase = s.dstBase := rfl
@[simp] theorem cacheClean_dstCap (r : Range) (s : State) : (cacheClean r s).dstCap = s.dstCap := rfl
@[simp] theorem cacheClean_resultLen (r : Range) (s : State) : (cacheClean r s).resultLen = s.resultLen := rfl
@[simp] theorem cacheClean_status (r : Range) (s : State) : (cacheClean r s).status = s.status := rfl
@[simp] theorem cacheClean_irqEn (r : Range) (s : State) : (cacheClean r s).irqEn = s.irqEn := rfl
@[simp] theorem cacheClean_phase (r : Range) (s : State) : (cacheClean r s).phase = s.phase := rfl
@[simp] theorem cacheClean_mem (r : Range) (s : State) : (cacheClean r s).mem = s.mem := rfl
@[simp] theorem cacheClean_platform (r : Range) (s : State) : (cacheClean r s).platform = s.platform := rfl
@[simp] theorem cacheClean_inputs (r : Range) (s : State) : (cacheClean r s).inputs = s.inputs := rfl
@[simp] theorem cacheClean_responses (r : Range) (s : State) : (cacheClean r s).responses = s.responses := rfl
@[simp] theorem cacheClean_owned (r : Range) (s : State) : (cacheClean r s).owned = s.owned := rfl
@[simp] theorem cacheClean_unseen (r : Range) (s : State) : (cacheClean r s).unseen = s.unseen := rfl
@[simp] theorem cacheClean_race (r : Range) (s : State) : (cacheClean r s).race = s.race := rfl
@[simp] theorem cacheClean_clean (r : Range) (s : State) : (cacheClean r s).clean = r :: s.clean := rfl
@[simp] theorem cacheClean_stale (r : Range) (s : State) : (cacheClean r s).stale = s.stale := rfl
@[simp] theorem cacheClean_draws (r : Range) (s : State) : (cacheClean r s).draws = s.draws := rfl

@[simp] theorem cacheInvalidate_srcBase (r : Range) (s : State) : (cacheInvalidate r s).srcBase = s.srcBase := rfl
@[simp] theorem cacheInvalidate_srcLen (r : Range) (s : State) : (cacheInvalidate r s).srcLen = s.srcLen := rfl
@[simp] theorem cacheInvalidate_dstBase (r : Range) (s : State) : (cacheInvalidate r s).dstBase = s.dstBase := rfl
@[simp] theorem cacheInvalidate_dstCap (r : Range) (s : State) : (cacheInvalidate r s).dstCap = s.dstCap := rfl
@[simp] theorem cacheInvalidate_resultLen (r : Range) (s : State) : (cacheInvalidate r s).resultLen = s.resultLen := rfl
@[simp] theorem cacheInvalidate_status (r : Range) (s : State) : (cacheInvalidate r s).status = s.status := rfl
@[simp] theorem cacheInvalidate_irqEn (r : Range) (s : State) : (cacheInvalidate r s).irqEn = s.irqEn := rfl
@[simp] theorem cacheInvalidate_phase (r : Range) (s : State) : (cacheInvalidate r s).phase = s.phase := rfl
@[simp] theorem cacheInvalidate_mem (r : Range) (s : State) : (cacheInvalidate r s).mem = s.mem := rfl
@[simp] theorem cacheInvalidate_platform (r : Range) (s : State) : (cacheInvalidate r s).platform = s.platform := rfl
@[simp] theorem cacheInvalidate_inputs (r : Range) (s : State) : (cacheInvalidate r s).inputs = s.inputs := rfl
@[simp] theorem cacheInvalidate_responses (r : Range) (s : State) : (cacheInvalidate r s).responses = s.responses := rfl
@[simp] theorem cacheInvalidate_owned (r : Range) (s : State) : (cacheInvalidate r s).owned = s.owned := rfl
@[simp] theorem cacheInvalidate_unseen (r : Range) (s : State) : (cacheInvalidate r s).unseen = s.unseen := rfl
@[simp] theorem cacheInvalidate_race (r : Range) (s : State) : (cacheInvalidate r s).race = s.race := rfl
@[simp] theorem cacheInvalidate_clean (r : Range) (s : State) : (cacheInvalidate r s).clean = s.clean := rfl
@[simp] theorem cacheInvalidate_stale (r : Range) (s : State) : (cacheInvalidate r s).stale = AddrSet.remove s.stale r := rfl
@[simp] theorem cacheInvalidate_draws (r : Range) (s : State) : (cacheInvalidate r s).draws = s.draws := rfl

@[simp] theorem Status.accept_busy (f : Status) : (f.accept).busy = true := rfl
@[simp] theorem Status.accept_done (f : Status) : (f.accept).done = false := rfl
@[simp] theorem Status.accept_ign (f : Status) : (f.accept).ign = f.ign := rfl
@[simp] theorem Status.accept_code (f : Status) : (f.accept).code = 0x0#4 := rfl

@[simp] theorem Status.complete_busy (c : Completion) (f : Status) : (f.complete c).busy = false := rfl
@[simp] theorem Status.complete_done (c : Completion) (f : Status) : (f.complete c).done = true := rfl
@[simp] theorem Status.complete_ign (c : Completion) (f : Status) : (f.complete c).ign = f.ign := rfl
@[simp] theorem Status.complete_code (c : Completion) (f : Status) : (f.complete c).code = completionCode c := rfl

@[simp] theorem Status.illegal_busy (f : Status) : (f.illegal).busy = f.busy := rfl
@[simp] theorem Status.illegal_done (f : Status) : (f.illegal).done = true := rfl
@[simp] theorem Status.illegal_ign (f : Status) : (f.illegal).ign = f.ign := rfl
@[simp] theorem Status.illegal_code (f : Status) : (f.illegal).code = completionCode .illegalCmd := rfl

@[simp] theorem Status.ignore_busy (f : Status) : (f.ignore).busy = f.busy := rfl
@[simp] theorem Status.ignore_done (f : Status) : (f.ignore).done = f.done := rfl
@[simp] theorem Status.ignore_ign (f : Status) : (f.ignore).ign = true := rfl
@[simp] theorem Status.ignore_code (f : Status) : (f.ignore).code = f.code := rfl

@[simp] theorem Status.write_busy (w : Word) (f : Status) : (f.write w).busy = f.busy := rfl
@[simp] theorem Status.write_done (w : Word) (f : Status) : (f.write w).done = (f.done && !w.getLsbD 1) := rfl
@[simp] theorem Status.write_ign (w : Word) (f : Status) : (f.write w).ign = (f.ign && !w.getLsbD 2) := rfl
@[simp] theorem Status.write_code (w : Word) (f : Status) : (f.write w).code = f.code := rfl

@[simp] theorem operands_srcBase (s : State) : s.operands.srcBase = s.srcBase.toNat := rfl
@[simp] theorem operands_srcLen (s : State) : s.operands.srcLen = s.srcLen.toNat := rfl
@[simp] theorem operands_dstBase (s : State) : s.operands.dstBase = s.dstBase.toNat := rfl
@[simp] theorem operands_dstCap (s : State) : s.operands.dstCap = s.dstCap.toNat := rfl

@[simp] theorem Race.fresh_raced (v : Bool) (d : Nat) : (Race.fresh v d).raced = false := rfl
@[simp] theorem Race.fresh_racedTail (v : Bool) (d : Nat) : (Race.fresh v d).racedTail = false := rfl
@[simp] theorem Race.fresh_racedSource (v : Bool) (d : Nat) :
    (Race.fresh v d).racedSource = [] := rfl
@[simp] theorem Race.fresh_sourceSeen (v : Bool) (d : Nat) : (Race.fresh v d).sourceSeen = v := rfl
@[simp] theorem Race.fresh_sourceDraw (v : Bool) (d : Nat) : (Race.fresh v d).sourceDraw = d := rfl

@[simp] theorem Race.note_raced (v : Operands) (a : Nat) (rc : Race) : (rc.note v a).raced = true := rfl
@[simp] theorem Race.note_racedTail (v : Operands) (a : Nat) (rc : Race) :
    (rc.note v a).racedTail = (rc.racedTail || v.inTail a) := rfl
@[simp] theorem Race.note_racedSource (v : Operands) (a : Nat) (rc : Race) :
    (rc.note v a).racedSource
      = if v.source.mem a then rc.racedSource.insert a else rc.racedSource := rfl
@[simp] theorem Race.note_sourceSeen (v : Operands) (a : Nat) (rc : Race) :
    (rc.note v a).sourceSeen = rc.sourceSeen := rfl
@[simp] theorem Race.note_sourceDraw (v : Operands) (a : Nat) (rc : Race) :
    (rc.note v a).sourceDraw = rc.sourceDraw := rfl

@[simp] theorem Ownership.settle_op (m : Memory) (r : OpResult) (o : Ownership) :
    (o.settle m r).op = o.op := rfl
@[simp] theorem Ownership.settle_operands (m : Memory) (r : OpResult) (o : Ownership) :
    (o.settle m r).operands = o.operands := rfl
@[simp] theorem Ownership.settle_settled (m : Memory) (r : OpResult) (o : Ownership) :
    (o.settle m r).settled = some
      { found := m, unwritten := m, code := r.code, range := r.range o.operands.dstBase } := rfl
@[simp] theorem Ownership.scatter_op (d : Nat) (xs : AddrSet) (o : Ownership) :
    (o.scatter d xs).op = o.op := rfl
@[simp] theorem Ownership.scatter_operands (d : Nat) (xs : AddrSet) (o : Ownership) :
    (o.scatter d xs).operands = o.operands := rfl
@[simp] theorem Ownership.scatter_settled (d : Nat) (xs : AddrSet) (o : Ownership) :
    (o.scatter d xs).settled = o.settled.map (fun m =>
      { m with found := m.found.scatter d xs, unwritten := m.unwritten.scatter d xs }) := rfl
@[simp] theorem Settled.record_found (m : Settled) (r : OpResult) (b : Nat) :
    (m.record r b).found = m.found := rfl
@[simp] theorem Settled.record_unwritten (m : Settled) (r : OpResult) (b : Nat) :
    (m.record r b).unwritten = m.unwritten := rfl
@[simp] theorem Settled.record_code (m : Settled) (r : OpResult) (b : Nat) :
    (m.record r b).code = r.code := rfl
@[simp] theorem Settled.record_range (m : Settled) (r : OpResult) (b : Nat) :
    (m.record r b).range = r.range b := rfl
@[simp] theorem OpResult.range_base (r : OpResult) (b : Nat) : (r.range b).base = b := rfl
@[simp] theorem OpResult.range_len (r : OpResult) (b : Nat) : (r.range b).len = r.bytes.length := rfl
@[simp] theorem Claim.without_operands (r : Range) (c : Claim) : (c.without r).operands = c.operands := rfl
@[simp] theorem Claim.without_written (r : Range) (c : Claim) :
    (c.without r).written = AddrSet.remove c.written r := rfl
@[simp] theorem Ownership.noteWrite_op (a : Nat) (b : Byte) (o : Ownership) :
    (o.noteWrite a b).op = o.op := rfl
@[simp] theorem Ownership.noteWrite_operands (a : Nat) (b : Byte) (o : Ownership) :
    (o.noteWrite a b).operands = o.operands := rfl
@[simp] theorem Ownership.noteWrite_settled (a : Nat) (b : Byte) (o : Ownership) :
    (o.noteWrite a b).settled
      = o.settled.map (fun m => { m with unwritten := m.unwritten.write a b }) := rfl

/-- A master's write that lands touches memory, `owned` and `clean` alone; the claims' bytes it makes free,
memory, `owned` and `draws`. -/
@[simp] theorem landWrite_srcBase (m : Master) (a : Nat) (b : Byte) (s : State) :
    (landWrite m a b s).srcBase = s.srcBase := rfl
@[simp] theorem landWrite_srcLen (m : Master) (a : Nat) (b : Byte) (s : State) :
    (landWrite m a b s).srcLen = s.srcLen := rfl
@[simp] theorem landWrite_dstBase (m : Master) (a : Nat) (b : Byte) (s : State) :
    (landWrite m a b s).dstBase = s.dstBase := rfl
@[simp] theorem landWrite_dstCap (m : Master) (a : Nat) (b : Byte) (s : State) :
    (landWrite m a b s).dstCap = s.dstCap := rfl
@[simp] theorem landWrite_resultLen (m : Master) (a : Nat) (b : Byte) (s : State) :
    (landWrite m a b s).resultLen = s.resultLen := rfl
@[simp] theorem landWrite_status (m : Master) (a : Nat) (b : Byte) (s : State) :
    (landWrite m a b s).status = s.status := rfl
@[simp] theorem landWrite_irqEn (m : Master) (a : Nat) (b : Byte) (s : State) :
    (landWrite m a b s).irqEn = s.irqEn := rfl
@[simp] theorem landWrite_phase (m : Master) (a : Nat) (b : Byte) (s : State) :
    (landWrite m a b s).phase = s.phase := rfl
@[simp] theorem landWrite_platform (m : Master) (a : Nat) (b : Byte) (s : State) :
    (landWrite m a b s).platform = s.platform := rfl
@[simp] theorem landWrite_inputs (m : Master) (a : Nat) (b : Byte) (s : State) :
    (landWrite m a b s).inputs = s.inputs := rfl
@[simp] theorem landWrite_responses (m : Master) (a : Nat) (b : Byte) (s : State) :
    (landWrite m a b s).responses = s.responses := rfl
@[simp] theorem landWrite_unseen (m : Master) (a : Nat) (b : Byte) (s : State) :
    (landWrite m a b s).unseen = s.unseen := rfl
@[simp] theorem landWrite_race (m : Master) (a : Nat) (b : Byte) (s : State) :
    (landWrite m a b s).race = s.race := rfl
@[simp] theorem landWrite_stale (m : Master) (a : Nat) (b : Byte) (s : State) :
    (landWrite m a b s).stale = s.stale := rfl
@[simp] theorem landWrite_draws (m : Master) (a : Nat) (b : Byte) (s : State) :
    (landWrite m a b s).draws = s.draws := rfl
@[simp] theorem landWrite_mem (m : Master) (a : Nat) (b : Byte) (s : State) :
    (landWrite m a b s).mem = s.mem.write a b := rfl
@[simp] theorem landWrite_owned (m : Master) (a : Nat) (b : Byte) (s : State) :
    (landWrite m a b s).owned = s.owned.map (Ownership.noteWrite a b) := rfl
@[simp] theorem scatterClaims_srcBase (xs : AddrSet) (s : State) :
    (scatterClaims xs s).srcBase = s.srcBase := rfl
@[simp] theorem scatterClaims_srcLen (xs : AddrSet) (s : State) :
    (scatterClaims xs s).srcLen = s.srcLen := rfl
@[simp] theorem scatterClaims_dstBase (xs : AddrSet) (s : State) :
    (scatterClaims xs s).dstBase = s.dstBase := rfl
@[simp] theorem scatterClaims_dstCap (xs : AddrSet) (s : State) :
    (scatterClaims xs s).dstCap = s.dstCap := rfl
@[simp] theorem scatterClaims_resultLen (xs : AddrSet) (s : State) :
    (scatterClaims xs s).resultLen = s.resultLen := rfl
@[simp] theorem scatterClaims_status (xs : AddrSet) (s : State) :
    (scatterClaims xs s).status = s.status := rfl
@[simp] theorem scatterClaims_irqEn (xs : AddrSet) (s : State) :
    (scatterClaims xs s).irqEn = s.irqEn := rfl
@[simp] theorem scatterClaims_phase (xs : AddrSet) (s : State) :
    (scatterClaims xs s).phase = s.phase := rfl
@[simp] theorem scatterClaims_platform (xs : AddrSet) (s : State) :
    (scatterClaims xs s).platform = s.platform := rfl
@[simp] theorem scatterClaims_inputs (xs : AddrSet) (s : State) :
    (scatterClaims xs s).inputs = s.inputs := rfl
@[simp] theorem scatterClaims_responses (xs : AddrSet) (s : State) :
    (scatterClaims xs s).responses = s.responses := rfl
@[simp] theorem scatterClaims_unseen (xs : AddrSet) (s : State) :
    (scatterClaims xs s).unseen = s.unseen := rfl
@[simp] theorem scatterClaims_race (xs : AddrSet) (s : State) :
    (scatterClaims xs s).race = s.race := rfl
@[simp] theorem scatterClaims_stale (xs : AddrSet) (s : State) :
    (scatterClaims xs s).stale = s.stale := rfl
@[simp] theorem scatterClaims_clean (xs : AddrSet) (s : State) :
    (scatterClaims xs s).clean = s.clean := rfl
@[simp] theorem scatterClaims_mem (xs : AddrSet) (s : State) :
    (scatterClaims xs s).mem = s.mem.scatter s.draws xs := rfl
@[simp] theorem scatterClaims_owned (xs : AddrSet) (s : State) :
    (scatterClaims xs s).owned = s.owned.map (Ownership.scatter s.draws xs) := rfl
@[simp] theorem scatterClaims_draws (xs : AddrSet) (s : State) :
    (scatterClaims xs s).draws = s.draws + xs.length := rfl

/-- An observation of DONE touches `owned` and `unseen` alone. -/
@[simp] theorem observeDone_srcBase (s : State) : (observeDone s).srcBase = s.srcBase := by
  unfold observeDone; split <;> rfl
@[simp] theorem observeDone_srcLen (s : State) : (observeDone s).srcLen = s.srcLen := by
  unfold observeDone; split <;> rfl
@[simp] theorem observeDone_dstBase (s : State) : (observeDone s).dstBase = s.dstBase := by
  unfold observeDone; split <;> rfl
@[simp] theorem observeDone_dstCap (s : State) : (observeDone s).dstCap = s.dstCap := by
  unfold observeDone; split <;> rfl
@[simp] theorem observeDone_resultLen (s : State) : (observeDone s).resultLen = s.resultLen := by
  unfold observeDone; split <;> rfl
@[simp] theorem observeDone_status (s : State) : (observeDone s).status = s.status := by
  unfold observeDone; split <;> rfl
@[simp] theorem observeDone_irqEn (s : State) : (observeDone s).irqEn = s.irqEn := by
  unfold observeDone; split <;> rfl
@[simp] theorem observeDone_phase (s : State) : (observeDone s).phase = s.phase := by
  unfold observeDone; split <;> rfl
@[simp] theorem observeDone_mem (s : State) : (observeDone s).mem = s.mem := by
  unfold observeDone; split <;> rfl
@[simp] theorem observeDone_platform (s : State) : (observeDone s).platform = s.platform := by
  unfold observeDone; split <;> rfl
@[simp] theorem observeDone_inputs (s : State) : (observeDone s).inputs = s.inputs := by
  unfold observeDone; split <;> rfl
@[simp] theorem observeDone_responses (s : State) : (observeDone s).responses = s.responses := by
  unfold observeDone; split <;> rfl
@[simp] theorem observeDone_race (s : State) : (observeDone s).race = s.race := by
  unfold observeDone; split <;> rfl
@[simp] theorem observeDone_clean (s : State) : (observeDone s).clean = s.clean := by
  unfold observeDone; split <;> rfl
@[simp] theorem observeDone_stale (s : State) : (observeDone s).stale = s.stale := by
  unfold observeDone; split <;> rfl
@[simp] theorem observeDone_draws (s : State) : (observeDone s).draws = s.draws := by
  unfold observeDone; split <;> rfl

@[simp] theorem observeDone_owned (s : State) :
    (observeDone s).owned = if s.status.doneIsOwn then none else s.owned := by
  unfold observeDone; split <;> rfl

@[simp] theorem observeDone_unseen (s : State) :
    (observeDone s).unseen = if s.status.doneIsOwn then s.release else s.unseen := by
  unfold observeDone; split <;> rfl

end Sys2Proof.Machine
end

