-- ==== Sys2Proof/Laws/Ops.lean ====
section
/-! SUPPORT. What the shared operations and a step can do, said once. -/

namespace Sys2Proof.Machine

theorem step_nil {s : State} (h : s.inputs = []) : step s = engineTurn s := by
  simp [step, advance, h]

theorem step_cons {s : State} {x : Input} {rest : List Input} (h : s.inputs = x :: rest) :
    step s = receive x { s with inputs := rest } := by
  simp [step, advance, h]

theorem engineTurn_idle {s : State} (h : s.phase = .idle) : engineTurn s = .next s := by
  simp [engineTurn, h]

theorem engineTurn_busy {s : State} {i : Instr} (h : s.phase = .busy i) :
    engineTurn s = exec i s := by
  simp [engineTurn, h]

/-- An instruction's meaning is its body's result, completed. -/
theorem exec_eq (i : Instr) (s : State) : exec i s = finish (opResult i s.operands s.race s) s := by
  cases i <;> rfl

theorem ofOffset_offset (r : Reg) : Reg.ofOffset r.offset = some r := by cases r <;> decide

theorem ofOffset_none {n : Nat} (h : n % 4 ≠ 0 ∨ 0x20 ≤ n) : Reg.ofOffset n = none := by
  simp [Reg.ofOffset, Reg.offset]
  omega

/-- The views cover no address with side effects (20_memory.md R59). -/
theorem touchesDevice_iff (s : State) :
    s.operands.touchesDevice s.platform = false ↔ PlainMemory s := by
  rw [← Bool.not_eq_true]
  simp only [Operands.touchesDevice, Bool.or_eq_true, AddrSet.meets_iff, Range.mem_iff, PlainMemory,
    Operands.source, Operands.destination, InSource, InDestination, operands_srcBase,
    operands_srcLen, operands_dstBase, operands_dstCap]
  constructor
  · intro h a ha
    rw [← Bool.not_eq_true]
    exact fun hm => h (ha.imp (fun x => ⟨a, hm, x⟩) (fun x => ⟨a, hm, x⟩))
  · rintro h (⟨a, hm, ha⟩ | ⟨a, hm, ha⟩)
    · exact absurd hm (by simp [h a (.inl ha)])
    · exact absurd hm (by simp [h a (.inr ha)])

/-- An aligned 32-bit access at a register's offset reaches that register (10_state.md R21, R35). -/
theorem hostAccess_reg (r : Reg) (act : Reg → State → State) (s : State) :
    hostAccess (s.platform.b64Base + r.offset) 4 act s = .next (act r s) := by
  have hm : Range.meets { base := s.platform.b64Base + r.offset, len := 4 }
      (Platform.window s.platform) = true := by
    rw [Range.meets_iff]
    refine ⟨s.platform.b64Base + r.offset, ?_, ?_⟩ <;>
      simp only [Range.mem_iff, Platform.window, Config.windowSize] <;>
      cases r <;> simp [Reg.offset]
  have ha : accessedReg s.platform (s.platform.b64Base + r.offset) 4 = some r := by
    simp [accessedReg, ofOffset_offset]
  simp [hostAccess, hm, ha]

/-- What a host bus access can do: act on one register, or nothing, or be refused. -/
theorem hostAccess_cases (addr size : Nat) (act : Reg → State → State) (s : State) :
    (∃ r, hostAccess addr size act s = .next (act r s)) ∨ hostAccess addr size act s = .next s ∨
      hostAccess addr size act s = .refused .unpredictableRegisterAccess := by
  unfold hostAccess
  split
  · split
    · exact .inl ⟨_, rfl⟩
    · exact .inr (.inr rfl)
  · exact .inr (.inl rfl)

/-- What a late race can do: draw the outcome again over the memory the completion step found. -/
theorem redoRaced_next {o : Ownership} {m : Settled} {s t : State} (h : redoRaced o m s = .next t) :
    ∃ r, opResult o.op o.operands s.race { s with mem := m.found } = .ok r ∧
      let changed := { s with
        mem := m.unwritten.writeBytes o.operands.dstBase r.bytes, draws := s.draws + 1,
        owned := some { o with settled := some (m.record r o.operands.dstBase) } }
      ((s.status.code = completionCode .illegalCmd ∧ t = changed) ∨
       (s.status.code ≠ completionCode .illegalCmd ∧ t = { changed with
          status := { s.status with code := completionCode r.code },
          resultLen := BitVec.ofNat 32 r.len })) := by
  unfold redoRaced at h
  split at h
  · simp at h
  rename_i r hr
  refine ⟨r, hr, ?_⟩
  simp only [Host.Outcome.next.injEq] at h
  split at h
  · exact .inl ⟨‹_›, h.symm⟩
  · exact .inr ⟨‹_›, h.symm⟩

/-- The outcome drawn again, where the body's result is known and CODE is the operation's. -/
theorem redoRaced_ok {o : Ownership} {m : Settled} {s : State} {r : OpResult}
    (h : opResult o.op o.operands s.race { s with mem := m.found } = .ok r)
    (hc : s.status.code ≠ completionCode .illegalCmd) :
    redoRaced o m s = .next { s with
      mem := m.unwritten.writeBytes o.operands.dstBase r.bytes, draws := s.draws + 1,
      owned := some { o with settled := some (m.record r o.operands.dstBase) },
      status := { s.status with code := completionCode r.code }, resultLen := BitVec.ofNat 32 r.len } := by
  simp only [redoRaced, h, if_neg hc]

/-- A write into the buffers of a completed operation, or one that disturbs what it found. -/
theorem agentWrite_settled {mr : Master} {a : Nat} {b : Byte} {s : State} {o : Ownership} {m : Settled}
    (hd : AddrSet.mem s.platform.sideEffects a = false) (ha : memAdmit s.platform a = true)
    (ho : s.owned = some o) (hm : o.settled = some m)
    (hv : o.operands.inViews a = true ∨ disturbedBytes a s.unseen ≠ []) :
    agentWrite mr a b s =
      let lost := disturbedBytes a s.unseen
      redoRaced ((o.noteWrite a b).scatter s.draws lost)
        { m with
          found := m.found.scatter s.draws lost,
          unwritten := (m.unwritten.write a b).scatter s.draws lost }
        { scatterClaims lost (landWrite mr a b s) with
          race := if o.operands.inViews a then s.race.note o.operands a else s.race } := by
  unfold agentWrite
  generalize disturbedBytes a s.unseen = lost at hv ⊢
  simp only []
  generalize hn : (o.noteWrite a b).scatter s.draws lost = o'
  have hw : (scatterClaims lost (landWrite mr a b s)).owned = some o' := by simp [ho, hn]
  have hop : o'.operands = o.operands := by rw [← hn]; rfl
  have hs : o'.settled = some { m with
      found := m.found.scatter s.draws lost,
      unwritten := (m.unwritten.write a b).scatter s.draws lost } := by rw [← hn]; simp [hm]
  rw [if_neg (by simp [hd]), if_neg (by simp [ha]), hw]
  simp only []
  rw [if_pos (by simpa [hop] using hv)]
  simp only [raceWith, hs, hop, hw, scatterClaims_race, landWrite_race]

/-! ### Claims of operations the host never saw complete -/

theorem disturbed_sub (a : Nat) (cs : List Claim) : ∀ c ∈ disturbed a cs, c ∈ cs := by
  induction cs with
  | nil => simp [disturbed]
  | cons c cs ih =>
    unfold disturbed
    simp only []
    split
    · intro d hd
      rcases List.mem_cons.mp hd with rfl | hd
      · exact List.mem_cons_self
      · exact List.mem_cons_of_mem _ (ih d hd)
    · exact fun d hd => List.mem_cons_of_mem _ (ih d hd)

/-- A write outside every claim's views disturbs none. -/
theorem disturbed_nil {a : Nat} {cs : List Claim} (h : ∀ c ∈ cs, c.operands.inViews a = false) :
    disturbed a cs = [] := by
  induction cs with
  | nil => rfl
  | cons c cs ih =>
    have := ih (fun d hd => h d (List.mem_cons_of_mem _ hd))
    simp [disturbed, this, h c List.mem_cons_self]

/-- A disturbed byte is one that some claim's operation wrote. -/
theorem disturbedBytes_sub {a x : Nat} {cs : List Claim} (h : AddrSet.mem (disturbedBytes a cs) x = true) :
    ∃ c ∈ cs, AddrSet.mem c.written x = true := by
  simp only [disturbedBytes, AddrSet.mem_iff, List.mem_flatMap] at h ⊢
  obtain ⟨r, ⟨c, hc, hr⟩, hx⟩ := h
  exact ⟨c, disturbed_sub a cs c hc, r, hr, hx⟩

/-- What seeing an operation complete leaves of a claim: its operands, and no byte more. -/
theorem observed_sub {o : Ownership} {cs : List Claim} {c : Claim} (h : c ∈ o.observed cs) :
    ∃ d ∈ cs, c.operands = d.operands ∧
      ∀ x, AddrSet.mem c.written x = true → AddrSet.mem d.written x = true := by
  unfold Ownership.observed at h
  split at h
  · exact ⟨c, h, rfl, fun _ hx => hx⟩
  · obtain ⟨d, hd, rfl⟩ := List.mem_map.mp h
    exact ⟨d, hd, rfl, fun x hx => ((AddrSet.mem_remove _ _ _).mp hx).1⟩

/-- No claim is lost by it. -/
theorem observed_keeps (o : Ownership) {cs : List Claim} {c : Claim} (h : c ∈ cs) :
    ∃ d ∈ o.observed cs, d.operands = c.operands := by
  unfold Ownership.observed
  split
  · exact ⟨c, h, rfl⟩
  · exact ⟨_, List.mem_map_of_mem h, rfl⟩

/-- What a claim is after the newest operation lost its DONE: an earlier one, or that operation's. -/
theorem retire_cases {s : State} {c : Claim} (h : c ∈ s.retire) :
    (∃ d ∈ s.unseen, c.operands = d.operands ∧
      ∀ x, AddrSet.mem c.written x = true → AddrSet.mem d.written x = true) ∨
    ∃ o m, s.owned = some o ∧ o.settled = some m ∧ c = { operands := o.operands, written := [m.range] } := by
  unfold State.retire Ownership.retired at h
  split at h
  · exact .inl ⟨c, h, rfl, fun _ hx => hx⟩
  · rename_i o ho
    split at h
    · exact .inl ⟨c, h, rfl, fun _ hx => hx⟩
    · rename_i m hm
      rcases List.mem_cons.mp h with rfl | h
      · exact .inr ⟨o, m, ho, hm, rfl⟩
      · exact .inl (observed_sub h)

theorem retire_keeps (s : State) {c : Claim} (h : c ∈ s.unseen) :
    ∃ d ∈ s.retire, d.operands = c.operands := by
  unfold State.retire Ownership.retired
  split
  · exact ⟨c, h, rfl⟩
  · split
    · exact ⟨c, h, rfl⟩
    · obtain ⟨d, hd, he⟩ := observed_keeps ‹Ownership› h
      exact ⟨d, List.mem_cons_of_mem _ hd, he⟩

/-- A completed operation that lost its DONE has its claim. -/
theorem retire_newest {s : State} {o : Ownership} {m : Settled} (ho : s.owned = some o)
    (hm : o.settled = some m) : { operands := o.operands, written := [m.range] } ∈ s.retire := by
  simp [State.retire, Ownership.retired, ho, hm]

theorem release_sub {s : State} {c : Claim} (h : c ∈ s.release) :
    ∃ d ∈ s.unseen, c.operands = d.operands ∧
      ∀ x, AddrSet.mem c.written x = true → AddrSet.mem d.written x = true := by
  unfold State.release at h
  split at h
  · exact ⟨c, h, rfl, fun _ hx => hx⟩
  · exact observed_sub h

theorem release_keeps (s : State) {c : Claim} (h : c ∈ s.unseen) :
    ∃ d ∈ s.release, d.operands = c.operands := by
  unfold State.release
  split
  · exact ⟨c, h, rfl⟩
  · exact observed_keeps _ h

/-- What a master's write of system memory can do (20_memory.md R50; 70_reset_and_hazards.md R245): be
refused; land, what it disturbs made free; the same and a race marked with an operation in progress; or the
same and the outcome of a completed one drawn again. -/
theorem agentWrite_next {m : Master} {a : Nat} {b : Byte} {s t : State} (h : agentWrite m a b s = .next t) :
    (memAdmit s.platform a = false ∧ t = { s with responses := .memRefused a :: s.responses }) ∨
    (memAdmit s.platform a = true ∧
      let lost := disturbedBytes a s.unseen
      let written := scatterClaims lost (landWrite m a b s)
      (t = written ∧ ∀ o, s.owned = some o → o.operands.inViews a = false ∧ lost = []) ∨
      ∃ o, s.owned = some o ∧
        let rc := if o.operands.inViews a then s.race.note o.operands a else s.race
        ((o.settled = none ∧ t = { written with race := rc }) ∨
         ∃ x, o.settled = some x ∧
          redoRaced ((o.noteWrite a b).scatter s.draws lost)
            { x with
              found := x.found.scatter s.draws lost,
              unwritten := (x.unwritten.write a b).scatter s.draws lost }
            { written with race := rc } = .next t)) := by
  unfold agentWrite at h
  split at h
  · simp at h
  split at h
  · exact .inl ⟨by simpa using ‹(!memAdmit s.platform a) = true›, by simpa using h.symm⟩
  refine .inr ⟨by simpa using ‹¬ (!memAdmit s.platform a) = true›, ?_⟩
  simp only [] at h
  generalize hl : disturbedBytes a s.unseen = lost at h ⊢
  have hw : (scatterClaims lost (landWrite m a b s)).owned
      = s.owned.map (fun o => (o.noteWrite a b).scatter s.draws lost) := by simp [Function.comp_def]
  cases ho : s.owned with
  | none =>
    rw [ho, Option.map_none] at hw
    simp only [hw] at h
    exact .inl ⟨by simpa using h.symm, by simp⟩
  | some o =>
    rw [ho, Option.map_some] at hw
    generalize hn : (o.noteWrite a b).scatter s.draws lost = o' at hw
    have hop : o'.operands = o.operands := by rw [← hn]; rfl
    simp only [hw] at h
    split at h
    · refine .inr ⟨o, rfl, ?_⟩
      simp only [hn]
      simp only [raceWith, hop, scatterClaims_race, landWrite_race] at h
      cases hm : o.settled with
      | none =>
        have hs : o'.settled = none := by rw [← hn]; simp [hm]
        simp only [hs, Host.Outcome.next.injEq] at h
        exact .inl ⟨rfl, h.symm⟩
      | some x =>
        have hs : o'.settled = some { x with
            found := x.found.scatter s.draws lost,
            unwritten := (x.unwritten.write a b).scatter s.draws lost } := by rw [← hn]; simp [hm]
        simp only [hs] at h
        exact .inr ⟨x, rfl, h⟩
    · rename_i hv
      refine .inl ⟨by simpa using h.symm, fun o₁ ho₁ => ?_⟩
      obtain rfl := Option.some.inj ho₁
      simpa [hop] using hv

/-- What an agent's read of system memory can do: an answer, and nothing of the block. -/
theorem agentRead_next {m : Master} {a : Nat} {s t : State} (h : agentRead m a s = .next t) :
    ∃ r d, t = { s with responses := r :: s.responses, draws := d } := by
  unfold agentRead at h
  split at h
  · simp at h
  split at h
  · exact ⟨_, s.draws, by simpa using h.symm⟩
  split at h
  · exact ⟨_, _, by simpa using h.symm⟩
  · exact ⟨_, s.draws, by simpa using h.symm⟩

/-- What reset can do (70_reset_and_hazards.md R240 to R242). -/
theorem platformReset_next {s t : State} (h : platformReset s = .next t) :
    (s.phase = .idle ∧ t = resetBlock s) ∨
    ∃ i r, s.phase = .busy i ∧ opResult i s.operands s.race s = .ok r ∧
      t = resetBlock { s with
        mem := s.mem.writeBytes s.operands.dstBase
          (freeBytes s.draws s.operands.dstBase r.bytes.length),
        stale := s.markStale s.operands.destination,
        draws := s.draws + 1 } := by
  unfold platformReset at h
  split at h
  · exact .inl ⟨‹_›, by simpa using h.symm⟩
  · rename_i i hi
    split at h
    · simp at h
    · rename_i r hr
      exact .inr ⟨i, r, hi, hr, by simpa using h.symm⟩

/-- A host write to a register leaves memory, the platform and what others were told. -/
theorem writeReg_frame (r : Reg) (w : Word) (s : State) :
    (writeReg r w s).mem = s.mem ∧ (writeReg r w s).platform = s.platform ∧
    (writeReg r w s).inputs = s.inputs ∧ (writeReg r w s).responses = s.responses ∧
    (writeReg r w s).clean = s.clean ∧ (writeReg r w s).stale = s.stale ∧
    (writeReg r w s).draws = s.draws ∧ (writeReg r w s).resultLen = if r = .cmd ∧
      s.status.busy = false then 0#32 else s.resultLen := by
  cases r <;> simp only [writeReg, issue] <;> (repeat' split) <;> simp_all [ignoreWrite, accept, completeIllegal]

/-- A host read of a register leaves everything of the block but the claims on its buffers. -/
theorem hostReadReg_frame (r : Reg) (s : State) :
    hostReadReg r s = { s with
      responses := .reg r (readReg r s) :: s.responses,
      owned := if r = .status ∧ s.status.doneIsOwn = true then none else s.owned,
      unseen := if r = .status ∧ s.status.doneIsOwn = true then s.release else s.unseen } := by
  cases r <;> simp [hostReadReg, observeDone]
  split <;> simp_all [State.release]

/-- An observation of IRQ likewise. -/
theorem sampleIrq_frame (s : State) :
    sampleIrq s = { s with
      responses := .irq s.irq :: s.responses,
      owned := if s.irq = true ∧ s.status.doneIsOwn = true then none else s.owned,
      unseen := if s.irq = true ∧ s.status.doneIsOwn = true then s.release else s.unseen } := by
  unfold sampleIrq observeDone
  simp only []
  repeat' split
  all_goals simp_all [State.release]

end Sys2Proof.Machine
end

