-- ==== Sys2Proof/Laws/PerInstr.lean ====
section
/-! SUPPORT. Facts of every instruction as syntax, one lemma per constructor (LAWS.json). -/

namespace Sys2Proof.Laws

/-- The word the encoder writes has legal fields and the reserved field 0 (30_encoding.md R70, R72), and
the instruction is well formed. -/
def LegalWord.Statement (i : Instr) : Prop :=
  i.wellFormed = true ∧ (CmdWord.ofWord (encode i)).wellFormed = true
    ∧ (CmdWord.ofWord (encode i)).rsvd = 0#28

theorem LegalWord.encode : LegalWord.Statement .encode := by
  unfold LegalWord.Statement; decide

theorem LegalWord.decode : LegalWord.Statement .decode := by
  unfold LegalWord.Statement; decide

end Sys2Proof.Laws
end

