-- ==== Sys2Proof/Tests/Slice0.lean ====
section
/-! SUPPORT. Tests on fixed values, their expected results from the spec's vectors (95_test_vectors.md)
or written out from its rules, and a witness for the hypotheses of every statement. -/

namespace Sys2Proof.Tests

open Sys2Proof Sys2Proof.Machine

/-! ## Words (30_encoding.md R70 to R72) -/

/-- RSVD, 28 zeros, then OP = 0001. -/
theorem test_decode_word_encode :
    decode 0b0000000000000000000000000000_0001#32 = .ok .encode := by decide

/-- RSVD, 28 zeros, then OP = 0010. -/
theorem test_decode_word_decode :
    decode 0b0000000000000000000000000000_0010#32 = .ok .decode := by decide

/-- OP = 0001 with the lowest reserved bit set. -/
theorem test_decode_word_reserved :
    decode 0b0000000000000000000000000001_0001#32 = .error .reservedBitsSet := by decide

/-- OP = 0000 and OP = 1111 are unassigned. -/
theorem test_decode_word_unassigned :
    decode 0#32 = .error .unassignedOp ∧
    decode 0b0000000000000000000000000000_1111#32 = .error .unassignedOp := by decide

theorem test_encode_words : encode .encode = 0x00000001#32 ∧ encode .decode = 0x00000002#32 := by
  decide

theorem test_decodeTableWord :
    decodeTableWord 32 1 = some .encode ∧ decodeTableWord 32 2 = some .decode ∧
    decodeTableWord 32 3 = none ∧ decodeTableWord 32 0x80000001 = none := by decide

/-- Ill formed: an unassigned selector. -/
theorem test_smoke_op_refused :
    CmdWord.opAssigned { rsvd := 0#28, op := 0x3#4 } = false ∧
    CmdWord.wellFormed { rsvd := 0#28, op := 0x3#4 } = false := by decide

/-- Ill formed: a reserved bit set. -/
theorem test_smoke_reserved_refused :
    CmdWord.reservedClear { rsvd := 1#28, op := 0x1#4 } = false ∧
    CmdWord.wellFormed { rsvd := 1#28, op := 0x1#4 } = false := by decide

/-! ## States -/

/-- Source bytes at 0x1000, the destination at 0x2000, nothing refused (95_test_vectors.md). -/
def ready (src : List Byte) (cap : Word) : State :=
  { State.reset with
    srcBase := 0x1000#32, srcLen := BitVec.ofNat 32 src.length, dstBase := 0x2000#32, dstCap := cap,
    mem := Memory.writeBytes [] 0x1000 src }

/-- The state with these addresses refused. -/
def refusing (r : AddrSet) (s : State) : State :=
  { s with platform := { s.platform with refused := r } }

/-- The state with side effects at these addresses. -/
def withDevice (r : AddrSet) (s : State) : State :=
  { s with platform := { s.platform with device := r } }

/-- The state with these inputs still to come. -/
def receiving (xs : List Input) (s : State) : State := { s with inputs := xs }

/-- A host write of `w` to a register of the reset platform. -/
def writing (r : Reg) (w : Word) : Input := .busWrite (0x100000000 + r.offset) 4 w

/-- A host read of a register of the reset platform. -/
def reading (r : Reg) : Input := .busRead (0x100000000 + r.offset) 4

/-- An outcome's code, RESULT_LEN and first destination bytes. -/
def ending (o : Host.Outcome State Fault Refusal) (n : Nat) : Option (BitVec 4 × Nat × List Byte) :=
  match o with
  | .next t => some (t.status.code, t.resultLen.toNat, t.mem.readBytes t.dstBase.toNat n)
  | _ => none

/-- "foo". -/
def foo : List Byte := [0x66#8, 0x6F#8, 0x6F#8]

/-- "Zm9v". -/
def fooText : List Byte := [0x5A#8, 0x6D#8, 0x39#8, 0x76#8]

/-- "Zm8=". -/
def foText : List Byte := [0x5A#8, 0x6D#8, 0x38#8, 0x3D#8]

/-- "Zg==". -/
def fText : List Byte := [0x5A#8, 0x67#8, 0x3D#8, 0x3D#8]

/-! ## One step of each instruction -/

/-- 95_test_vectors.md S2. -/
theorem test_encode_foo :
    ending (exec .encode (ready foo 5#32)) 5
      = some (0x0#4, 4, [0x5A#8, 0x6D#8, 0x39#8, 0x76#8, 0x00#8]) := by decide

/-- 95_test_vectors.md E10: the two last symbols of the alphabet and one pad. -/
theorem test_encode_plus_slash :
    ending (exec .encode (ready [0xFB#8, 0xFF#8] 5#32)) 5
      = some (0x0#4, 4, [0x2B#8, 0x2F#8, 0x38#8, 0x3D#8, 0x00#8]) := by decide

/-- 95_test_vectors.md S6. -/
theorem test_decode_f :
    ending (exec .decode (ready fText 1#32)) 1 = some (0x0#4, 1, [0x66#8]) := by decide

/-- 41_decode.md R130: "AB=C" needs two bytes, and a capacity of one is too small. -/
theorem test_decode_independent_pads :
    ending (exec .decode (ready [0x41#8, 0x42#8, 0x3D#8, 0x43#8] 1#32)) 1
      = some (0x2#4, 0, [0x00#8]) := by decide

/-- 40_encode.md R112 and 60_exceptions.md R210: the placed word of ENCODE runs as the first instruction
after reset, on an empty source. -/
theorem test_placed_word_runs :
    ending (step (State.reset.withFetchWord 32 1)) 0 = some (0x0#4, 0, []) ∧
    ending (step (State.reset.withFetchWord 32 3)) 0 = some (0x3#4, 0, []) := by decide

/-! ## What the witnesses rest on -/

theorem plain_of {s : State} (h : s.operands.touchesDevice s.platform = false) : PlainMemory s :=
  (touchesDevice_iff s).mp h

theorem admits_of {s : State} (h : s.platform.refused = []) (a : Nat) : Admits s a := by
  unfold Admits memAdmit; rw [h]; rfl

theorem disjoint_of {s : State}
    (h : s.srcBase.toNat + s.srcLen.toNat ≤ s.dstBase.toNat) : DisjointViews s := by
  unfold DisjointViews InSource InDestination; intro a; omega

/-- A state without side effects in its views, its source below its destination and no race is quiet. -/
theorem quiet_of {s : State} (hd : s.operands.touchesDevice s.platform = false)
    (h : s.srcBase.toNat + s.srcLen.toNat ≤ s.dstBase.toNat) (hr : Undisturbed s) : Quiet s :=
  ⟨plain_of hd, disjoint_of h, hr⟩

theorem quiet_ready (src : List Byte) (cap : Word)
    (hd : (ready src cap).operands.touchesDevice (ready src cap).platform = false)
    (h : src.length ≤ 16) : Quiet (ready src cap) := by
  refine quiet_of hd ?_ ⟨rfl, rfl, rfl, rfl⟩
  simp [ready]
  omega

/-- The witnesses of `EncodeRuns`: a source of 1 to 3 bytes, at the smallest capacity. -/
theorem runs_encode :
    EncodeRuns (ready foo 5#32) ∧ EncodeRuns (ready [0x66#8, 0x6F#8] 5#32) ∧
    EncodeRuns (ready [0x66#8] 5#32) := by
  refine ⟨⟨?_, ?_, ?_, quiet_ready _ _ ?_ ?_, ?_, fun a _ => admits_of rfl a⟩,
    ⟨?_, ?_, ?_, quiet_ready _ _ ?_ ?_, ?_, fun a _ => admits_of rfl a⟩,
    ⟨?_, ?_, ?_, quiet_ready _ _ ?_ ?_, ?_, fun a _ => admits_of rfl a⟩⟩
  all_goals first | decide | (unfold ViewsValid ViewValid; decide)

theorem prefix_of {s : State} {k : Nat} (hk : k ≤ s.srcLen.toNat)
    (hv : ((List.range k).all fun i => (unmap8 (s.mem.read (s.srcBase.toNat + i))).2) = true)
    (hs : k < s.srcLen.toNat → (unmap8 (s.mem.read (s.srcBase.toNat + k))).2 = false) :
    IsValidPrefix s k :=
  ⟨hk, fun i hi => by simpa using List.all_eq_true.mp hv i (List.mem_range.mpr hi), hs⟩

/-- The witnesses of `DecodePasses` and `DecodeRuns`: valid prefixes of 4, 3, 2, 1 and 0 symbols, the
first three at the smallest capacity. -/
theorem runs_decode :
    DecodeRuns (ready fooText 3#32) 4 ∧ DecodeRuns (ready foText 2#32) 3 ∧
    DecodeRuns (ready fText 1#32) 2 ∧ DecodeRuns (ready [0x41#8, 0x3D#8, 0x41#8, 0x41#8] 3#32) 1 ∧
    DecodeRuns (ready [0x3D#8, 0x41#8, 0x41#8, 0x41#8] 3#32) 0 := by
  refine ⟨⟨⟨?_, ?_, ?_, ?_, quiet_ready _ _ ?_ ?_, ?_, prefix_of ?_ ?_ ?_⟩, fun a _ => admits_of rfl a⟩,
    ⟨⟨?_, ?_, ?_, ?_, quiet_ready _ _ ?_ ?_, ?_, prefix_of ?_ ?_ ?_⟩, fun a _ => admits_of rfl a⟩,
    ⟨⟨?_, ?_, ?_, ?_, quiet_ready _ _ ?_ ?_, ?_, prefix_of ?_ ?_ ?_⟩, fun a _ => admits_of rfl a⟩,
    ⟨⟨?_, ?_, ?_, ?_, quiet_ready _ _ ?_ ?_, ?_, prefix_of ?_ ?_ ?_⟩, fun a _ => admits_of rfl a⟩,
    ⟨⟨?_, ?_, ?_, ?_, quiet_ready _ _ ?_ ?_, ?_, prefix_of ?_ ?_ ?_⟩, fun a _ => admits_of rfl a⟩⟩
  all_goals first | decide | (unfold ViewsValid ViewValid; decide)

/-- An accepted operation in progress, with these inputs to come. -/
def running (i : Instr) (s : State) (xs : List Input) : State := receiving xs (accept i s)

/-- ENCODE of "foo" in progress. -/
def encoding (xs : List Input) : State := running .encode (ready foo 5#32) xs

/-- DECODE of "Zm9v" in progress. -/
def decoding (xs : List Input) : State := running .decode (ready fooText 3#32) xs

/-- A command accepted over a canonical memory leaves the invariant. -/
theorem inv_accepted (i : Instr) (s : State) (xs : List Input) (hw : s.mem.wf = true)
    (hb : s.mem.bounded = true) (hr : s.retire = []) : MachineInv (running i s xs) where
  memWf := hw
  memBounded := hb
  busyPhase := by simp [running, receiving]
  busyNotDone := fun _ => rfl
  busyNoResult := fun _ => ⟨rfl, rfl⟩
  codeLegal := by simp [running, receiving]
  errorNoLength := fun _ => rfl
  operandsHeld := by
    intro j hj
    obtain rfl : i = j := Phase.busy.inj hj
    rfl
  heldOrSettled := by
    intro o ho _
    obtain rfl := Option.some.inj ho
    rfl
  settledApart := by
    intro o m ho hm
    obtain rfl := Option.some.inj ho
    cases hm
  writtenInside := by
    refine ⟨fun o m _ ho hm => ?_, fun c hc => ?_⟩
    · obtain rfl := Option.some.inj ho
      cases hm
    · rw [show (running i s xs).unseen = s.retire from rfl, hr] at hc
      cases hc

theorem inv_running (i : Instr) (xs : List Input) :
    MachineInv (running i (ready foo 5#32) xs) ∧ MachineInv (running i (ready fooText 3#32) xs) :=
  ⟨inv_accepted i _ xs (by decide) (by decide) rfl, inv_accepted i _ xs (by decide) (by decide) rfl⟩

/-- ENCODE of "foo" completed and another command accepted and seen complete since, DONE of the first never
observed: its five bytes stand in memory under its claim. -/
def unseenEncode (xs : List Input) : State :=
  { receiving xs (ready foo 5#32) with
    unseen := [{ operands := (ready foo 5#32).operands, written := [{ base := 0x2000, len := 5 }] }] }

theorem inv_unseenEncode (xs : List Input) : MachineInv (unseenEncode xs) where
  memWf := rfl
  memBounded := rfl
  busyPhase := by simp [unseenEncode, receiving, ready, State.reset, Status.reset]
  busyNotDone := fun h => nomatch h
  busyNoResult := fun h => nomatch h
  codeLegal := Nat.zero_le _
  errorNoLength := fun _ => rfl
  operandsHeld := fun _ h => nomatch h
  heldOrSettled := fun _ h => nomatch h
  settledApart := fun _ _ h => nomatch h
  writtenInside := by
    refine ⟨fun _ _ _ h => (nomatch h), fun c hc a ha => ?_⟩
    obtain rfl := List.mem_singleton.mp hc
    have ha : Range.mem { base := 0x2000, len := 5 } a = true := by
      simpa [AddrSet.mem] using ha
    have := (Range.mem_iff _ _).mp ha
    exact ⟨ha, by simp only at this; omega⟩

/-- ENCODE of "foo" completed, DONE not observed, and the flags as given. -/
def encoded (f : Status) (xs : List Input) : State :=
  { receiving xs (ready foo 5#32) with
    status := f,
    owned := some
      { op := .encode, operands := (ready foo 5#32).operands,
        settled := some
          { found := [], unwritten := [], code := .ok, range := { base := 0x2000, len := 5 } } } }

/-- 20_memory.md R63 (b) and R67: on a platform that is not coherent another bus master reads what the engine
wrote, here the byte 0x5A, without the host's invalidate. -/
theorem test_other_master_sees_engine_writes :
    (match step { ready foo 5#32 with
        platform := { Config.platform with coherent := false },
        stale := [{ base := 0x2000, len := 5 }], mem := [(0x2000, 0x5A#8)],
        inputs := [.memRead .other 0x2000#32] } with
      | .next t => t.responses
      | _ => []) = [.mem 0x2000 0x5A#8] := by decide

/-- 70_reset_and_hazards.md R245, `its DONE = 1`: a DONE that an illegal command set gives no buffer back, and
the operation's own does. -/
theorem test_illegal_done_keeps_buffers :
    (match step (encoded { Status.reset with done := true, code := 0x3#4 } [reading .status]) with
      | .next t => t.owned.isSome
      | _ => false) = true ∧
    (match step (encoded { Status.reset with done := true } [reading .status]) with
      | .next t => t.owned.isSome
      | _ => true) = false := by decide

/-! ## A witness for every statement with hypotheses -/

theorem witness_DecodeEncodeAgree :
    Instr.encode.wellFormed = true ∧ Instr.decode.wellFormed = true ∧
    decode 1#32 = .ok .encode ∧ decode 2#32 = .ok .decode := by decide

theorem witness_StepRunsDecodedInstruction :
    ((encoding []).phase = .busy .encode ∧ (encoding []).inputs = []) ∧
    ((decoding [.engine]).phase = .busy .decode ∧ (decoding [.engine]).inputs = [.engine]) ∧
    (Writes (receiving [writing .cmd 2#32, .engine] (ready fooText 3#32)) .cmd 2#32 [.engine] ∧
      (ready fooText 3#32).status.busy = false ∧ decode 2#32 = .ok .decode) ∧
    (State.reset.phase = .idle ∧ State.reset.inputs = []) ∧
    (receiving [.engine] State.reset).phase = .idle := by unfold Writes; decide

theorem witness_PlacedCommandRuns :
    decode 0#32 = .error .unassignedOp ∧ decode 0x11#32 = .error .reservedBitsSet := by decide

theorem witness_AcceptanceEffect :
    Writes (receiving [writing .cmd 1#32] (ready foo 5#32)) .cmd 0x00000001#32 [] ∧
    Writes (receiving [writing .cmd 2#32] (ready foo 5#32)) .cmd 0x00000002#32 [] ∧
    (ready foo 5#32).status.busy = false := by unfold Writes; decide

theorem witness_IllegalCommandCompletes :
    (Writes (receiving [writing .cmd 3#32] State.reset) .cmd 3#32 [] ∧
      State.reset.status.busy = false ∧ 3#32 ≠ 0x00000001#32 ∧ 3#32 ≠ 0x00000002#32) ∧
    (Writes (encoding [writing .cmd 0#32]) .cmd 0#32 [] ∧ (encoding []).status.busy = true ∧
      0#32 ≠ 0x00000001#32 ∧ 0#32 ≠ 0x00000002#32) := by unfold Writes; decide

theorem witness_WritesWhileBusyIgnored :
    (encoding []).status.busy = true ∧
    Writes (encoding [writing .cmd 2#32]) .cmd 2#32 [] ∧
    Writes (encoding [writing .cfg 1#32]) .cfg 1#32 [] ∧
    Writes (encoding [writing .dstCap 0#32]) .dstCap 0#32 [] ∧
    Writes (encoding [writing .resultLen 7#32]) .resultLen 7#32 [] ∧
    Writes (encoding [writing .status 6#32]) .status 6#32 [] := by unfold Writes; decide

theorem witness_StatusRegister :
    Reads (receiving [reading .status] State.reset) .status [] ∧
    Writes (receiving [writing .status 6#32] State.reset) .status 6#32 [] := by
  unfold Reads Writes; decide

theorem witness_OperandRegistersReadBack :
    Writes (receiving [writing .srcLen 0xFFFFFFFF#32, reading .srcLen] State.reset) .srcLen
      0xFFFFFFFF#32 (.busRead (State.reset.platform.b64Base + Reg.srcLen.offset) 4 :: []) ∧
    Reg.srcLen ∈ [Reg.srcBase, .srcLen, .dstBase, .dstCap] ∧
    State.reset.status.busy = false := by unfold Writes; decide

theorem witness_ResultLenIsReadOnly :
    Writes (receiving [writing .resultLen 9#32] State.reset) .resultLen 9#32 [] := by
  unfold Writes; decide

theorem witness_CfgRegister :
    Writes (receiving [writing .cfg 0xFFFFFFFF#32] State.reset) .cfg 0xFFFFFFFF#32 [] ∧
    State.reset.status.busy = false ∧ Reads (receiving [reading .cfg] State.reset) .cfg [] := by
  unfold Reads Writes; decide

theorem witness_RegisterReads :
    Reads (receiving [reading .cmd] State.reset) .cmd [] ∧
    Reads (receiving [reading .resultLen] (ready foo 5#32)) .resultLen [] ∧
    Reads (encoding [reading .srcBase]) .srcBase [] := by unfold Reads; decide

theorem witness_RegisterAccessNeverFails :
    (receiving [.busWrite (State.reset.platform.b64Base + 0x1C) 4 1#32] State.reset).inputs
      = [.busWrite (State.reset.platform.b64Base + 0x1C) 4 1#32] ∧
    (receiving [.busRead (State.reset.platform.b64Base + 0) 4] State.reset).inputs
      = [.busRead (State.reset.platform.b64Base + 0) 4] ∧
    0x1C % 4 = 0 ∧ 0x1C < 0x20 ∧ 0 % 4 = 0 ∧ 0 < 0x20 := by decide

theorem witness_MisshapenAccessRefused :
    (receiving [.busWrite (State.reset.platform.b64Base + 0x1F) 1 0#32] State.reset).inputs
      = [.busWrite (State.reset.platform.b64Base + 0x1F) 1 0#32] ∧
    (receiving [.busRead (State.reset.platform.b64Base + 2) 4] State.reset).inputs
      = [.busRead (State.reset.platform.b64Base + 2) 4] ∧
    (0x1F < 0x20 ∧ 0 < 1 ∧ (1 ≠ 4 ∨ 0x1F % 4 ≠ 0)) ∧ (2 < 0x20 ∧ 0 < 4 ∧ (4 ≠ 4 ∨ 2 % 4 ≠ 0)) := by
  decide

theorem witness_SampledIrqLevel :
    (receiving [.sampleIrq] State.reset).inputs = [.sampleIrq] := by decide

theorem witness_IrqRisesWithCompletion :
    (∃ t, exec .encode (ready foo 5#32) = .next t) ∧ (∃ t, exec .decode (ready fooText 3#32) = .next t) ∧
    Writes (receiving [writing .cmd 0#32] State.reset) .cmd 0#32 [] ∧
    State.reset.status.busy = false ∧ decode 0#32 = .error .unassignedOp :=
  ⟨⟨_, rfl⟩, ⟨_, rfl⟩, rfl, rfl, by decide⟩

theorem witness_IrqFallsWhenCleared :
    (Writes (receiving [writing .status 2#32] State.reset) .status 2#32 [] ∧
      (2#32).getLsbD 1 = true) ∧
    (Writes (receiving [writing .cfg 0#32] State.reset) .cfg 0#32 [] ∧
      State.reset.status.busy = false ∧ (0#32).getLsbD 0 = false) ∧
    (Writes (receiving [writing .cmd 1#32] State.reset) .cmd 1#32 [] ∧
      decode 1#32 = .ok .encode) := by unfold Writes; decide

/-- Each of the four cases: a null source of one byte, a destination one byte past the top of memory, a
null destination of capacity 0, and capacity 0. -/
theorem witness_EncodeInvalidArgument :
    (PlainMemory { ready [0x66#8] 5#32 with srcBase := 0#32 } ∧
      ¬ ViewValid (0#32).toNat (ready [0x66#8] 5#32).srcLen.toNat) ∧
    (PlainMemory { ready foo 2#32 with dstBase := 0xFFFFFFFF#32 } ∧
      ¬ ViewValid (0xFFFFFFFF#32).toNat (ready foo 2#32).dstCap.toNat) ∧
    (PlainMemory { ready foo 0#32 with dstBase := 0#32 } ∧ (ready foo 0#32).srcLen.toNat > 0 ∧
      { ready foo 0#32 with dstBase := 0#32 }.dstBase = 0#32) ∧
    (PlainMemory (ready foo 0#32) ∧ (ready foo 0#32).srcLen.toNat > 0 ∧
      (ready foo 0#32).dstCap = 0#32) :=
  ⟨⟨plain_of (by decide), by unfold ViewValid; decide⟩, ⟨plain_of (by decide), by unfold ViewValid; decide⟩,
    ⟨plain_of (by decide), by decide⟩, plain_of (by decide), by decide⟩

/-- A view that ends at the top of memory is valid. -/
theorem test_view_at_the_top : ViewValid (0xFFFFFFFF#32).toNat (1#32).toNat ∧
    ViewValid (0#32).toNat (0#32).toNat := by unfold ViewValid; decide

/-- One byte short. -/
theorem witness_EncodeInsufficientCapacity :
    PlainMemory (ready foo 4#32) ∧ ViewsValid (ready foo 4#32) ∧
    ¬ ((ready foo 4#32).srcLen.toNat > 0 ∧
      ((ready foo 4#32).dstBase = 0#32 ∨ (ready foo 4#32).dstCap = 0#32)) ∧
    (ready foo 4#32).dstCap.toNat < (if (ready foo 4#32).srcLen.toNat = 0 then 0
      else ((ready foo 4#32).srcLen.toNat + 2) / 3 * 4 + 1) :=
  ⟨plain_of (by decide), by unfold ViewsValid ViewValid; decide⟩

theorem witness_EncodeEmptySource :
    (PlainMemory (ready [] 0#32) ∧ ViewsValid (ready [] 0#32) ∧ (ready [] 0#32).srcLen.toNat = 0) ∧
    (PlainMemory State.reset ∧ ViewsValid State.reset ∧ State.reset.srcLen.toNat = 0) :=
  ⟨⟨plain_of (by decide), by unfold ViewsValid ViewValid; decide⟩,
    plain_of (by decide), by unfold ViewsValid ViewValid; decide⟩

theorem witness_EncodeCompletesOk : EncodeRuns (ready foo 5#32) := runs_encode.1

theorem witness_EncodeFullGroups :
    EncodeRuns (ready foo 5#32) ∧ 0 < (ready foo 5#32).srcLen.toNat / 3 := ⟨runs_encode.1, by decide⟩

theorem witness_EncodePartialGroup :
    (EncodeRuns (ready [0x66#8, 0x6F#8] 5#32) ∧
      (ready [0x66#8, 0x6F#8] 5#32).srcLen.toNat % 3 = 2) ∧
    (EncodeRuns (ready [0x66#8] 5#32) ∧ (ready [0x66#8] 5#32).srcLen.toNat % 3 = 1) :=
  ⟨⟨runs_encode.2.1, by decide⟩, runs_encode.2.2, by decide⟩

theorem witness_EncodeTextLaws :
    EncodeRuns (ready foo 5#32) ∧ EncodeRuns (ready [0x66#8, 0x6F#8] 5#32) ∧
    EncodeRuns (ready [0x66#8] 5#32) ∧
    ((ready [] 0#32).srcLen.toNat = 0 ∧ ∃ t, exec .encode (ready [] 0#32) = .next t) :=
  ⟨runs_encode.1, runs_encode.2.1, runs_encode.2.2, by decide, ⟨_, rfl⟩⟩

/-- The last source byte refused, and the terminator's address refused. -/
theorem witness_EncodeBusError :
    ∀ x, x = 0x1002 ∨ x = 0x2004 →
      let s := refusing [{ base := x, len := 1 }] (ready foo 5#32)
      ViewsValid s ∧ 0 < s.srcLen.toNat ∧ (s.srcLen.toNat + 2) / 3 * 4 + 1 ≤ s.dstCap.toNat ∧
      PlainMemory s ∧ ∃ a, (InSource s a ∨ (s.dstBase.toNat ≤ a ∧
        a ≤ s.dstBase.toNat + (s.srcLen.toNat + 2) / 3 * 4)) ∧ ¬ Admits s a := by
  rintro x (rfl | rfl) <;>
    refine ⟨by unfold ViewsValid ViewValid; decide, by decide, by decide, plain_of (by decide), ?_⟩
  · exact ⟨0x1002, .inl (by unfold InSource; decide), by unfold Admits; decide⟩
  · exact ⟨0x2004, .inr (by decide), by unfold Admits; decide⟩

/-- The destination starts at the last source byte. -/
def overlapping (src : List Byte) (cap : Word) : State := { ready src cap with dstBase := 0x1002#32 }

theorem witness_EncodeOverlap :
    let s := overlapping foo 5#32
    ViewsValid s ∧ 0 < s.srcLen.toNat ∧ (s.srcLen.toNat + 2) / 3 * 4 + 1 ≤ s.dstCap.toNat ∧
    PlainMemory s ∧ (∀ a, InSource s a ∨ InDestination s a → Admits s a) ∧
    ∃ a, InSource s a ∧ InDestination s a :=
  ⟨by unfold ViewsValid ViewValid; decide, by decide, by decide, plain_of (by decide),
    fun a _ => admits_of rfl a, 0x1002, by unfold InSource InDestination; decide⟩

/-- A null source, a destination past the top of memory, and a length that is no multiple of 4. -/
theorem witness_DecodeInvalidArgument :
    (PlainMemory { ready fooText 3#32 with srcBase := 0#32 } ∧
      ¬ ViewValid (0#32).toNat (ready fooText 3#32).srcLen.toNat) ∧
    (PlainMemory { ready fooText 2#32 with dstBase := 0xFFFFFFFF#32 } ∧
      ¬ ViewValid (0xFFFFFFFF#32).toNat (ready fooText 2#32).dstCap.toNat) ∧
    (PlainMemory (ready foo 3#32) ∧ (ready foo 3#32).srcLen.toNat % 4 ≠ 0) :=
  ⟨⟨plain_of (by decide), by unfold ViewValid; decide⟩, ⟨plain_of (by decide), by unfold ViewValid; decide⟩,
    plain_of (by decide), by decide⟩

/-- One byte short, and capacity 0. -/
theorem witness_DecodeInsufficientCapacity :
    ∀ cap : Word, cap = 2#32 ∨ cap = 0#32 →
      let s := ready fooText cap
      ViewsValid s ∧ s.srcLen.toNat % 4 = 0 ∧ PlainMemory s ∧ Undisturbed s ∧
      (∀ a, a + 1 = s.srcBase.toNat + s.srcLen.toNat ∨ a + 2 = s.srcBase.toNat + s.srcLen.toNat →
        Admits s a) ∧ s.dstCap.toNat < RequiredDecoded s := by
  rintro cap (rfl | rfl) <;>
    exact ⟨by unfold ViewsValid ViewValid; decide, by decide, plain_of (by decide), ⟨rfl, rfl, rfl, rfl⟩,
      fun a _ => admits_of rfl a, by decide⟩

/-- At capacity 0, undisturbed; and at capacity 8 after a write of the destination. -/
theorem witness_DecodeEmptySource :
    (PlainMemory (ready [] 0#32) ∧ ViewsValid (ready [] 0#32) ∧ (ready [] 0#32).srcLen.toNat = 0 ∧
      Undisturbed (ready [] 0#32)) ∧
    let s := { ready [] 8#32 with race := Race.none.note (ready [] 8#32).operands 0x2000 }
    PlainMemory s ∧ ViewsValid s ∧ s.srcLen.toNat = 0 ∧ ¬ Undisturbed s :=
  ⟨⟨plain_of (by decide), by unfold ViewsValid ViewValid; decide, by decide, rfl, rfl, rfl, rfl⟩,
    plain_of (by decide), by unfold ViewsValid ViewValid; decide, by decide, fun h => absurd h.1 (by decide)⟩

theorem witness_DecodeCompletesOk :
    DecodeRuns (ready fooText 3#32) 4 ∧ DecodeRuns (ready [0x3D#8, 0x41#8, 0x41#8, 0x41#8] 3#32) 0 :=
  ⟨runs_decode.1, runs_decode.2.2.2.2⟩

theorem witness_DecodeFullGroups : DecodeRuns (ready fooText 3#32) 4 ∧ 0 < 4 / 4 :=
  ⟨runs_decode.1, by decide⟩

theorem witness_DecodeRemainder :
    (DecodeRuns (ready fText 1#32) 2 ∧ 2 % 4 = 2) ∧ (DecodeRuns (ready foText 2#32) 3 ∧ 3 % 4 = 3) :=
  ⟨⟨runs_decode.2.2.1, by decide⟩, runs_decode.2.1, by decide⟩

theorem witness_DecodedWithinRequired :
    ∃ t, Quiet (ready fooText 3#32) ∧ exec .decode (ready fooText 3#32) = .next t ∧
      t.status.code = 0x0#4 :=
  ⟨_, quiet_ready _ _ (by decide) (by decide), rfl, by decide⟩

/-- Each of the last two source bytes refused. -/
theorem witness_DecodeLengthReadBusError :
    ∀ x, x = 0x1003 ∨ x = 0x1002 →
      let s := refusing [{ base := x, len := 1 }] (ready fooText 3#32)
      ViewsValid s ∧ s.srcLen.toNat % 4 = 0 ∧ 0 < s.srcLen.toNat ∧ PlainMemory s ∧
      ∃ a, (a + 1 = s.srcBase.toNat + s.srcLen.toNat ∨ a + 2 = s.srcBase.toNat + s.srcLen.toNat) ∧
        ¬ Admits s a := by
  rintro x (rfl | rfl) <;>
    refine ⟨by unfold ViewsValid ViewValid; decide, by decide, by decide, plain_of (by decide), ?_⟩
  · exact ⟨0x1003, .inl (by decide), by unfold Admits; decide⟩
  · exact ⟨0x1002, .inr (by decide), by unfold Admits; decide⟩

/-- "*AAA", whose second byte the platform refuses. -/
def refusedPastPrefix : State :=
  refusing [{ base := 0x1001, len := 1 }] (ready [0x2A#8, 0x41#8, 0x41#8, 0x41#8] 3#32)

/-- 41_decode.md R141: DECODE does not look at a byte after the first invalid one but the last two. -/
theorem test_decode_refused_past_prefix :
    ending (exec .decode refusedPastPrefix) 1 = some (0x0#4, 0, [0x00#8]) := by decide

/-- The first source byte refused, and the last byte written refused; and a refused byte that is none DECODE
reads or writes. -/
theorem witness_DecodeBodyBusError :
    (∀ x, x = 0x1000 ∨ x = 0x2002 →
      let s := refusing [{ base := x, len := 1 }] (ready fooText 3#32)
      DecodePasses s 4 ∧ ∃ a, DecodeTouches s 4 a ∧ ¬ Admits s a) ∧
    DecodePasses refusedPastPrefix 0 ∧ (∀ a, DecodeTouches refusedPastPrefix 0 a → Admits refusedPastPrefix a) ∧
    ¬ Admits refusedPastPrefix 0x1001 := by
  refine ⟨?_, ⟨by unfold ViewsValid ViewValid; decide, by decide, by decide, by decide,
    quiet_of (by decide) (by decide) ⟨rfl, rfl, rfl, rfl⟩, by decide,
    prefix_of (by decide) (by decide) (by decide)⟩, fun a ha => ?_, by unfold Admits; decide⟩
  swap
  · have ha : (0x1000 ≤ a ∧ a < 0x1000 + 1) ∨ a + 1 = 0x1000 + 4 ∨ a + 2 = 0x1000 + 4 ∨
      (0x2000 ≤ a ∧ a < 0x2000 + 0) := ha
    obtain rfl | rfl | rfl : a = 0x1000 ∨ a = 0x1003 ∨ a = 0x1002 := by omega
    all_goals unfold Admits; decide
  rintro x (rfl | rfl)
  · refine ⟨⟨by unfold ViewsValid ViewValid; decide, by decide, by decide, by decide,
      quiet_of (by decide) (by decide) ⟨rfl, rfl, rfl, rfl⟩, by decide, prefix_of (by decide) (by decide) (by decide)⟩,
      0x1000, .inl (by decide), by unfold Admits; decide⟩
  · refine ⟨⟨by unfold ViewsValid ViewValid; decide, by decide, by decide, by decide,
      quiet_of (by decide) (by decide) ⟨rfl, rfl, rfl, rfl⟩, by decide, prefix_of (by decide) (by decide) (by decide)⟩,
      0x2002, .inr (.inr (.inr (by decide))), by unfold Admits; decide⟩

theorem witness_DecodeOverlap :
    let s := overlapping fooText 3#32
    ViewsValid s ∧ s.srcLen.toNat % 4 = 0 ∧ PlainMemory s ∧ Undisturbed s ∧ IsValidPrefix s 4 ∧
    RequiredDecoded s ≤ s.dstCap.toNat ∧ (∀ a, InSource s a ∨ InDestination s a → Admits s a) ∧
    ∃ a, InSource s a ∧ InDestination s a :=
  ⟨by unfold ViewsValid ViewValid; decide, by decide, plain_of (by decide), ⟨rfl, rfl, rfl, rfl⟩,
    prefix_of (by decide) (by decide) (by decide), by decide, fun a _ => admits_of rfl a,
    0x1003, by unfold InSource InDestination; decide⟩

/-- The text of "foo" decoded into three bytes at 0x3000; and the text with its terminator. -/
theorem witness_RoundTrip :
    ∃ t, Quiet (ready foo 5#32) ∧ Memory.wf (ready foo 5#32).mem = true ∧
      exec .encode (ready foo 5#32) = .next t ∧ t.status.code = 0x0#4 ∧
      let u := { t with
        srcBase := (ready foo 5#32).dstBase, srcLen := t.resultLen,
        dstBase := 0x3000#32, dstCap := 3#32 }
      ViewValid (0x3000#32).toNat (3#32).toNat ∧ (ready foo 5#32).srcLen.toNat ≤ (3#32).toNat ∧
      Quiet u ∧ (∀ a, InSource u a ∨ InDestination u a → Admits u a) ∧
      PlainMemory { u with srcLen := t.resultLen + 1#32 } :=
  ⟨_, quiet_ready _ _ (by decide) (by decide), by decide, rfl, by decide, by unfold ViewValid; decide, by decide,
    quiet_of (by decide) (by decide) ⟨rfl, rfl, rfl, rfl⟩, fun a _ => admits_of rfl a,
    plain_of (by decide)⟩

/-- The first and last byte of each run of the alphabet. -/
theorem witness_AlphabetInverse :
    [0x41#8, 0x5A#8, 0x61#8, 0x7A#8, 0x30#8, 0x39#8, 0x2B#8, 0x2F#8].all
      (fun c => (unmap8 c).2) = true := by decide

theorem witness_FailureWritesNothing :
    (∃ t, exec .encode (ready foo 0#32) = .next t ∧ t.status.code = 0x1#4) ∧
    (∃ t, exec .encode (ready foo 4#32) = .next t ∧ t.status.code = 0x2#4) ∧
    (∃ t, exec .decode (ready foo 3#32) = .next t ∧ t.status.code = 0x1#4) ∧
    (∃ t, exec .decode (ready fooText 2#32) = .next t ∧ t.status.code = 0x2#4) :=
  ⟨⟨_, rfl, by decide⟩, ⟨_, rfl, by decide⟩, ⟨_, rfl, by decide⟩, ⟨_, rfl, by decide⟩⟩

theorem witness_WritesStayInDestination :
    (∃ t, exec .encode (ready foo 5#32) = .next t ∧ t.status.code = 0x0#4 ∧
      t.mem.read 0x2000 ≠ (ready foo 5#32).mem.read 0x2000) ∧
    ¬ InDestination (ready foo 5#32) 0x2005 ∧ ¬ InDestination (ready foo 5#32) 0x1FFF :=
  ⟨⟨_, rfl, by decide, by decide⟩, by unfold InDestination; decide, by unfold InDestination; decide⟩

theorem witness_EveryOperationCompletes : PlainMemory State.reset := plain_of (by decide)

/-- The last source byte, and the last byte of the destination, with side effects, whatever the checks
would say (the second DECODE's length is no multiple of 4); and a view that ends with the first byte of the
block's own register window. -/
theorem witness_SideEffectMemoryRefused :
    (∃ s, s = withDevice [{ base := 0x1002, len := 1 }] (ready foo 5#32) ∧ ¬ PlainMemory s ∧
      ∃ r, exec .encode s = .refused r) ∧
    (∃ s, s = withDevice [{ base := 0x2002, len := 1 }] (ready foo 3#32) ∧ ¬ PlainMemory s ∧
      ∃ r, exec .decode s = .refused r) ∧
    ∃ s, s = { ready foo 5#32 with
        platform := { Config.platform with b64Base := 0x40000000 }, dstBase := 0x3FFFFFFC#32 } ∧
      (s.platform.b64Base ≤ 0x40000000 ∧ 0x40000000 < s.platform.b64Base + 0x20) ∧
      0x40000000 < 2 ^ 32 ∧
      InDestination s 0x40000000 := by
  refine ⟨⟨_, rfl, fun h => ?_, _, rfl⟩, ⟨_, rfl, fun h => ?_, _, rfl⟩, _, rfl, by decide,
    by decide, by unfold InDestination; decide⟩
  · exact absurd (h 0x1002 (.inl (by unfold InSource; decide))) (by decide)
  · exact absurd (h 0x2002 (.inr (by unfold InDestination; decide))) (by decide)

/-- Two states that differ in memory outside the source, and in their flags; and two that differ in a source
byte after the one that ends the prefix. -/
theorem witness_ResultDependsOnSourceOnly :
    (let s := ready fooText 3#32
    let s' := { ready fooText 3#32 with
      mem := (ready fooText 3#32).mem.write 0x2000 0xAA#8, irqEn := true }
    Quiet s ∧ Quiet s' ∧ s.operands = s'.operands ∧ s.platform = s'.platform ∧
    (∀ a, InSource s a → s.mem.read a = s'.mem.read a) ∧
    (∃ t, exec .decode s = .next t) ∧ (∃ t', exec .decode s' = .next t')) ∧
    let s := ready [0x2A#8, 0x41#8, 0x41#8, 0x41#8] 3#32
    let s' := ready [0x2A#8, 0xFF#8, 0x41#8, 0x41#8] 3#32
    Quiet s ∧ Quiet s' ∧ s.operands = s'.operands ∧ s.platform = s'.platform ∧ IsValidPrefix s 0 ∧
    (∀ a, InSource s a → a ≤ s.srcBase.toNat + 0 ∨ s.srcBase.toNat + s.srcLen.toNat ≤ a + 2 →
      s.mem.read a = s'.mem.read a) ∧
    (∃ t, exec .decode s = .next t) ∧ (∃ t', exec .decode s' = .next t') := by
  refine ⟨⟨quiet_ready _ _ (by decide) (by decide),
    quiet_of (by decide) (by decide) ⟨rfl, rfl, rfl, rfl⟩, rfl, rfl, ?_, ⟨_, rfl⟩, ⟨_, rfl⟩⟩,
    quiet_ready _ _ (by decide) (by decide), quiet_ready _ _ (by decide) (by decide), rfl, rfl,
    prefix_of (by decide) (by decide) (by decide), fun a ha hn => ?_, ⟨_, rfl⟩, ⟨_, rfl⟩⟩
  swap
  · have ha : 0x1000 ≤ a ∧ a < 0x1000 + 4 := ha
    have hn : a ≤ 0x1000 + 0 ∨ 0x1000 + 4 ≤ a + 2 := hn
    obtain rfl | rfl | rfl : a = 0x1000 ∨ a = 0x1002 ∨ a = 0x1003 := by omega
    all_goals decide
  intro a ha
  have h : a < 0x1000 + 4 := ha.2
  exact (Memory.read_write_other _ 0xAA#8 (show a ≠ 0x2000 by omega)).symm

theorem witness_EncodeCodeDependsOnOperands :
    let s := ready foo 5#32
    let s' := { overlapping foo 5#32 with dstBase := 0x2000#32, mem := [] }
    s.operands = s'.operands ∧ s.platform = s'.platform ∧
    (∃ t, exec .encode s = .next t) ∧ (∃ t', exec .encode s' = .next t') :=
  ⟨by decide, rfl, ⟨_, rfl⟩, ⟨_, rfl⟩⟩

/-- DECODE of "*AAA" in progress, its second byte written by another agent: the scan ends before it. -/
def racedPastPrefix (xs : List Input) : State :=
  let s := running .decode (ready [0x2A#8, 0x41#8, 0x41#8, 0x41#8] 3#32) xs
  { s with race := s.race.note s.operands 0x1001 }

/-- A write of a byte of the tail; and one elsewhere, at the smallest capacity and at one less. -/
theorem witness_RacedDecode :
    (∀ tail cap, tail = true ∨ tail = false → cap = 3#32 ∨ cap = 2#32 →
      let s := { ready fooText cap with
        race := { Race.none with raced := true, racedTail := tail, racedSource := [0x1000] } }
      ViewsValid s ∧ s.srcLen.toNat % 4 = 0 ∧ 0 < s.srcLen.toNat ∧ PlainMemory s ∧
      (∀ a, InSource s a ∨ InDestination s a → Admits s a) ∧ s.race.raced = true ∧
      s.race.racedTail = tail ∧ s.race.sourceSeen = true) ∧
    RequiredDecoded (ready fooText 3#32) ≤ (ready fooText 3#32).dstCap.toNat ∧
    (ready fooText 2#32).dstCap.toNat < RequiredDecoded (ready fooText 2#32) ∧
    let s := racedPastPrefix []
    ViewsValid s ∧ s.srcLen.toNat % 4 = 0 ∧ 0 < s.srcLen.toNat ∧ PlainMemory s ∧
    (∀ a, InSource s a ∨ InDestination s a → Admits s a) ∧ s.race.raced = true ∧
    s.race.racedTail = false ∧ s.race.sourceSeen = true ∧ RequiredDecoded s ≤ s.dstCap.toNat ∧
    IsValidPrefix s 0 ∧ ∀ x ∈ s.race.racedSource, s.srcBase.toNat + 0 < x := by
  refine ⟨?_, by decide, by decide, by unfold ViewsValid ViewValid; decide, by decide, by decide,
    plain_of (by decide), fun a _ => admits_of rfl a, by decide, by decide, by decide, by decide,
    prefix_of (by decide) (by decide) (by decide), by decide⟩
  rintro tail cap (rfl | rfl) (rfl | rfl) <;>
    exact ⟨by unfold ViewsValid ViewValid; decide, by decide, by decide, plain_of (by decide),
      fun a _ => admits_of rfl a, rfl, rfl, rfl⟩

theorem witness_NoCancellation :
    ∃ t, MachineInv (encoding [writing .cmd 2#32]) ∧
      (encoding [writing .cmd 2#32]).phase = .busy .encode ∧
      (encoding [writing .cmd 2#32]).inputs = [writing .cmd 2#32] ∧
      writing .cmd 2#32 ≠ .engine ∧ writing .cmd 2#32 ≠ .reset ∧
      step (encoding [writing .cmd 2#32]) = .next t :=
  ⟨_, (inv_running .encode _).1, by decide, by decide, by decide, by decide, rfl⟩

theorem witness_OperationsStartByCommand :
    ∃ t, (receiving [writing .cmd 1#32] (ready foo 5#32)).phase = .idle ∧
      step (receiving [writing .cmd 1#32] (ready foo 5#32)) = .next t ∧ t.phase = .busy .encode :=
  ⟨_, by decide, rfl, by decide⟩

theorem witness_ResetEffect :
    ((receiving [.reset] State.reset).inputs = [.reset] ∧ State.reset.phase = .idle ∧
      ∃ t, step (receiving [.reset] State.reset) = .next t) ∧
    ((encoding [.reset]).inputs = [.reset] ∧ ∃ t, step (encoding [.reset]) = .next t) :=
  ⟨⟨by decide, by decide, _, rfl⟩, by decide, _, rfl⟩

theorem witness_ResetAbandonsOperation :
    ((encoding [.reset]).inputs = [.reset] ∧ (encoding [.reset]).phase = .busy .encode ∧
      PlainMemory (encoding [.reset])) ∧
    ∀ s k, (s = decoding [.reset] ∧ k = 4) ∨ (s = racedPastPrefix [.reset] ∧ k = 0) →
      s.inputs = [.reset] ∧ s.phase = .busy .decode ∧ PlainMemory s ∧ s.race.sourceSeen = true ∧
      IsValidPrefix s k ∧ ∀ x ∈ s.race.racedSource, s.srcBase.toNat + k < x := by
  refine ⟨⟨by decide, by decide, plain_of (by decide)⟩, ?_⟩
  rintro s k (⟨rfl, rfl⟩ | ⟨rfl, rfl⟩) <;>
    exact ⟨by decide, by decide, plain_of (by decide), by decide,
      prefix_of (by decide) (by decide) (by decide), by decide⟩

theorem witness_StepKeepsInvariant :
    ∃ t u, MachineInv (encoding []) ∧ step (encoding []) = .next t ∧
      MachineInv (decoding [.memWrite .host 0x1003#32 0x3D#8]) ∧
      step (decoding [.memWrite .host 0x1003#32 0x3D#8]) = .next u :=
  ⟨_, _, (inv_running .encode _).1, rfl, (inv_running .decode _).2, rfl⟩

theorem witness_PlatformIsFixed : ∃ t, step (encoding []) = .next t := ⟨_, rfl⟩

/-- With no operation's buffers taken, and next to a running operation's destination and an unseen one's; and a
write of the source of an operation never seen complete. -/
theorem witness_AgentWriteLands :
    (∀ s, s = receiving [.memWrite .other 0x2005#32 0xAA#8] (ready foo 5#32) ∨
        s = encoding [.memWrite .other 0x2005#32 0xAA#8] ∨
        s = unseenEncode [.memWrite .other 0x2005#32 0xAA#8] →
      s.inputs = [.memWrite .other 0x2005#32 0xAA#8] ∧ Memory.wf s.mem = true ∧
      Admits s (0x2005#32).toNat ∧ AddrSet.mem s.platform.sideEffects (0x2005#32).toNat = false ∧
      (∀ o, s.owned = some o → o.operands.inViews (0x2005#32).toNat = false) ∧
      Unclaimed s (0x2005#32).toNat) ∧
    ∃ s t, s = unseenEncode [.memWrite .host 0x1000#32 0xAA#8] ∧ MachineInv s ∧
      s.inputs = [.memWrite .host 0x1000#32 0xAA#8] ∧ Admits s (0x1000#32).toNat ∧
      AddrSet.mem s.platform.sideEffects (0x1000#32).toNat = false ∧
      (∀ o, s.owned = some o → o.settled = none) ∧ step s = .next t ∧
      ¬ Unclaimed s (0x1000#32).toNat ∧ Unheld s (0x1000#32).toNat ∧ ¬ Unheld s 0x2000 := by
  refine ⟨?_, _, _, rfl, inv_unseenEncode _, rfl, admits_of rfl _, by decide, fun o ho => (nomatch ho), rfl,
    by unfold Unclaimed; decide, by unfold Unheld; decide, by unfold Unheld; decide⟩
  rintro s (rfl | rfl | rfl) <;>
    refine ⟨by decide, by decide, admits_of rfl _, by decide, ?_, by unfold Unclaimed; decide⟩
  · exact fun o ho => nomatch ho
  · intro o ho
    obtain rfl : Ownership.mk .encode (ready foo 5#32).operands none = o := Option.some.inj ho
    decide
  · exact fun o ho => nomatch ho

/-- An admitted read by the host with no buffers taken, one by another master of a byte the host's caches may
hide, and a read and a write of a refused byte. -/
theorem witness_AgentAccessAnswered :
    (∀ m a, (m = .host ∧ a = 0x1000#32) ∨ (m = .other ∧ a = 0x2005#32) →
      let s := { unseenEncode [.memRead m a] with stale := [{ base := 0x2000, len := 8 }] }
      AddrSet.mem s.platform.sideEffects a.toNat = false ∧ s.inputs = [.memRead m a] ∧ Admits s a.toNat ∧
      (∀ o, s.owned = some o → o.operands.destination.mem a.toNat = false) ∧
      (∀ c ∈ s.unseen, c.operands.destination.mem a.toNat = false) ∧
      (m = .host → AddrSet.mem s.stale a.toNat = false)) ∧
    (∀ x, x = .memRead .host 0x1000#32 ∨ x = .memWrite .host 0x1000#32 0xAA#8 →
      (refusing [{ base := 0x1000, len := 1 }] (receiving [x] (ready foo 5#32))).inputs = [x]) ∧
    ¬ Admits (refusing [{ base := 0x1000, len := 1 }] (ready foo 5#32)) (0x1000#32).toNat := by
  refine ⟨?_, fun _ _ => rfl, by unfold Admits; decide⟩
  rintro m a (⟨rfl, rfl⟩ | ⟨rfl, rfl⟩) <;>
    exact ⟨by decide, rfl, admits_of rfl _, fun o ho => (nomatch ho), by decide, by decide⟩

/-- DECODE's last source byte but one, its first source byte and the last destination byte, written while
the operation is in progress and after its completion step; and ENCODE's first source byte, after it. -/
theorem witness_RacingWriteIsMarked :
    (∀ a : Word, a = 0x1002#32 ∨ a = 0x1000#32 ∨ a = 0x2002#32 →
      ∀ s, s = decoding [.memWrite .other a 0x3D#8] ∨ s = decoding [.engine, .memWrite .other a 0x3D#8] →
      MachineInv s ∧ s.phase = .busy .decode ∧ PlainMemory s ∧ ViewsValid s ∧ Unclaimed s a.toNat ∧ Unheld s a.toNat ∧
      s.srcLen.toNat % 4 = 0 ∧ s.race.racedTail = false ∧
      (∀ x, InSource s x ∨ InDestination s x → Admits s x) ∧
      (InSource s a.toNat ∨ InDestination s a.toNat) ∧
      (a = 0x1002#32 ↔ InSource s a.toNat ∧ s.srcBase.toNat + s.srcLen.toNat ≤ a.toNat + 2)) ∧
    let s := encoding [.engine, .memWrite .host 0x1000#32 0x3D#8]
    MachineInv s ∧ s.phase = .busy .encode ∧ s.inputs = .engine :: .memWrite .host 0x1000#32 0x3D#8 :: [] ∧
    PlainMemory s ∧ Admits s (0x1000#32).toNat ∧ InSource s (0x1000#32).toNat := by
  refine ⟨?_, (inv_running .encode _).1, by decide, by decide, plain_of (by decide), admits_of rfl _,
    by unfold InSource; decide⟩
  rintro a (rfl | rfl | rfl) s (rfl | rfl) <;>
    exact ⟨(inv_running .decode _).2, by decide, plain_of (by decide),
      by unfold ViewsValid ViewValid; decide, by unfold Unclaimed; decide, by unfold Unheld; decide,
      by decide, by decide, fun a _ => admits_of rfl a,
      by unfold InSource InDestination; decide, by unfold InSource; decide⟩

/-- 41_decode.md R139 and 70_reset_and_hazards.md R245: after DECODE of "Zm9v" into one byte ended with
INSUFFICIENT_CAPACITY, a late write of its first source byte leaves the code and writes nothing else. -/
theorem test_late_write_keeps_insufficient :
    (match step (running .decode (ready fooText 1#32) [.engine, .memWrite .host 0x1000#32 0x41#8]) with
      | .next t => ending (step t) 1
      | _ => none) = some (0x2#4, 0, [0x00#8]) := by decide

/-- DONE seen by a read of STATUS and by IRQ, the byte read by the host and, hidden from the host, by another
master; an invalidate of the last byte of a stale destination; an illegal command's DONE; and a completed
operation before the next command and before a reset. -/
theorem witness_PollThenReadIsExact :
    (∀ m a, (m = .host ∧ a = 0x1000#32) ∨ (m = .other ∧ a = 0x2000#32) →
      let s := { encoded { Status.reset with done := true } [reading .status, .memRead m a] with
        stale := [{ base := 0x2000, len := 5 }], irqEn := true }
      Reads s .status [.memRead m a] ∧
      { s with inputs := [.sampleIrq, .memRead m a] }.inputs = .sampleIrq :: .memRead m a :: [] ∧
      s.status.done = true ∧ s.irqEn = true ∧ s.status.code ≠ 0x3#4 ∧
      (∀ c ∈ s.unseen, c.operands.destination.mem a.toNat = false) ∧ Admits s a.toNat ∧
      AddrSet.mem s.platform.sideEffects a.toNat = false ∧
      (m = .host → AddrSet.mem s.stale a.toNat = false)) ∧
    (let r : Range := { base := 0x2004, len := 1 }
    let s := { receiving [.cacheInvalidate r, .memRead .host 0x2004#32] (ready foo 5#32) with
      stale := [{ base := 0x2000, len := 5 }] }
    s.inputs = .cacheInvalidate r :: .memRead .host 0x2004#32 :: [] ∧ s.owned = none ∧ s.unseen = [] ∧
    r.mem (0x2004#32).toNat = true ∧ Admits s (0x2004#32).toNat ∧
    AddrSet.mem s.platform.sideEffects (0x2004#32).toNat = false ∧
    AddrSet.mem s.stale 0x2003 = true ∧ r.mem 0x2003 = false) ∧
    Reads (encoded { Status.reset with done := true, code := 0x3#4 } [reading .status]) .status [] ∧
    (∃ o m, (encoded Status.reset []).owned = some o ∧ o.settled = some m ∧
      Writes (encoded Status.reset [writing .cmd 2#32]) .cmd 2#32 [] ∧ decode 2#32 = .ok .decode ∧
      (encoded Status.reset [.reset]).inputs = [.reset] ∧ (encoded Status.reset []).phase = .idle) ∧
    ∃ t c, step (unseenEncode [.reset]) = .next t ∧ c ∈ (unseenEncode [.reset]).unseen := by
  refine ⟨?_, ⟨rfl, rfl, rfl, by decide, admits_of rfl _, by decide, by decide, by decide⟩, rfl,
    ⟨_, _, rfl, rfl, rfl, by decide, rfl, rfl⟩, _, _, rfl, List.mem_singleton_self _⟩
  rintro m a (⟨rfl, rfl⟩ | ⟨rfl, rfl⟩) <;>
    exact ⟨rfl, rfl, rfl, rfl, by decide, by decide, admits_of rfl _, by decide, by decide⟩

/-- A platform that is not coherent, and a clean of exactly the source. -/
theorem witness_SourceSeenWhenCleaned :
    let r : Range := { base := 0x1000, len := 3 }
    let s := { ready foo 5#32 with
      platform := { Config.platform with coherent := false },
      inputs := [.cacheClean r, .busWrite Config.platform.b64Base 4 1#32] }
    s.platform.coherent = false ∧
    s.inputs = .cacheClean r :: .busWrite s.platform.b64Base 4 1#32 :: [] ∧
    s.status.busy = false ∧ decode 1#32 = .ok .encode ∧ ∀ a, InSource s a → r.mem a = true := by
  refine ⟨rfl, rfl, rfl, by decide, fun a ha => (Range.mem_iff _ _).mpr ?_⟩
  exact ha

end Sys2Proof.Tests
end

section
/-! SUPPORT. The platform's parameters stay as they are (00_scope.md R9): one lemma for each thing a step
can be, assembled by the input. -/

namespace Sys2Proof.Machine

theorem engineTurn_platform {s t : State} (h : engineTurn s = .next t) : t.platform = s.platform := by
  cases hp : s.phase with
  | idle =>
    obtain rfl : s = t := by simpa [engineTurn_idle hp] using h
    rfl
  | busy i =>
    rw [engineTurn_busy hp, exec_eq] at h
    obtain ⟨r, -, rfl⟩ := finish_eq_next h
    rfl

theorem writeReg_platform (r : Reg) (w : Word) (s : State) : (writeReg r w s).platform = s.platform := by
  obtain ⟨-, hplatform, -⟩ := writeReg_frame r w s
  exact hplatform

theorem hostReadReg_platform (r : Reg) (s : State) : (hostReadReg r s).platform = s.platform := by
  rw [hostReadReg_frame]

theorem sampleIrq_platform (s : State) : (sampleIrq s).platform = s.platform := by
  rw [sampleIrq_frame]

/-- A host bus access keeps the platform where what it does to a register keeps it. -/
theorem hostAccess_platform {addr size : Nat} {act : Reg → State → State} {s t : State}
    (hact : ∀ r, (act r s).platform = s.platform) (h : hostAccess addr size act s = .next t) :
    t.platform = s.platform := by
  obtain ⟨r, hr⟩ | hs | hrefused := hostAccess_cases addr size act s
  · obtain rfl : act r s = t := by simpa [hr] using h
    exact hact r
  · obtain rfl : s = t := by simpa [hs] using h
    rfl
  · simp [hrefused] at h

theorem redoRaced_platform {o : Ownership} {m : Settled} {s t : State} (h : redoRaced o m s = .next t) :
    t.platform = s.platform := by
  obtain ⟨r, -, ⟨-, rfl⟩ | ⟨-, rfl⟩⟩ := redoRaced_next h <;> rfl

theorem agentWrite_platform {m : Master} {a : Nat} {b : Byte} {s t : State}
    (h : agentWrite m a b s = .next t) : t.platform = s.platform := by
  obtain ⟨-, rfl⟩ | ⟨-, ⟨rfl, -⟩ | ⟨o, -, ⟨-, rfl⟩ | ⟨x, -, hredo⟩⟩⟩ := agentWrite_next h
  · rfl
  · simp
  · simp
  · simpa using redoRaced_platform hredo

theorem agentRead_platform {m : Master} {a : Nat} {s t : State} (h : agentRead m a s = .next t) :
    t.platform = s.platform := by
  obtain ⟨r, d, rfl⟩ := agentRead_next h
  rfl

theorem platformReset_platform {s t : State} (h : platformReset s = .next t) : t.platform = s.platform := by
  obtain ⟨-, rfl⟩ | ⟨i, r, -, -, rfl⟩ := platformReset_next h <;> rfl

/-- No input from outside the block changes the platform's parameters. -/
theorem receive_platform {x : Input} {s t : State} (h : receive x s = .next t) : t.platform = s.platform := by
  cases x with
  | engine => exact engineTurn_platform h
  | busWrite addr size data => exact hostAccess_platform (fun r => writeReg_platform r data s) h
  | busRead addr size => exact hostAccess_platform (fun r => hostReadReg_platform r s) h
  | memWrite master addr value => exact agentWrite_platform h
  | memRead master addr => exact agentRead_platform h
  | cacheClean range =>
    obtain rfl : cacheClean range s = t := by simpa [receive] using h
    exact cacheClean_platform range s
  | cacheInvalidate range =>
    obtain rfl : cacheInvalidate range s = t := by simpa [receive] using h
    exact cacheInvalidate_platform range s
  | sampleIrq =>
    obtain rfl : sampleIrq s = t := by simpa [receive] using h
    exact sampleIrq_platform s
  | reset => exact platformReset_platform h

/-- Settles O55: a step is the engine's turn or the receipt of one input, and neither changes the platform. -/
theorem platformIsFixed : Obligations.PlatformIsFixed := by
  intro s t h
  cases hi : s.inputs with
  | nil =>
    rw [step_nil hi] at h
    exact engineTurn_platform h
  | cons x rest =>
    rw [step_cons hi] at h
    exact (receive_platform h :)

end Sys2Proof.Machine
end

section
/-! SUPPORT. Where an operation writes (20_memory.md R56; 41_decode.md R144): the bytes its body yields fit the
destination view, and with OK each of them stands at an admitted address. -/

namespace Sys2Proof.Machine

theorem completionCode_eq_zero_iff (c : Completion) : completionCode c = 0x0#4 ↔ c = .ok := by
  cases c <;> decide

theorem completionCode_le (c : Completion) : (completionCode c).toNat ≤ 4 := by
  cases c <;> decide

/-- The capacity that ENCODE's body checks holds the text and the terminator (40_encode.md R100). -/
theorem reqCap_eq {n : Nat} (h : n ≠ 0) : reqCap n = encodedLen n + 1 := by
  simp [reqCap, encodedLen, h]

/-! ### DECODE's count is within its capacity check -/

/-- A valid symbol is no pad, so a pad at an offset of the source bounds `K` (41_decode.md R131). -/
theorem prefix_le_of_pad {v : Operands} {rc : Race} {s : State} {i : Nat}
    (hpad : sourceByte rc s (v.srcBase + i) = padByte) :
    (sourceSymbols v rc s).length ≤ i := by
  by_contra hlt
  obtain ⟨hvalid, -⟩ := validPrefix_getElem (sourceBytes rc s v.srcBase v.srcLen) i (by
    rw [sourceSymbols] at hlt; omega)
  rw [sourceBytes_getElem, hpad] at hvalid
  exact absurd hvalid (by decide)

theorem sourceSymbols_length_le (v : Operands) (rc : Race) (s : State) :
    (sourceSymbols v rc s).length ≤ v.srcLen := by
  simpa [sourceSymbols] using validPrefix_length_le (sourceBytes rc s v.srcBase v.srcLen)

/-- `out ≤ DecLen` (41_decode.md R144): each pad that DecLen takes off also bounds `K`. -/
theorem decodedCount_le_decLen {v : Operands} (rc : Race) (s : State) (hfour : v.srcLen % 4 = 0)
    (hne : v.srcLen ≠ 0) : decodedCount (sourceSymbols v rc s).length ≤ decLen v rc s := by
  have hlen := sourceSymbols_length_le v rc s
  have hlast := @prefix_le_of_pad v rc s (v.srcLen - 1)
  have hsecond := @prefix_le_of_pad v rc s (v.srcLen - 2)
  rw [← Nat.add_sub_assoc (by omega)] at hlast hsecond
  simp only [decLen, decodedLen, padCount, if_neg hne]
  unfold decodedCount
  by_cases hp : sourceByte rc s (v.srcBase + v.srcLen - 1) = padByte <;>
    by_cases hq : sourceByte rc s (v.srcBase + v.srcLen - 2) = padByte <;>
      simp only [hp, hq, if_true, if_false, true_implies] at hlast hsecond ⊢ <;>
      (repeat' split) <;> omega

theorem not_raced_of_predictable {v : Operands} {rc : Race} (h : unpredictable v rc = false) :
    rc.racedTail = false ∧ rc.racedSource = [] := by
  simp only [unpredictable, Bool.or_eq_false_iff, Bool.not_eq_false', List.isEmpty_iff] at h
  exact ⟨h.1.2, h.2⟩

/-- With the capacity check passed and no hazard, the bytes of the valid symbols fit DST_CAP. -/
theorem decodedCount_le_dstCap {v : Operands} {rc : Race} {s : State} (hinvalid : decodeInvalid v = false)
    (hne : v.srcLen ≠ 0) (hsmall : decodeTooSmall v rc s = false) (hquiet : unpredictable v rc = false) :
    decodedCount (sourceSymbols v rc s).length ≤ v.dstCap := by
  obtain ⟨htail, -⟩ := not_raced_of_predictable hquiet
  have hfour : v.srcLen % 4 = 0 := by
    simpa [decodeInvalid] using (Bool.or_eq_false_iff.mp hinvalid).2
  have hcap : decLen v rc s ≤ v.dstCap := by simpa [decodeTooSmall, htail] using hsmall
  exact (decodedCount_le_decLen rc s hfour hne).trans hcap

/-! ### What the body yields fits -/

theorem encodeResult_fits {v : Operands} {rc : Race} {s : State} {r : OpResult}
    (h : encodeResult v rc s = .ok r) : r.bytes.length ≤ v.dstCap := by
  obtain ⟨-, ⟨rfl, -⟩ | ⟨rfl, -⟩ | ⟨rfl, -⟩ | ⟨-, hcap, hne, hbytes⟩⟩ := encodeResult_ok h
  · exact Nat.zero_le _
  · exact Nat.zero_le _
  · exact Nat.zero_le _
  · rw [reqCap_eq hne] at hcap
    obtain ⟨-, -, hb⟩ | ⟨-, -, hb⟩ | ⟨-, -, hb⟩ := hbytes <;>
      simpa [hb, encodeText_length] using hcap

theorem decodeResult_fits {v : Operands} {rc : Race} {s : State} {r : OpResult}
    (h : decodeResult v rc s = .ok r) : r.bytes.length ≤ v.dstCap := by
  obtain ⟨hcount, -⟩ := decodeWriteCount_le v rc s
  obtain ⟨-, ⟨rfl, -⟩ | ⟨rfl, -⟩ | ⟨hinvalid, hne, rfl | ⟨rfl, -⟩ | ⟨hsmall, hbytes⟩⟩⟩ := decodeResult_ok h
  · exact Nat.zero_le _
  · exact Nat.zero_le _
  · exact Nat.zero_le _
  · exact Nat.zero_le _
  · obtain ⟨-, -, hb⟩ | ⟨-, -, -, hb⟩ | ⟨-, hquiet, -, hb⟩ := hbytes
    · simpa [hb] using hcount
    · simpa [hb] using hcount
    · rw [hb, decodeSymbols_length]
      exact decodedCount_le_dstCap hinvalid hne hsmall hquiet

/-- 20_memory.md R56: an operation's bytes fit its destination view. -/
theorem opResult_fits {i : Instr} {v : Operands} {rc : Race} {s : State} {r : OpResult}
    (h : opResult i v rc s = .ok r) : r.bytes.length ≤ v.dstCap := by
  cases i with
  | encode => exact encodeResult_fits h
  | decode => exact decodeResult_fits h

/-- An operation that yields bytes found its views valid, so its destination is of the address space. -/
theorem opResult_destination {i : Instr} {v : Operands} {rc : Race} {s : State} {r : OpResult}
    (h : opResult i v rc s = .ok r) : r.bytes = [] ∨ v.dstBase + v.dstCap ≤ 2 ^ 32 := by
  have hviews : r.bytes = [] ∨ v.viewsOK = true := by
    cases i with
    | encode =>
      obtain ⟨-, ⟨rfl, -⟩ | ⟨rfl, -⟩ | ⟨rfl, -⟩ | ⟨hvalid, -⟩⟩ := encodeResult_ok h
      · exact .inl rfl
      · exact .inl rfl
      · exact .inl rfl
      · exact .inr (by simpa using (Bool.or_eq_false_iff.mp hvalid).1)
    | decode =>
      obtain ⟨-, ⟨rfl, -⟩ | ⟨rfl, -⟩ | ⟨hvalid, -⟩⟩ := decodeResult_ok h
      · exact .inl rfl
      · exact .inl rfl
      · exact .inr (by simpa using (Bool.or_eq_false_iff.mp hvalid).1)
  refine hviews.imp_right fun hv => ?_
  obtain ⟨-, hdst⟩ := Bool.and_eq_true_iff.mp hv
  exact ((viewOK_iff _ _).mp hdst).2

/-- RESULT_LEN is 0 on every code but OK (10_state.md R32). -/
theorem opResult_len_of_error {i : Instr} {v : Operands} {rc : Race} {s : State} {r : OpResult}
    (h : opResult i v rc s = .ok r) (hcode : r.code ≠ .ok) : r.len = 0 := by
  cases i with
  | encode =>
    obtain ⟨-, ⟨rfl, -⟩ | ⟨rfl, -⟩ | ⟨rfl, -⟩ | ⟨-, -, -, ⟨-, hlen, -⟩ | ⟨hok, -⟩ | ⟨hok, -⟩⟩⟩ :=
      encodeResult_ok h
    · rfl
    · rfl
    · rfl
    · exact hlen
    · exact absurd hok hcode
    · exact absurd hok hcode
  | decode =>
    obtain ⟨-, ⟨rfl, -⟩ | ⟨rfl, -⟩ |
      ⟨-, -, rfl | ⟨rfl, -⟩ | ⟨-, ⟨-, hlen, -⟩ | ⟨hok, -⟩ | ⟨hok, -⟩⟩⟩⟩ := decodeResult_ok h
    · rfl
    · exact absurd rfl hcode
    · rfl
    · rfl
    · exact hlen
    · exact absurd hok hcode
    · exact absurd hok hcode

/-- What stands outside the destination view after a write as long as an operation's. -/
theorem read_writeBytes_of_opResult {i : Instr} {v : Operands} {rc : Race} {s : State} {r : OpResult}
    (h : opResult i v rc s = .ok r) (m : Memory) {bs : List Byte} (hbs : bs.length = r.bytes.length) {a : Nat}
    (ha : ¬ (v.dstBase ≤ a ∧ a < v.dstBase + v.dstCap)) : (m.writeBytes v.dstBase bs).read a = m.read a := by
  have hfits := opResult_fits h
  exact Memory.read_writeBytes_outside m bs (by omega)

/-- A write as long as an operation's keeps memory inside the address space. -/
theorem bounded_writeBytes_of_opResult {i : Instr} {v : Operands} {rc : Race} {s : State} {r : OpResult}
    (h : opResult i v rc s = .ok r) {m : Memory} (hm : m.bounded = true) {bs : List Byte}
    (hbs : bs.length = r.bytes.length) : (m.writeBytes v.dstBase bs).bounded = true := by
  obtain hnone | hdst := opResult_destination h
  · obtain rfl : bs = [] := List.eq_nil_of_length_eq_zero (by simp [hbs, hnone])
    exact hm
  · have hfits := opResult_fits h
    exact Memory.bounded_writeBytes bs hm (by rw [Config.addrSpace]; omega)

/-- 20_memory.md R56: the would-be write range lies in the destination view and in the address space. -/
theorem opResult_range_inside {i : Instr} {v : Operands} {rc : Race} {s : State} {r : OpResult}
    (h : opResult i v rc s = .ok r) {a : Nat} (ha : (r.range v.dstBase).mem a = true) :
    v.destination.mem a = true ∧ a < 2 ^ 32 := by
  have hfits := opResult_fits h
  simp only [Range.mem_iff, OpResult.range_base, OpResult.range_len, Operands.destination] at ha ⊢
  obtain hnone | hdst := opResult_destination h
  · simp only [hnone, List.length_nil] at ha; omega
  · omega

/-! ### With OK every byte written is admitted (20_memory.md R68) -/

/-- ENCODE's bytes, where it yields any, fill its write range. -/
theorem encodeResult_range {v : Operands} {rc : Race} {s : State} {r : OpResult}
    (h : encodeResult v rc s = .ok r) : r.bytes = [] ∨ r.range v.dstBase = encodeWriteRange v := by
  obtain ⟨-, ⟨rfl, -⟩ | ⟨rfl, -⟩ | ⟨rfl, -⟩ | ⟨-, -, -, hbytes⟩⟩ := encodeResult_ok h
  · exact .inl rfl
  · exact .inl rfl
  · exact .inl rfl
  · obtain ⟨-, -, hb⟩ | ⟨-, -, hb⟩ | ⟨-, -, hb⟩ := hbytes <;>
      exact .inr (by simp [OpResult.range, encodeWriteRange, hb, encodeText_length])

/-- ENCODE past its checks, with a refused address in its write range, ends with BUS_ERROR (60_exceptions.md
R205); so with OK it met none or wrote nothing. -/
theorem encodeResult_admitted {v : Operands} {rc : Race} {s : State} {r : OpResult}
    (h : encodeResult v rc s = .ok r) (hcode : r.code = .ok) :
    r.bytes = [] ∨ rangeAdmitted s.platform (encodeWriteRange v) = true := by
  unfold encodeResult at h
  split at h
  · cases h
  split at h
  · cases h; exact .inl rfl
  split at h
  · cases h; exact .inl rfl
  split at h
  · cases h; exact .inl rfl
  split at h
  · cases h; cases hcode
  · rename_i hadmitted
    simp only [Bool.not_eq_true', Bool.not_eq_false, Bool.and_eq_true] at hadmitted
    exact .inr hadmitted.2

/-- DECODE's bytes on OK, where it yields any, are as many as its write range counts (41_decode.md R136). -/
theorem decodeResult_range {v : Operands} {rc : Race} {s : State} {r : OpResult}
    (h : decodeResult v rc s = .ok r) (hcode : r.code = .ok) :
    r.bytes = [] ∨ r.range v.dstBase = { base := v.dstBase, len := decodeWriteCount v rc s } := by
  obtain ⟨-, ⟨rfl, -⟩ | ⟨rfl, -⟩ | ⟨hinvalid, hne, rfl | ⟨rfl, -⟩ | ⟨hsmall, hbytes⟩⟩⟩ := decodeResult_ok h
  · exact .inl rfl
  · exact .inl rfl
  · exact .inl rfl
  · exact .inl rfl
  · obtain ⟨hbus, -⟩ | ⟨-, -, -, hb⟩ | ⟨-, hquiet, -, hb⟩ := hbytes
    · simp [hbus] at hcode
    · exact .inr (by simp [OpResult.range, hb])
    · obtain ⟨-, hsource⟩ := not_raced_of_predictable hquiet
      have hcap := decodedCount_le_dstCap hinvalid hne hsmall hquiet
      exact .inr (by simp [OpResult.range, hb, decodeSymbols_length, decodeWriteCount, prefixCount,
        prefixLength_exact hsource, hcap])

/-- DECODE past its capacity check, with a refused address in its write range, ends with BUS_ERROR
(60_exceptions.md R205); so with OK it met none or wrote nothing. -/
theorem decodeResult_admitted {v : Operands} {rc : Race} {s : State} {r : OpResult}
    (h : decodeResult v rc s = .ok r) (hcode : r.code = .ok) :
    r.bytes = [] ∨
      rangeAdmitted s.platform { base := v.dstBase, len := decodeWriteCount v rc s } = true := by
  have hpassed : decodeBusError v rc s = false →
      rangeAdmitted s.platform { base := v.dstBase, len := decodeWriteCount v rc s } = true := by
    intro hbus
    simp only [decodeBusError, accessesAdmitted, Bool.not_eq_false', Bool.and_eq_true] at hbus
    exact hbus.2
  unfold decodeResult at h
  split at h
  · cases h
  split at h
  · cases h; exact .inl rfl
  split at h
  · cases h; exact .inl rfl
  split at h
  · cases h; exact .inl rfl
  split at h
  · cases h; exact .inl rfl
  split at h
  · cases h; cases hcode
  · exact .inr (hpassed (Bool.not_eq_true _ ▸ ‹¬ decodeBusError v rc s = true›))

/-- 20_memory.md R68: an operation that completes with OK writes admitted addresses only. -/
theorem opResult_admitted {i : Instr} {v : Operands} {rc : Race} {s : State} {r : OpResult}
    (h : opResult i v rc s = .ok r) (hcode : r.code = .ok) {a : Nat}
    (ha : (r.range v.dstBase).mem a = true) : memAdmit s.platform a = true := by
  have hsome : r.bytes ≠ [] := by
    intro hnone
    simp only [Range.mem_iff, OpResult.range_base, OpResult.range_len, hnone, List.length_nil] at ha
    omega
  have hrange : rangeAdmitted s.platform (r.range v.dstBase) = true := by
    cases i with
    | encode =>
      rw [(encodeResult_range h).resolve_left hsome]
      exact (encodeResult_admitted h hcode).resolve_left hsome
    | decode =>
      rw [(decodeResult_range h hcode).resolve_left hsome]
      exact (decodeResult_admitted h hcode).resolve_left hsome
  exact (rangeAdmitted_iff _ _).mp hrange a ha

/-! ### The completion step -/

/-- What an instruction's meaning can do: complete with its body's result. -/
theorem exec_next {i : Instr} {s t : State} (h : exec i s = .next t) :
    ∃ r, opResult i s.operands s.race s = .ok r ∧ t = complete r.code r.len
      { s with
        mem := s.mem.writeBytes s.operands.dstBase r.bytes,
        owned := s.owned.map (Ownership.settle s.mem r),
        stale := s.markStale s.operands.destination,
        draws := s.draws + 1 } :=
  finish_eq_next (exec_eq i s ▸ h)

theorem exec_mem_outside {i : Instr} {s t : State} {a : Nat} (h : exec i s = .next t)
    (ha : ¬ InDestination s a) : t.mem.read a = s.mem.read a := by
  obtain ⟨r, hr, rfl⟩ := exec_next h
  exact read_writeBytes_of_opResult hr s.mem rfl ha

theorem exec_ok_admits {i : Instr} {s t : State} {a : Nat} (h : exec i s = .next t)
    (hcode : t.status.code = 0x0#4) (hchanged : t.mem.read a ≠ s.mem.read a) : Admits s a := by
  obtain ⟨r, hr, rfl⟩ := exec_next h
  have hok : r.code = .ok := by simpa [completionCode_eq_zero_iff] using hcode
  have hin : (r.range s.operands.dstBase).mem a = true := by
    by_contra hout
    rw [Range.mem_iff, OpResult.range_base, OpResult.range_len] at hout
    exact hchanged (Memory.read_writeBytes_outside s.mem r.bytes (by omega))
  exact opResult_admitted hr hok hin

/-- Settles O43: the bytes of a body fit DST_CAP, for DECODE because each pad that DecLen takes off bounds `K`
too (R131); and with OK the write range passed the check of refused addresses. -/
theorem writesStayInDestination : Obligations.WritesStayInDestination :=
  ⟨fun _ _ _ _ h ha => exec_mem_outside h ha, fun _ _ _ _ h hcode hne => exec_ok_admits h hcode hne⟩

end Sys2Proof.Machine
end

section
/-! SUPPORT. The invariant of the machine (10_state.md R24, R25, R32, R36; 60_exceptions.md R206;
70_reset_and_hazards.md R246): one lemma for each thing a step can do to the state, assembled by the input. -/

namespace Sys2Proof.Machine

/-- What a claim says it wrote lies in its destination view and in the address space: the second part of
`MachineInv.writtenInside`, for one claim. -/
def Claim.Inside (c : Claim) : Prop :=
  ∀ a, AddrSet.mem c.written a = true → c.operands.destination.mem a = true ∧ a < 2 ^ 32

theorem Claim.Inside.of_sub {c d : Claim} (hd : d.Inside) (hoperands : c.operands = d.operands)
    (hsub : ∀ a, AddrSet.mem c.written a = true → AddrSet.mem d.written a = true) : c.Inside :=
  fun a ha => hoperands ▸ hd a (hsub a ha)

/-- Who owns the buffers after another agent's write: who did, the write noted. -/
theorem written_owned {lost : AddrSet} {master : Master} {a : Nat} {b : Byte} {s : State} {o : Ownership}
    (ho : (scatterClaims lost (landWrite master a b s)).owned = some o) :
    ∃ o', s.owned = some o' ∧ o = (o'.noteWrite a b).scatter s.draws lost := by
  simp only [scatterClaims_owned, landWrite_owned, landWrite_draws, Option.map_map, Option.map_eq_some_iff] at ho
  obtain ⟨o', ho', rfl⟩ := ho
  exact ⟨o', ho', rfl⟩

theorem written_settled {lost : AddrSet} {d a : Nat} {b : Byte} {o : Ownership} {m : Settled}
    (hm : ((o.noteWrite a b).scatter d lost).settled = some m) :
    ∃ m', o.settled = some m' ∧ m = { m' with
      found := m'.found.scatter d lost, unwritten := (m'.unwritten.write a b).scatter d lost } := by
  simp only [Ownership.scatter_settled, Ownership.noteWrite_settled, Option.map_map,
    Option.map_eq_some_iff] at hm
  obtain ⟨m', hm', rfl⟩ := hm
  exact ⟨m', hm', rfl⟩

namespace MachineInv

section
variable {s : State} (h : MachineInv s)
include h

theorem unseen_inside : ∀ c ∈ s.unseen, c.Inside := h.writtenInside.2

theorem idle_of_not_busy (hbusy : s.status.busy = false) : s.phase = .idle := by
  by_contra hp
  simp [h.busyPhase.mpr hp] at hbusy

theorem not_busy_of_idle (hp : s.phase = .idle) : s.status.busy = false := by
  rw [← Bool.not_eq_true, h.busyPhase]
  exact not_not_intro hp

theorem not_busy_of_done (hdone : s.status.done = true) : s.status.busy = false := by
  by_contra hbusy
  simp [h.busyNotDone (by simpa using hbusy)] at hdone

/-- The operation in progress has not completed, so a completed one leaves the engine idle. -/
theorem idle_of_settled {o : Ownership} {m : Settled} (ho : s.owned = some o) (hm : o.settled = some m) :
    s.phase = .idle := by
  cases hp : s.phase with
  | idle => rfl
  | busy i =>
    obtain rfl : _ = o := Option.some.inj ((h.operandsHeld i hp).symm.trans ho)
    cases hm

theorem retire_inside : ∀ c ∈ s.retire, c.Inside := by
  intro c hc
  obtain ⟨d, hd, hoperands, hsub⟩ | ⟨o, m, ho, hm, rfl⟩ := retire_cases hc
  · exact (h.unseen_inside d hd).of_sub hoperands hsub
  · intro a ha
    exact h.writtenInside.1 o m a ho hm (by simpa [AddrSet.mem] using ha)

theorem release_inside : ∀ c ∈ s.release, c.Inside := by
  intro c hc
  obtain ⟨d, hd, hoperands, hsub⟩ := release_sub hc
  exact (h.unseen_inside d hd).of_sub hoperands hsub

/-! ### What the host and the platform do

A change of fields the invariant does not speak of (`inputs`, `responses`, `irqEn`, `race`, `clean`, `stale`,
`draws`, `platform`) keeps it part by part: `{ h with }`. -/

/-- A change of STATUS that leaves BUSY and CODE and sets no DONE. -/
theorem setStatus {f : Status} (hbusy : f.busy = s.status.busy) (hcode : f.code = s.status.code)
    (hdone : f.done = true → s.status.done = true) : MachineInv { s with status := f } :=
  { h with
    busyPhase := by rw [hbusy]; exact h.busyPhase
    busyNotDone := fun hb => by
      have hnot := h.busyNotDone (hbusy ▸ hb)
      exact Bool.eq_false_of_not_eq_true fun hd => by simp [hdone hd] at hnot
    busyNoResult := by rw [hbusy, hcode]; exact h.busyNoResult
    codeLegal := by rw [hcode]; exact h.codeLegal
    errorNoLength := by rw [hcode]; exact h.errorNoLength }

/-- While no operation is in progress the operand registers take any values. -/
theorem setOperands (hp : s.phase = .idle) (srcBase srcLen dstBase dstCap : Word) :
    MachineInv { s with srcBase := srcBase, srcLen := srcLen, dstBase := dstBase, dstCap := dstCap } :=
  { h with operandsHeld := fun i hi => by simp [hp] at hi }

theorem accept (i : Instr) : MachineInv (accept i s) where
  memWf := h.memWf
  memBounded := h.memBounded
  busyPhase := by simp
  busyNotDone := by simp
  busyNoResult := by simp
  codeLegal := by simp
  errorNoLength := by simp
  operandsHeld := by
    intro j hj
    obtain rfl : i = j := by simpa using hj
    rfl
  heldOrSettled := by
    intro o ho _
    obtain rfl := Option.some.inj ho
    rfl
  settledApart := by
    intro o m ho hm
    obtain rfl := Option.some.inj ho
    cases hm
  writtenInside := by
    refine ⟨fun o m a ho hm => ?_, h.retire_inside⟩
    obtain rfl := Option.some.inj ho
    cases hm

theorem completeIllegal (hbusy : s.status.busy = false) : MachineInv (completeIllegal s) :=
  { h with
    busyNotDone := by simp [hbusy]
    busyNoResult := by simp [hbusy]
    codeLegal := completionCode_le .illegalCmd
    errorNoLength := fun _ => rfl }

theorem issue (hbusy : s.status.busy = false) (w : Word) : MachineInv (issue w s) := by
  unfold Machine.issue
  split
  · exact h.accept _
  · exact h.completeIllegal hbusy

theorem ignoreWrite : MachineInv (ignoreWrite s) := h.setStatus rfl rfl id

theorem writeReg (r : Reg) (w : Word) : MachineInv (writeReg r w s) := by
  cases hbusy : s.status.busy with
  | true =>
    cases r <;> simp only [Machine.writeReg, hbusy, if_true]
    case status => exact h.setStatus rfl rfl (by simp +contextual)
    case resultLen => exact h
    all_goals exact h.ignoreWrite
  | false =>
    have hp := h.idle_of_not_busy hbusy
    cases r <;> simp only [Machine.writeReg, hbusy, Bool.false_eq_true, if_false]
    case cmd => exact h.issue hbusy w
    case status => exact h.setStatus rfl rfl (by simp +contextual)
    case srcBase => exact h.setOperands hp w _ _ _
    case srcLen => exact h.setOperands hp _ w _ _
    case dstBase => exact h.setOperands hp _ _ w _
    case dstCap => exact h.setOperands hp _ _ _ w
    case resultLen => exact h
    case cfg => exact { h with }

/-- The host sees the newest operation complete: nothing is in progress. -/
theorem observeDone : MachineInv (observeDone s) := by
  unfold Machine.observeDone
  split
  · rename_i hown
    have hdone : s.status.done = true := (Bool.and_eq_true_iff.mp hown).1
    have hp := h.idle_of_not_busy (h.not_busy_of_done hdone)
    exact { h with
      operandsHeld := fun i hi => by simp [hp] at hi
      heldOrSettled := fun o ho => nomatch ho
      settledApart := fun o m ho => nomatch ho
      writtenInside := ⟨fun o m a ho => (nomatch ho), h.release_inside⟩ }
  · exact h

theorem hostReadReg (r : Reg) : MachineInv (hostReadReg r s) := by
  have hanswered : MachineInv { s with responses := .reg r (readReg r s) :: s.responses } := { h with }
  cases r
  case status => exact hanswered.observeDone
  all_goals exact hanswered

theorem sampleIrq : MachineInv (sampleIrq s) := by
  have hanswered : MachineInv { s with responses := .irq s.irq :: s.responses } := { h with }
  unfold Machine.sampleIrq
  simp only []
  split
  · exact hanswered.observeDone
  · exact hanswered

theorem hostAccess {addr size : Nat} {act : Reg → State → State} {t : State}
    (hact : ∀ r, MachineInv (act r s)) (ht : hostAccess addr size act s = .next t) : MachineInv t := by
  obtain ⟨r, hr⟩ | hs | hrefused := hostAccess_cases addr size act s
  · obtain rfl : act r s = t := by simpa [hr] using ht
    exact hact r
  · obtain rfl : s = t := by simpa [hs] using ht
    exact h
  · simp [hrefused] at ht

/-- Reset of the block, over a memory written meanwhile or not. -/
theorem resetBlock {m : Memory} (hwf : m.wf = true) (hbounded : m.bounded = true) (stale : AddrSet)
    (draws : Nat) : MachineInv (resetBlock { s with mem := m, stale := stale, draws := draws }) where
  memWf := hwf
  memBounded := hbounded
  busyPhase := by simp [Status.reset]
  busyNotDone := by simp [Status.reset]
  busyNoResult := by simp [Status.reset]
  codeLegal := by simp [Status.reset]
  errorNoLength := by simp
  operandsHeld := by simp
  heldOrSettled := by simp
  settledApart := by simp
  writtenInside := ⟨by simp, h.retire_inside⟩

theorem platformReset {t : State} (ht : platformReset s = .next t) : MachineInv t := by
  obtain ⟨-, rfl⟩ | ⟨i, r, -, hr, rfl⟩ := platformReset_next ht
  · exact h.resetBlock h.memWf h.memBounded s.stale s.draws
  · refine h.resetBlock (Memory.wf_writeBytes _ _ h.memWf) ?_ _ _
    exact bounded_writeBytes_of_opResult hr h.memBounded (by simp)

/-! ### What the engine does -/

/-- The completion step: the operation in progress is the one the host owns the buffers of, and its bytes lie in
its destination view. -/
theorem exec {i : Instr} {t : State} (hp : s.phase = .busy i) (ht : exec i s = .next t) : MachineInv t := by
  obtain ⟨r, hr, rfl⟩ := exec_next ht
  have hsettled : ∀ o, s.owned.map (Ownership.settle s.mem r) = some o →
      o = Ownership.settle s.mem r { op := i, operands := s.operands, settled := none } := by
    intro o ho
    rw [h.operandsHeld i hp] at ho
    exact (Option.some.inj ho).symm
  exact
    { memWf := Memory.wf_writeBytes _ _ h.memWf
      memBounded := bounded_writeBytes_of_opResult hr h.memBounded rfl
      busyPhase := by simp
      busyNotDone := by simp
      busyNoResult := by simp
      codeLegal := completionCode_le r.code
      errorNoLength := by
        intro hcode
        have herror : r.code ≠ .ok := by simpa [completionCode_eq_zero_iff] using hcode
        simp [opResult_len_of_error hr herror]
      operandsHeld := by simp
      heldOrSettled := by
        intro o ho hnone
        rw [hsettled o ho] at hnone
        cases hnone
      settledApart := by
        intro o m ho hm
        obtain rfl := hsettled o ho
        obtain rfl := Option.some.inj hm
        exact ⟨h.memWf, h.memBounded, fun a ha => (read_writeBytes_of_opResult hr s.mem rfl ha).symm⟩
      writtenInside := by
        refine ⟨fun o m a ho hm ha => ?_, h.unseen_inside⟩
        obtain rfl := hsettled o ho
        obtain rfl := Option.some.inj hm
        exact opResult_range_inside hr ha }

theorem engineTurn {t : State} (ht : engineTurn s = .next t) : MachineInv t := by
  cases hp : s.phase with
  | idle =>
    obtain rfl : s = t := by simpa [engineTurn_idle hp] using ht
    exact h
  | busy i => exact h.exec hp (engineTurn_busy hp ▸ ht)

/-! ### What other agents do to memory -/

/-- The bytes a write disturbs are of the address space. -/
theorem disturbedBytes_lt {a x : Nat} (hx : AddrSet.mem (disturbedBytes a s.unseen) x = true) : x < 2 ^ 32 := by
  obtain ⟨c, hc, hx⟩ := disturbedBytes_sub hx
  exact (h.unseen_inside c hc x hx).2

/-- A byte another agent wrote and free bytes over what it disturbed go alike into memory and into what memory
would hold without the newest operation. -/
theorem written {a : Nat} (ha : a < 2 ^ 32) (master : Master) (b : Byte) {lost : AddrSet}
    (hlost : ∀ x, AddrSet.mem lost x = true → x < 2 ^ 32) :
    MachineInv (scatterClaims lost (landWrite master a b s)) where
  memWf := Memory.wf_scatter _ _ (Memory.wf_write _ _ h.memWf)
  memBounded := Memory.bounded_scatter _ (Memory.bounded_write _ h.memBounded ha) hlost
  busyPhase := h.busyPhase
  busyNotDone := h.busyNotDone
  busyNoResult := h.busyNoResult
  codeLegal := h.codeLegal
  errorNoLength := h.errorNoLength
  operandsHeld := by
    intro i hi
    simp only [scatterClaims_owned, landWrite_owned, h.operandsHeld i hi]
    rfl
  heldOrSettled := by
    intro o ho hnone
    obtain ⟨o', ho', rfl⟩ := written_owned ho
    exact h.heldOrSettled o' ho' (by simpa using hnone)
  settledApart := by
    intro o m ho hm
    obtain ⟨o', ho', rfl⟩ := written_owned ho
    obtain ⟨m', hm', rfl⟩ := written_settled hm
    obtain ⟨hwf, hbounded, hapart⟩ := h.settledApart o' m' ho' hm'
    have hwf' := Memory.wf_write a b hwf
    have hwf'' := Memory.wf_write a b h.memWf
    refine ⟨Memory.wf_scatter _ _ hwf', Memory.bounded_scatter _ (Memory.bounded_write _ hbounded ha) hlost,
      fun x hx => Memory.read_scatter_congr _ _ hwf' hwf'' ?_⟩
    rw [landWrite_mem, Memory.read_write hwf, Memory.read_write h.memWf, hapart x hx]
  writtenInside := by
    refine ⟨fun o m x ho hm hx => ?_, h.unseen_inside⟩
    obtain ⟨o', ho', rfl⟩ := written_owned ho
    obtain ⟨m', hm', rfl⟩ := written_settled hm
    exact h.writtenInside.1 o' m' x ho' hm' hx

/-- The outcome of a completed operation drawn again: its bytes go, within its destination view, over what memory
would hold without them. -/
theorem redoRaced {o : Ownership} {m : Settled} {t : State} (ho : s.owned = some o) (hm : o.settled = some m)
    (ht : redoRaced o m s = .next t) : MachineInv t := by
  have hp := h.idle_of_settled ho hm
  have hbusy := h.not_busy_of_idle hp
  obtain ⟨hwf, hbounded, -⟩ := h.settledApart o m ho hm
  obtain ⟨r, hr, hcases⟩ := redoRaced_next ht
  have hchanged : MachineInv { s with
      mem := m.unwritten.writeBytes o.operands.dstBase r.bytes, draws := s.draws + 1,
      owned := some { o with settled := some (m.record r o.operands.dstBase) } } :=
    { h with
      memWf := Memory.wf_writeBytes _ _ hwf
      memBounded := bounded_writeBytes_of_opResult hr hbounded rfl
      operandsHeld := fun i hi => by simp [hp] at hi
      heldOrSettled := by
        intro o' ho' hnone
        obtain rfl := Option.some.inj ho'
        cases hnone
      settledApart := by
        intro o' m' ho' hm'
        obtain rfl := Option.some.inj ho'
        obtain rfl := Option.some.inj hm'
        exact ⟨hwf, hbounded, fun a ha => (read_writeBytes_of_opResult hr m.unwritten rfl ha).symm⟩
      writtenInside := by
        refine ⟨fun o' m' a ho' hm' ha => ?_, h.unseen_inside⟩
        obtain rfl := Option.some.inj ho'
        obtain rfl := Option.some.inj hm'
        exact opResult_range_inside hr ha }
  obtain ⟨-, rfl⟩ | ⟨-, rfl⟩ := hcases
  · exact hchanged
  · exact { hchanged with
      busyNoResult := by simp [hbusy]
      codeLegal := completionCode_le r.code
      errorNoLength := by
        intro hcode
        have herror : r.code ≠ .ok := by simpa [completionCode_eq_zero_iff] using hcode
        simp [opResult_len_of_error hr herror] }

theorem agentWrite {master : Master} {a : Nat} {b : Byte} {t : State} (ha : a < 2 ^ 32)
    (ht : agentWrite master a b s = .next t) : MachineInv t := by
  have hwritten := h.written ha master b fun x hx => h.disturbedBytes_lt (a := a) hx
  obtain ⟨-, rfl⟩ | ⟨-, ⟨rfl, -⟩ | ⟨o, ho, ⟨-, rfl⟩ | ⟨m, hm, hredo⟩⟩⟩ := agentWrite_next ht
  · exact { h with }
  · exact hwritten
  · exact { hwritten with }
  · have hraced : MachineInv { scatterClaims (disturbedBytes a s.unseen) (landWrite master a b s) with
        race := if o.operands.inViews a then s.race.note o.operands a else s.race } := { hwritten with }
    exact hraced.redoRaced (by simp [ho]) (by simp [hm]) hredo

theorem agentRead {master : Master} {a : Nat} {t : State} (ht : agentRead master a s = .next t) :
    MachineInv t := by
  obtain ⟨answer, d, rfl⟩ := agentRead_next ht
  exact { h with }

/-! ### Every step -/

theorem receive {x : Input} {t : State} (ht : receive x s = .next t) : MachineInv t := by
  cases x with
  | engine => exact h.engineTurn ht
  | busWrite addr size data => exact h.hostAccess (fun r => h.writeReg r data) ht
  | busRead addr size => exact h.hostAccess h.hostReadReg ht
  | memWrite master addr value => exact h.agentWrite addr.isLt ht
  | memRead master addr => exact h.agentRead ht
  | cacheClean range =>
    obtain rfl : cacheClean range s = t := by simpa [Machine.receive] using ht
    exact { h with }
  | cacheInvalidate range =>
    obtain rfl : cacheInvalidate range s = t := by simpa [Machine.receive] using ht
    exact { h with }
  | sampleIrq =>
    obtain rfl : Machine.sampleIrq s = t := by simpa [Machine.receive] using ht
    exact h.sampleIrq
  | reset => exact h.platformReset ht

end

end MachineInv

/-- Settles O53: a step is the engine's turn or the receipt of one input, and each keeps the invariant. -/
theorem stepKeepsInvariant : Obligations.StepKeepsInvariant := by
  intro s t h ht
  cases hi : s.inputs with
  | nil => exact h.engineTurn (step_nil hi ▸ ht)
  | cons x rest =>
    rw [step_cons hi] at ht
    have hrest : MachineInv { s with inputs := rest } := { h with }
    exact hrest.receive ht

end Sys2Proof.Machine
end

section
/-! SUPPORT. The register window and the interrupt output as the host meets them (10_state.md R22 to R36, R41):
an aligned 32-bit access is a write or a read of its register, and what each of those does. -/

namespace Sys2Proof.Machine

theorem step_writes {s : State} {r : Reg} {w : Word} {rest : List Input} (h : Writes s r w rest) :
    step s = .next (writeReg r w { s with inputs := rest }) :=
  (step_cons h).trans (hostAccess_reg r _ { s with inputs := rest })

theorem step_reads {s : State} {r : Reg} {rest : List Input} (h : Reads s r rest) :
    step s = .next (hostReadReg r { s with inputs := rest }) :=
  (step_cons h).trans (hostAccess_reg r _ { s with inputs := rest })

/-! ### Writes -/

/-- 10_state.md R36: the two registers whose writes BUSY does not stop are STATUS and RESULT_LEN. -/
theorem writeReg_busy {s : State} {r : Reg} (w : Word) (hbusy : s.status.busy = true) (hstatus : r ≠ .status)
    (hlen : r ≠ .resultLen) : writeReg r w s = ignoreWrite s := by
  cases r
  case status => exact absurd rfl hstatus
  case resultLen => exact absurd rfl hlen
  all_goals exact if_pos hbusy

/-- Settles O9: the two exceptions are written as ever, and every other write is ignored. -/
theorem writesWhileBusyIgnored : Obligations.WritesWhileBusyIgnored := by
  intro s r w rest h hbusy
  rw [step_writes h]
  refine ⟨fun hstatus hlen => ?_, ?_, ?_⟩
  · rw [writeReg_busy (s := { s with inputs := rest }) w hbusy hstatus hlen]
    rfl
  · rintro rfl
    rfl
  · rintro rfl
    rfl

/-- Settles O12: RESULT_LEN is the register whose write is the identity. -/
theorem resultLenIsReadOnly : Obligations.ResultLenIsReadOnly := by
  intro s w rest h
  rw [step_writes h]
  rfl

/-- A write of an operand register while BUSY = 0: the register reads back as the value, and every other one, the
flags and memory are as before (10_state.md R28 to R31). -/
theorem writeReg_operand {s : State} {r : Reg} (w : Word) (hr : r ∈ [Reg.srcBase, .srcLen, .dstBase, .dstCap])
    (hbusy : s.status.busy = false) :
    let t := writeReg r w s
    readReg r t = w ∧ (∀ q, q ≠ r → readReg q t = readReg q s) ∧ t.status = s.status ∧ t.irqEn = s.irqEn ∧
      t.phase = s.phase := by
  simp only [List.mem_cons, List.not_mem_nil, or_false] at hr
  obtain rfl | rfl | rfl | rfl := hr <;>
    simp only [writeReg, hbusy, Bool.false_eq_true, if_false, and_true] <;>
    exact ⟨rfl, fun q hq => by cases q <;> simp_all [readReg]⟩

/-! ### Reads -/

theorem readReg_inputs (r : Reg) (s : State) (rest : List Input) :
    readReg r { s with inputs := rest } = readReg r s := by
  cases r <;> rfl

/-- What a read leaves (10_state.md R21): every field but the answer and the claims on the buffers. -/
theorem step_reads_frame {s : State} {r : Reg} {rest : List Input} (h : Reads s r rest) :
    ∃ owned unseen, step s = .next { s with
      inputs := rest, responses := .reg r (readReg r s) :: s.responses, owned := owned, unseen := unseen } := by
  rw [step_reads h, hostReadReg_frame, readReg_inputs]
  exact ⟨_, _, rfl⟩

/-- Settles O14: a read answers `readReg` and touches no field of the block. -/
theorem registerReads : Obligations.RegisterReads := by
  intro s r rest h
  obtain ⟨owned, unseen, hstep⟩ := step_reads_frame h
  refine ⟨_, readReg r s, hstep, rfl, ?_, ?_, ?_, ?_, ?_, ?_, rfl, rfl, rfl, rfl, rfl, rfl, rfl, rfl, rfl, rfl⟩
  all_goals
    rintro rfl
    rfl

/-- Settles O11: the write leaves the value in the register, and the read that follows answers what it holds. -/
theorem operandRegistersReadBack : Obligations.OperandRegistersReadBack := by
  intro s r w rest h hr hbusy
  have hwrite := step_writes h
  obtain ⟨hback, hother, hstatus, hirq, hphase⟩ := writeReg_operand w hr
    (s := { s with inputs := .busRead (s.platform.b64Base + r.offset) 4 :: rest }) hbusy
  obtain ⟨hmem, hplatform, hinputs, hresponses, -⟩ :=
    writeReg_frame r w { s with inputs := .busRead (s.platform.b64Base + r.offset) 4 :: rest }
  generalize writeReg r w _ = t at *
  have hreads : Reads t r rest := by rw [Reads, hinputs, hplatform]
  obtain ⟨owned, unseen, hstep⟩ := step_reads_frame hreads
  have hlen : r ≠ .resultLen := by rintro rfl; simp at hr
  refine ⟨t, _, hwrite, hstep, ?_, rfl, fun hq => ?_, fun hq => ?_, fun hq => ?_, fun hq => ?_, ?_, hstatus, hirq,
    hphase, hmem⟩
  · rw [hback, hresponses]
  · exact hother .srcBase hq.symm
  · exact hother .srcLen hq.symm
  · exact hother .dstBase hq.symm
  · exact hother .dstCap hq.symm
  · exact hother .resultLen hlen.symm

/-! ### STATUS and CFG -/

/-- 10_state.md R23: where the fields stand in the STATUS word. -/
theorem Status.toWord_getLsbD (f : Status) (i : Nat) :
    f.toWord.getLsbD i =
      if i = 0 then f.busy else if i = 1 then f.done else if i = 2 then f.ign else if i = 3 then false
      else f.code.getLsbD (i - 4) := by
  change (0#24 ++ f.code ++ 0#1 ++ BitVec.ofBool f.ign ++ BitVec.ofBool f.done
    ++ BitVec.ofBool f.busy).getLsbD i = _
  simp only [BitVec.getLsbD_append, BitVec.getLsbD_ofBool, BitVec.getLsbD_zero]
  match i with
  | 0 => simp
  | 1 => simp
  | 2 => simp
  | 3 => simp
  | i + 4 => simpa using BitVec.lt_of_getLsbD

theorem Status.toWord_fields (f : Status) :
    f.toWord.getLsbD 0 = f.busy ∧ f.toWord.getLsbD 1 = f.done ∧ f.toWord.getLsbD 2 = f.ign ∧
      f.toWord.getLsbD 3 = false ∧ f.toWord.extractLsb' 4 4 = f.code ∧ f.toWord.extractLsb' 8 24 = 0#24 := by
  refine ⟨f.toWord_getLsbD 0, f.toWord_getLsbD 1, f.toWord_getLsbD 2, f.toWord_getLsbD 3, ?_, ?_⟩
  · ext i hi
    rw [BitVec.getElem_extractLsb', f.toWord_getLsbD, if_neg (by omega), if_neg (by omega), if_neg (by omega),
      if_neg (by omega), Nat.add_sub_cancel_left, BitVec.getLsbD_eq_getElem hi]
  · ext i hi
    rw [BitVec.getElem_extractLsb', f.toWord_getLsbD, if_neg (by omega), if_neg (by omega), if_neg (by omega),
      if_neg (by omega), BitVec.getLsbD_of_ge _ _ (by omega), BitVec.getElem_zero]

/-- 10_state.md R23, by the bit: a 1 clears the flag, a 0 leaves it. -/
theorem Status.write_eq (f : Status) (w : Word) :
    f.write w = { f with
      done := if w.getLsbD 1 = true then false else f.done,
      ign := if w.getLsbD 2 = true then false else f.ign } := by
  rw [Status.write]
  cases w.getLsbD 1 <;> cases w.getLsbD 2 <;> simp

/-- Settles O10: the word's layout is that of `Status.toWord`, and a write is `Status.write` whatever BUSY is. -/
theorem statusRegister : Obligations.StatusRegister := by
  refine ⟨fun s rest h => ?_, fun s w rest h => ?_, rfl⟩
  · obtain ⟨owned, unseen, hstep⟩ := step_reads_frame h
    exact ⟨_, _, hstep, rfl, s.status.toWord_fields⟩
  · rw [step_writes h, ← Status.write_eq]
    rfl

theorem cfgWord_eq (irqEn : Bool) : cfgWord irqEn = if irqEn then 1#32 else 0#32 := by
  cases irqEn <;> decide

/-- Settles O13: CFG stores bit 0 and reads as that bit under 31 zeros. -/
theorem cfgRegister : Obligations.CfgRegister := by
  refine ⟨fun s w rest h hbusy => ?_, fun s rest h => ?_, rfl⟩
  · rw [step_writes h]
    simp only [writeReg, hbusy, Bool.false_eq_true, if_false]
  · obtain ⟨owned, unseen, hstep⟩ := step_reads_frame h
    exact ⟨_, _, hstep, rfl, cfgWord_eq s.irqEn⟩

/-! ### Misshapen accesses -/

/-- No register answers an access that is not 4 bytes wide or not at a multiple of 4 (10_state.md R35). -/
theorem accessedReg_misshapen (p : Platform) {n size : Nat} (h : size ≠ 4 ∨ n % 4 ≠ 0) :
    accessedReg p (p.b64Base + n) size = none := by
  unfold accessedReg
  split
  · rename_i haccess
    rw [Nat.add_sub_cancel_left]
    exact ofOffset_none (.inl (h.resolve_left (not_not_intro haccess.1)))
  · rfl

/-- An access that is not empty and starts in the window touches it. -/
theorem meets_window (p : Platform) {n size : Nat} (hn : n < 0x20) (hsize : 0 < size) :
    Range.meets { base := p.b64Base + n, len := size } p.window = true := by
  rw [Range.meets_iff]
  refine ⟨p.b64Base + n, ?_, ?_⟩ <;>
    simp only [Range.mem_iff, Platform.window, Config.windowSize] <;> omega

theorem hostAccess_misshapen (s : State) (act : Reg → State → State) {n size : Nat} (hn : n < 0x20)
    (hsize : 0 < size) (h : size ≠ 4 ∨ n % 4 ≠ 0) :
    hostAccess (s.platform.b64Base + n) size act s = .refused .unpredictableRegisterAccess := by
  simp only [hostAccess, meets_window s.platform hn hsize, accessedReg_misshapen s.platform h, if_true]

/-- Settles O16: the access touches the window and no register has its shape. -/
theorem misshapenAccessRefused : Obligations.MisshapenAccessRefused := by
  intro s n size rest hn hsize h
  refine ⟨fun w hi => ?_, fun hi => ?_⟩
  · exact (step_cons hi).trans (hostAccess_misshapen { s with inputs := rest } _ hn hsize h)
  · exact (step_cons hi).trans (hostAccess_misshapen { s with inputs := rest } _ hn hsize h)

/-! ### The interrupt -/

/-- Settles O17: a sample answers `State.irq` and touches no field of the block. -/
theorem sampledIrqLevel : Obligations.SampledIrqLevel := by
  refine ⟨fun s rest hi => ?_, rfl⟩
  have hstep : step s = .next (sampleIrq { s with inputs := rest }) := step_cons hi
  rw [hstep, sampleIrq_frame]
  exact ⟨_, rfl, rfl, rfl, rfl, rfl, rfl⟩

end Sys2Proof.Machine
end

section
/-! SUPPORT. What an operation that passes its checks does to memory, overlap of its views or not (20_memory.md R56,
R57, R59, R60): the body's result under the operand registers' own terms, then its completion step. -/

namespace Sys2Proof.Machine

/-! ### The operand registers in the statements' terms -/

theorem source_mem_iff (s : State) (a : Nat) : s.operands.source.mem a = true ↔ InSource s a :=
  Range.mem_iff _ _

theorem destination_mem_iff (s : State) (a : Nat) : s.operands.destination.mem a = true ↔ InDestination s a :=
  Range.mem_iff _ _

theorem viewsOK_iff (s : State) : s.operands.viewsOK = true ↔ ViewsValid s := by
  simp only [Operands.viewsOK, Bool.and_eq_true, viewOK_iff]
  rfl

/-- The checks of 40_encode.md R107, passed. -/
theorem encodeInvalid_eq_false {s : State} (hviews : ViewsValid s) (hcap : 0 < s.dstCap.toNat) :
    encodeInvalid s.operands = false := by
  have hbase : s.dstBase.toNat ≠ 0 := fun hzero => hviews.2.1 ⟨hzero, hcap⟩
  simp [encodeInvalid, (viewsOK_iff s).mpr hviews, Config.nullAddr, hbase, Nat.ne_of_gt hcap]

/-- The checks of 41_decode.md R138, passed. -/
theorem decodeInvalid_eq_false {s : State} (hviews : ViewsValid s) (hfour : s.srcLen.toNat % 4 = 0) :
    decodeInvalid s.operands = false := by
  simp [decodeInvalid, (viewsOK_iff s).mpr hviews, hfour]

/-! ### The completion step of a known result -/

/-- RESULT_LEN is within DST_CAP (60_exceptions.md R210; 93_implementation_defined.md U3). -/
theorem opResult_len_le {i : Instr} {v : Operands} {rc : Race} {s : State} {r : OpResult}
    (h : opResult i v rc s = .ok r) : r.len ≤ v.dstCap := by
  have hfree : freeDecodeLen v s ≤ v.dstCap := Nat.le_of_lt_succ (Nat.mod_lt _ (Nat.succ_pos _))
  cases i with
  | encode =>
    obtain ⟨-, ⟨rfl, -⟩ | ⟨rfl, -⟩ | ⟨rfl, -⟩ | ⟨-, hcap, hne, hbytes⟩⟩ := encodeResult_ok h
    · exact Nat.zero_le _
    · exact Nat.zero_le _
    · exact Nat.zero_le _
    · rw [reqCap_eq hne] at hcap
      obtain ⟨-, hlen, -⟩ | ⟨-, hlen, -⟩ | ⟨-, hlen, -⟩ := hbytes <;> omega
  | decode =>
    obtain ⟨-, ⟨rfl, -⟩ | ⟨rfl, -⟩ | ⟨hinvalid, hne, rfl | ⟨rfl, -⟩ | ⟨hsmall, hbytes⟩⟩⟩ := decodeResult_ok h
    · exact Nat.zero_le _
    · simp only []
      split
      · exact hfree
      · exact Nat.zero_le _
    · exact Nat.zero_le _
    · exact Nat.zero_le _
    · obtain ⟨-, hlen, -⟩ | ⟨-, -, hlen, -⟩ | ⟨-, hquiet, hlen, -⟩ := hbytes
      · omega
      · omega
      · exact hlen ▸ decodedCount_le_dstCap hinvalid hne hsmall hquiet

/-- Completion settles the newest operation and touches no other field of it. -/
theorem settle_owned (r : OpResult) (found : Memory) (owned : Option Ownership) :
    ∃ m, owned.map (Ownership.settle found r) = owned.map (fun o => { o with settled := some m }) ∧
      m.found = found ∧ m.unwritten = found := by
  cases owned with
  | none => exact ⟨⟨found, found, r.code, r.range 0⟩, rfl, rfl, rfl⟩
  | some o => exact ⟨⟨found, found, r.code, r.range o.operands.dstBase⟩, rfl, rfl, rfl⟩

/-- The completion step once the body has its result (60_exceptions.md R210): its code, its length and its bytes
from DST_BASE. -/
theorem exec_completed {i : Instr} {s : State} {r : OpResult} (h : opResult i s.operands s.race s = .ok r) :
    ∃ t, exec i s = .next t ∧ Completed s t (completionCode r.code) r.len ∧
      t.mem = s.mem.writeBytes s.dstBase.toNat r.bytes := by
  have hlen : r.len < 2 ^ 32 := (opResult_len_le h).trans_lt s.dstCap.isLt
  refine ⟨_, by rw [exec_eq, h]; rfl, ?_, rfl⟩
  exact
    { status := rfl
      resultLen := by simpa using hlen
      phase := rfl
      operands := ⟨rfl, rfl, rfl, rfl⟩
      irqEn := rfl
      outside := ⟨rfl, rfl, rfl, rfl, rfl⟩
      owned := settle_owned r s.mem s.owned
      unseen := rfl
      stale := rfl
      draws := rfl }

/-! ### ENCODE past its checks -/

/-- With its checks passed and no refused address ENCODE yields OK and `OLEN(N) + 1` bytes, free ones or its text,
whatever overlaps or races (40_encode.md R110; 20_memory.md R60). -/
theorem encodeResult_passed {v : Operands} {rc : Race} {s : State} (hdevice : v.touchesDevice s.platform = false)
    (hvalid : encodeInvalid v = false) (hcap : reqCap v.srcLen ≤ v.dstCap) (hne : v.srcLen ≠ 0)
    (hadmitted : rangeAdmitted s.platform v.source = true ∧ rangeAdmitted s.platform (encodeWriteRange v) = true) :
    ∃ bytes, encodeResult v rc s = .ok { code := .ok, len := encodedLen v.srcLen, bytes := bytes } ∧
      bytes.length = encodedLen v.srcLen + 1 := by
  simp only [encodeResult, hdevice, hvalid, Nat.not_lt.mpr hcap, hne, hadmitted, Bool.and_self, Bool.not_true,
    Bool.false_eq_true, if_false]
  split
  · exact ⟨_, rfl, by simp⟩
  · exact ⟨_, rfl, by simp [encodeText_length]⟩

/-- 20_memory.md R56: ENCODE past its checks writes inside its write range, whatever overlaps or races. -/
theorem encode_completes_within_range {s : State} (hviews : ViewsValid s) (hne : 0 < s.srcLen.toNat)
    (hroom : (s.srcLen.toNat + 2) / 3 * 4 + 1 ≤ s.dstCap.toNat) (hplain : PlainMemory s)
    (hadmitted : ∀ a, InSource s a ∨
      (s.dstBase.toNat ≤ a ∧ a ≤ s.dstBase.toNat + (s.srcLen.toNat + 2) / 3 * 4) → Admits s a) :
    ∃ t, exec .encode s = .next t ∧ Completed s t 0x0#4 ((s.srcLen.toNat + 2) / 3 * 4) ∧
      ∀ a, a < s.dstBase.toNat ∨ s.dstBase.toNat + (s.srcLen.toNat + 2) / 3 * 4 < a →
        t.mem.read a = s.mem.read a := by
  have hranges : rangeAdmitted s.platform s.operands.source = true ∧
      rangeAdmitted s.platform (encodeWriteRange s.operands) = true := by
    simp only [rangeAdmitted_iff, source_mem_iff]
    refine ⟨fun a ha => hadmitted a (.inl ha), fun a ha => hadmitted a (.inr ?_)⟩
    simp only [Range.mem_iff, encodeWriteRange, encodedLen_eq, operands_dstBase, operands_srcLen] at ha
    omega
  have hreq : reqCap s.operands.srcLen ≤ s.operands.dstCap := by
    rw [operands_srcLen, reqCap_eq hne.ne', encodedLen_eq]
    exact hroom
  obtain ⟨bytes, hresult, hlength⟩ := encodeResult_passed (rc := s.race) ((touchesDevice_iff s).mpr hplain)
    (encodeInvalid_eq_false hviews (by omega)) hreq hne.ne' hranges
  rw [encodedLen_eq, operands_srcLen] at hresult hlength
  obtain ⟨t, hexec, hcompleted, hmem⟩ := exec_completed (i := .encode) hresult
  refine ⟨t, hexec, hcompleted, fun a ha => ?_⟩
  rw [hmem]
  exact Memory.read_writeBytes_outside s.mem bytes (by omega)

/-- Settles O28: the frame of ENCODE's write range holds with an overlap as without one. -/
theorem encodeOverlap : Obligations.EncodeOverlap := by
  intro s hviews hne hroom hplain hadmitted _
  refine encode_completes_within_range hviews hne hroom hplain fun a ha => hadmitted a (ha.imp_right fun hrange => ?_)
  exact ⟨hrange.1, by omega⟩

/-! ### DECODE past its checks -/

/-- `out` of 41_decode.md R136, in the statements' spelling. -/
theorem decodedCount_eq_outCount (k : Nat) : decodedCount k = OutCount k := by
  have hmod : k % 4 < 4 := Nat.mod_lt _ (by decide)
  unfold decodedCount OutCount
  generalize k % 4 = m at hmod
  interval_cases m <;> rfl

theorem sourceByte_of_seen {rc : Race} (h : rc.sourceSeen = true) (s : State) (a : Nat) :
    sourceByte rc s a = s.mem.read a := if_pos h

/-- A source the engine sees needs what memory's own bytes say (41_decode.md R130). -/
theorem decLen_eq_required {s : State} (h : s.race.sourceSeen = true) :
    decLen s.operands s.race s = RequiredDecoded s := by
  simp only [decLen, sourceByte_of_seen h]
  rfl

/-- An undisturbed scan finds the `K` of memory's own bytes (41_decode.md R131). -/
theorem prefixLength_eq {s : State} {k : Nat} (hundisturbed : Undisturbed s) (hprefix : IsValidPrefix s k) :
    prefixLength s.operands s.race s = k := by
  obtain ⟨-, -, hsource, hseen⟩ := hundisturbed
  have hvalid : ∀ a, validAt s.race s a = (unmap8 (s.mem.read a)).2 := by
    simp [validAt, hsource, sourceByte_of_seen hseen]
  exact scanCount_eq hprefix.within (fun i hi => (hvalid _).trans (hprefix.valid i hi))
    (fun hlt => (hvalid _).trans (hprefix.stops hlt))

/-- `out ≤ DecLen` over memory's own bytes (41_decode.md R144). -/
theorem outCount_le_required {s : State} {k : Nat} (hundisturbed : Undisturbed s) (hprefix : IsValidPrefix s k)
    (hfour : s.srcLen.toNat % 4 = 0) (hne : s.srcLen.toNat ≠ 0) : OutCount k ≤ RequiredDecoded s := by
  have hk := prefixLength_eq hundisturbed hprefix
  obtain ⟨-, -, hsource, hseen⟩ := hundisturbed
  rw [← decodedCount_eq_outCount, ← decLen_eq_required hseen, ← hk, prefixLength_exact hsource]
  exact decodedCount_le_decLen s.race s hfour hne

/-- With its checks passed and no refused address DECODE yields OK and no more bytes than R136 counts of the `K`
the scan finds, free ones or those of its symbols (41_decode.md R143; 20_memory.md R60). -/
theorem decodeResult_passed {v : Operands} {rc : Race} {s : State} (hdevice : v.touchesDevice s.platform = false)
    (hvalid : decodeInvalid v = false) (hne : v.srcLen ≠ 0)
    (htail : memAdmit s.platform (v.srcBase + v.srcLen - 1) = true ∧
      memAdmit s.platform (v.srcBase + v.srcLen - 2) = true)
    (hsmall : decodeTooSmall v rc s = false) (hbus : decodeBusError v rc s = false) :
    ∃ bytes, decodeResult v rc s = .ok { code := .ok, len := decodeLength v rc s, bytes := bytes } ∧
      bytes.length ≤ decodedCount (prefixLength v rc s) := by
  simp only [decodeResult, hdevice, hvalid, hne, htail, hsmall, hbus, Bool.and_self, Bool.not_true,
    Bool.false_eq_true, if_false]
  split
  · obtain ⟨-, hcount, -⟩ := decodeWriteCount_le v rc s
    exact ⟨_, rfl, by simpa using hcount⟩
  · rename_i hquiet
    obtain ⟨-, hsource⟩ := not_raced_of_predictable (Bool.eq_false_of_not_eq_true hquiet)
    exact ⟨_, rfl, by rw [decodeSymbols_length, prefixLength_exact hsource]⟩

/-- No access that DECODE makes with `K = k` is refused. -/
theorem accessesAdmitted_of_touches {s : State} {k : Nat} (h : ∀ a, DecodeTouches s k a → Admits s a) :
    accessesAdmitted s.operands k s = true := by
  simp only [accessesAdmitted, Bool.and_eq_true, rangeAdmitted_iff, Range.mem_iff, scanRange, prefixCount,
    decodedCount_eq_outCount, operands_srcBase, operands_srcLen, operands_dstBase]
  refine ⟨fun a ha => h a (.inl ha), fun a ha => h a (.inr (.inr (.inr ?_)))⟩
  omega

/-- 20_memory.md R56: an undisturbed DECODE past its checks writes inside the range that R136 counts, whatever
overlaps. -/
theorem decode_completes_within_range {s : State} {k : Nat} (hviews : ViewsValid s)
    (hfour : s.srcLen.toNat % 4 = 0) (hne : s.srcLen.toNat ≠ 0) (hplain : PlainMemory s)
    (hundisturbed : Undisturbed s) (hprefix : IsValidPrefix s k) (hroom : RequiredDecoded s ≤ s.dstCap.toNat)
    (hadmitted : ∀ a, DecodeTouches s k a → Admits s a) :
    ∃ t, exec .decode s = .next t ∧ Completed s t 0x0#4 (decodeLength s.operands s.race s) ∧
      decodeLength s.operands s.race s ≤ s.dstCap.toNat ∧
      ∀ a, a < s.dstBase.toNat ∨ s.dstBase.toNat + OutCount k ≤ a → t.mem.read a = s.mem.read a := by
  have hk := prefixLength_eq hundisturbed hprefix
  obtain ⟨-, hracedTail, -, hseen⟩ := hundisturbed
  have hsmall : decodeTooSmall s.operands s.race s = false := by
    simpa [decodeTooSmall, hracedTail, decLen_eq_required hseen] using hroom
  have hbus : decodeBusError s.operands s.race s = false := by
    simp [decodeBusError, hk, accessesAdmitted_of_touches hadmitted]
  have htail : Admits s (s.srcBase.toNat + s.srcLen.toNat - 1) ∧ Admits s (s.srcBase.toNat + s.srcLen.toNat - 2) :=
    ⟨hadmitted _ (.inr (.inl (by omega))), hadmitted _ (.inr (.inr (.inl (by omega))))⟩
  obtain ⟨bytes, hresult, hlength⟩ := decodeResult_passed ((touchesDevice_iff s).mpr hplain)
    (decodeInvalid_eq_false hviews hfour) hne htail hsmall hbus
  rw [hk, decodedCount_eq_outCount] at hlength
  obtain ⟨t, hexec, hcompleted, hmem⟩ := exec_completed (i := .decode) hresult
  refine ⟨t, hexec, hcompleted, opResult_len_le (i := .decode) hresult, fun a ha => ?_⟩
  rw [hmem]
  exact Memory.read_writeBytes_outside s.mem bytes (by omega)

/-- Settles O38: the frame of DECODE's write range holds with an overlap as without one; R136's count stays in the
destination view because it is within DecLen (R144). -/
theorem decodeOverlap : Obligations.DecodeOverlap := by
  rintro s k hviews hfour hplain hundisturbed hprefix hroom hadmitted ⟨x, hx, -⟩
  have hne : s.srcLen.toNat ≠ 0 := by unfold InSource at hx; omega
  have hcount := outCount_le_required hundisturbed hprefix hfour hne
  have htouches : ∀ a, DecodeTouches s k a → InSource s a ∨ InDestination s a := by
    unfold DecodeTouches InSource InDestination
    omega
  obtain ⟨t, hexec, hcompleted, hlen, hframe⟩ := decode_completes_within_range hviews hfour hne hplain hundisturbed
    hprefix hroom fun a ha => hadmitted a (htouches a ha)
  exact ⟨t, _, hexec, hcompleted, hlen, hframe⟩

/-! ### Failed checks and refusals -/

/-- 20_memory.md R57: a body that fails a check yields no byte. -/
theorem opResult_bytes_of_failed {i : Instr} {v : Operands} {rc : Race} {s : State} {r : OpResult}
    (h : opResult i v rc s = .ok r) (hcode : r.code = .invalidArgument ∨ r.code = .insufficientCapacity) :
    r.bytes = [] := by
  have hok : r.code ≠ .ok := by obtain hc | hc := hcode <;> simp [hc]
  have hbus : r.code ≠ .busError := by obtain hc | hc := hcode <;> simp [hc]
  cases i with
  | encode =>
    obtain ⟨-, ⟨rfl, -⟩ | ⟨rfl, -⟩ | ⟨rfl, -⟩ | ⟨-, -, -, ⟨hc, -⟩ | ⟨hc, -⟩ | ⟨hc, -⟩⟩⟩ := encodeResult_ok h
    · rfl
    · rfl
    · rfl
    · exact absurd hc hbus
    · exact absurd hc hok
    · exact absurd hc hok
  | decode =>
    obtain ⟨-, ⟨rfl, -⟩ | ⟨rfl, -⟩ |
      ⟨-, -, rfl | ⟨rfl, -⟩ | ⟨-, ⟨hc, -⟩ | ⟨hc, -⟩ | ⟨hc, -⟩⟩⟩⟩ := decodeResult_ok h
    · rfl
    · rfl
    · rfl
    · rfl
    · exact absurd hc hbus
    · exact absurd hc hok
    · exact absurd hc hok

/-- Settles O42: the completion step writes the body's bytes, and a failed check yields none. -/
theorem failureWritesNothing : Obligations.FailureWritesNothing := by
  intro i s t h hcode
  obtain ⟨r, hr, rfl⟩ := exec_next h
  have hfailed : r.code = .invalidArgument ∨ r.code = .insufficientCapacity := by
    rw [complete_status, Status.complete_code] at hcode
    generalize r.code = c at hcode
    revert hcode
    cases c <;> decide
  simp [opResult_bytes_of_failed hr hfailed, Memory.writeBytes]

/-- The completion step is refused exactly where the body is. -/
theorem exec_refused_iff (i : Instr) (s : State) (e : Refusal) :
    exec i s = .refused e ↔ e = .sideEffectMemory ∧ ¬ PlainMemory s := by
  rw [← touchesDevice_iff, Bool.not_eq_false, ← opResult_error_iff i s.operands s.race s, exec_eq]
  cases opResult i s.operands s.race s <;> simp [finish]

/-- The block's own window is of the addresses with side effects (20_memory.md R59; log 20). -/
theorem window_sideEffects {p : Platform} {a : Nat} (hlow : p.b64Base ≤ a) (hhigh : a < p.b64Base + 0x20)
    (ha : a < 2 ^ 32) : AddrSet.mem p.sideEffects a = true :=
  (p.mem_sideEffects a).mpr ⟨.inl ((Range.mem_iff _ _).mpr ⟨hlow, hhigh⟩), ha⟩

/-- Settles O45: the one refusal of a body is `sideEffectMemory`, its first check; the window is among the addresses
it looks for. -/
theorem sideEffectMemoryRefused : Obligations.SideEffectMemoryRefused := by
  refine ⟨fun i s h => (exec_refused_iff i s _).mpr ⟨rfl, h⟩, fun i s r h => (exec_refused_iff i s r).mp h, ?_⟩
  rintro s a ⟨hlow, hhigh⟩ ha hview hplain
  simpa [window_sideEffects hlow hhigh ha] using hplain a hview

end Sys2Proof.Machine
end

section
/-! SUPPORT. System memory as its masters meet it (20_memory.md R50, R63, R67, R68; 70_reset_and_hazards.md R245):
what a read answers, what a write leaves, who keeps a claim on a buffer, and which source bytes the engine sees. -/

namespace Sys2Proof.Machine

/-! ### Reads -/

/-- A byte that no operation claims, and that for the host its caches do not hide, is exact (R245; log 13). -/
theorem readUnpredictable_eq_false {master : Master} {a : Nat} {s : State}
    (howned : ∀ o, s.owned = some o → o.operands.destination.mem a = false)
    (hunseen : ∀ c ∈ s.unseen, c.operands.destination.mem a = false)
    (hstale : master = .host → AddrSet.mem s.stale a = false) : readUnpredictable master a s = false := by
  have hclaimed : s.claimed a = false := by
    simp only [State.claimed, Bool.or_eq_false_iff, List.any_eq_false]
    refine ⟨?_, fun c hc => by simp [hunseen c hc]⟩
    cases ho : s.owned with
    | none => rfl
    | some o => exact howned o ho
  cases master with
  | host => simp [readUnpredictable, hclaimed, hstale rfl]
  | other => simp [readUnpredictable, hclaimed]

section
variable {master : Master} {a : Nat} {s : State} (hplain : AddrSet.mem s.platform.sideEffects a = false)
include hplain

theorem agentRead_refused (hadmit : memAdmit s.platform a = false) :
    agentRead master a s = .next { s with responses := .memRefused a :: s.responses } := by
  simp [agentRead, hplain, hadmit]

theorem agentWrite_refused (b : Byte) (hadmit : memAdmit s.platform a = false) :
    agentWrite master a b s = .next { s with responses := .memRefused a :: s.responses } := by
  simp [agentWrite, hplain, hadmit]

theorem agentRead_exact (hadmit : memAdmit s.platform a = true) (hexact : readUnpredictable master a s = false) :
    agentRead master a s = .next { s with responses := .mem a (s.mem.read a) :: s.responses } := by
  simp [agentRead, hplain, hadmit, hexact]

/-- A read of an admitted byte is answered with a byte, exact or free. -/
theorem agentRead_answered (hadmit : memAdmit s.platform a = true) :
    ∃ b draws, agentRead master a s = .next { s with responses := .mem a b :: s.responses, draws := draws } ∧
      (readUnpredictable master a s = false → b = s.mem.read a) := by
  cases hread : readUnpredictable master a s with
  | false => exact ⟨_, s.draws, agentRead_exact hplain hadmit hread, fun _ => rfl⟩
  | true => exact ⟨Config.freeByte s.draws a, s.draws + 1, by simp [agentRead, hplain, hadmit, hread], nofun⟩

end

/-- Settles O57: a read is one of `agentRead`'s two answers, and a refused access is answered as refused. -/
theorem agentAccessAnswered : Obligations.AgentAccessAnswered := by
  intro s m a rest hplain
  refine ⟨fun hi hadmit => ?_, fun hi hadmit => ?_⟩
  · obtain ⟨b, draws, hread, hexact⟩ :=
      agentRead_answered (s := { s with inputs := rest }) (master := m) hplain hadmit
    exact ⟨_, b, (step_cons hi).trans hread, rfl,
      fun howned hunseen hstale => hexact (readUnpredictable_eq_false howned hunseen hstale),
      rfl, rfl, rfl, rfl, rfl, rfl, rfl⟩
  · have hrefused : memAdmit s.platform a.toNat = false := Bool.eq_false_of_not_eq_true hadmit
    obtain hi | ⟨b, hi⟩ := hi
    · exact (step_cons hi).trans (agentRead_refused (s := { s with inputs := rest }) hplain hrefused)
    · exact (step_cons hi).trans (agentWrite_refused (s := { s with inputs := rest }) hplain b hrefused)

/-! ### Writes -/

/-- Making no byte free changes nothing. -/
theorem scatterClaims_nil (s : State) : scatterClaims [] s = s := by
  have howned : s.owned.map (Ownership.scatter s.draws []) = s.owned := by
    obtain _ | ⟨op, operands, _ | m⟩ := s.owned <;> rfl
  simp [scatterClaims, howned, Memory.scatter]

/-- A write outside every claimed buffer lands, and that is all it does. -/
theorem agentWrite_outside {master : Master} {a : Nat} (b : Byte) {s : State}
    (hplain : AddrSet.mem s.platform.sideEffects a = false) (hadmit : memAdmit s.platform a = true)
    (howned : ∀ o, s.owned = some o → o.operands.inViews a = false) (hunclaimed : Unclaimed s a) :
    agentWrite master a b s = .next (landWrite master a b s) := by
  have hlost : disturbedBytes a s.unseen = [] := by rw [disturbedBytes, disturbed_nil hunclaimed, List.flatMap_nil]
  simp only [agentWrite, hplain, hadmit, hlost, scatterClaims_nil, landWrite_owned, Bool.not_true, Bool.false_eq_true,
    if_false]
  cases ho : s.owned with
  | none => rfl
  | some o => simp [howned o ho]

/-- A race with an operation that has not completed is marked and no more. -/
theorem raceWith_unsettled {o : Ownership} (h : o.settled = none) (a : Nat) (s : State) :
    ∃ race, raceWith o a s = .next { s with race := race } :=
  ⟨if o.operands.inViews a then s.race.note o.operands a else s.race, by simp only [raceWith, h]⟩

/-- A write while the newest operation has not completed touches no register: it lands, frees what it disturbs, and
may be marked as a race. -/
theorem agentWrite_unsettled {master : Master} {a : Nat} (b : Byte) {s : State}
    (hplain : AddrSet.mem s.platform.sideEffects a = false) (hadmit : memAdmit s.platform a = true)
    (hunsettled : ∀ o, s.owned = some o → o.settled = none) :
    ∃ race, agentWrite master a b s =
      .next { scatterClaims (disturbedBytes a s.unseen) (landWrite master a b s) with race := race } := by
  simp only [agentWrite, hplain, hadmit, Bool.not_true, Bool.false_eq_true, if_false]
  split
  · exact ⟨s.race, rfl⟩
  · rename_i o ho
    obtain ⟨o', ho', rfl⟩ := written_owned ho
    split
    · exact raceWith_unsettled (by simp [hunsettled o' ho']) a _
    · exact ⟨s.race, rfl⟩

/-- No address of a destination view it does not hold lies between its ends. -/
theorem not_between_of_destination {v : Operands} {x : Nat} (h : v.destination.mem x = false) :
    ¬ (v.dstBase ≤ x ∧ x < v.dstBase + v.dstCap) := by
  have hmem := Range.mem_iff v.destination x
  rw [h] at hmem
  exact fun hin => Bool.false_ne_true (hmem.mpr hin)

/-- Drawing an outcome again changes the code, the length and memory, and keeps the claims (70_reset_and_hazards.md
R245). -/
theorem redoRaced_frame {o : Ownership} {m : Settled} {s t : State} (h : redoRaced o m s = .next t) :
    t.operands = s.operands ∧ t.phase = s.phase ∧ t.irqEn = s.irqEn ∧ t.unseen = s.unseen := by
  obtain ⟨r, -, ⟨-, rfl⟩ | ⟨-, rfl⟩⟩ := redoRaced_next h <;> exact ⟨rfl, rfl, rfl, rfl⟩

/-- Outside its destination view the operation drawn again leaves what memory would hold without it. -/
theorem redoRaced_mem_outside {o : Ownership} {m : Settled} {s t : State} (h : redoRaced o m s = .next t) {x : Nat}
    (hx : o.operands.destination.mem x = false) : t.mem.read x = m.unwritten.read x := by
  obtain ⟨r, hr, hcases⟩ := redoRaced_next h
  have hread := read_writeBytes_of_opResult hr m.unwritten (bs := r.bytes) rfl (not_between_of_destination hx)
  obtain ⟨-, rfl⟩ | ⟨-, rfl⟩ := hcases <;> exact hread

/-- A master's write keeps the operand registers, the phase, IRQ_EN and the claims. -/
theorem agentWrite_frame {master : Master} {a : Nat} {b : Byte} {s t : State}
    (h : agentWrite master a b s = .next t) :
    t.operands = s.operands ∧ t.phase = s.phase ∧ t.irqEn = s.irqEn ∧ t.unseen = s.unseen := by
  obtain ⟨-, rfl⟩ | ⟨-, ⟨rfl, -⟩ | ⟨o, -, ⟨-, rfl⟩ | ⟨m, -, hredo⟩⟩⟩ := agentWrite_next h
  · exact ⟨rfl, rfl, rfl, rfl⟩
  · exact ⟨rfl, rfl, rfl, rfl⟩
  · exact ⟨rfl, rfl, rfl, rfl⟩
  · exact (redoRaced_frame hredo :)

/-- A written byte, and free bytes over a set, at an address outside the set. -/
theorem read_scatter_write {m : Memory} (hwf : m.wf = true) (a : Nat) (b : Byte) (draw : Nat) {lost : AddrSet}
    {x : Nat} (hx : AddrSet.mem lost x = false) :
    ((m.write a b).scatter draw lost).read x = if x = a then b else m.read x := by
  rw [Memory.read_scatter_outside _ _ hx, Memory.read_write hwf]

/-- A write of an admitted byte, seen at an address that no unseen operation wrote and that is not of the newest
one's destination: what the operation drawn again takes back is not there. -/
theorem agentWrite_mem_of_inv {s t : State} (h : MachineInv s) {master : Master} {a : Nat} {b : Byte}
    (hadmit : memAdmit s.platform a = true) (ht : agentWrite master a b s = .next t) {x : Nat} (hheld : Unheld s x)
    (hx : ∀ o, s.owned = some o → o.operands.destination.mem x = false) :
    t.mem.read x = if x = a then b else s.mem.read x := by
  have hlost : AddrSet.mem (disturbedBytes a s.unseen) x = false := Bool.eq_false_of_not_eq_true fun hmem => by
    obtain ⟨c, hc, hwritten⟩ := disturbedBytes_sub hmem
    simp [hheld c hc] at hwritten
  have hlanded := read_scatter_write h.memWf a b s.draws hlost
  obtain ⟨hrefused, -⟩ | ⟨-, ⟨rfl, -⟩ | ⟨o, ho, ⟨-, rfl⟩ | ⟨m, hm, hredo⟩⟩⟩ := agentWrite_next ht
  · simp [hadmit] at hrefused
  · exact hlanded
  · exact hlanded
  · obtain ⟨hwf, -, hapart⟩ := h.settledApart o m ho hm
    rw [redoRaced_mem_outside hredo (hx o ho), read_scatter_write hwf a b s.draws hlost,
      hapart x (not_between_of_destination (hx o ho))]

/-- Settles O56: outside the claimed buffers the write lands and no more; while the newest operation has not
completed it draws no outcome; and an outcome drawn again stays in that operation's destination view. -/
theorem agentWriteLands : Obligations.AgentWriteLands := by
  refine ⟨fun s m a b rest hi hwf hadmit hplain howned hunclaimed => ?_,
    fun s m a b rest hi hadmit hplain hunsettled => ?_, fun s t m a b rest h hi hadmit ht => ?_⟩
  · have hwrite := agentWrite_outside (s := { s with inputs := rest }) (master := m) b hplain hadmit howned hunclaimed
    refine ⟨_, (step_cons hi).trans hwrite, ?_, fun x hx => ?_, rfl, rfl, rfl, rfl, rfl, rfl⟩
    · rw [landWrite_mem, Memory.read_write hwf, if_pos rfl]
    · rw [landWrite_mem, Memory.read_write hwf, if_neg hx]
  · obtain ⟨race, hwrite⟩ :=
      agentWrite_unsettled (s := { s with inputs := rest }) (master := m) b hplain hadmit hunsettled
    exact ⟨_, (step_cons hi).trans hwrite, rfl, rfl⟩
  · have hrest : MachineInv { s with inputs := rest } := { h with }
    have hwrite : agentWrite m a.toNat b { s with inputs := rest } = .next t := (step_cons hi).symm.trans ht
    exact ⟨fun x hheld hx => agentWrite_mem_of_inv hrest hadmit hwrite hheld hx, (agentWrite_frame hwrite :)⟩

/-! ### Claims on buffers -/

/-- Every operation the host can no longer see complete keeps its claim, though seeing another complete may take
bytes out of what it is known to have written (log 23). -/
def KeepsClaims (s t : State) : Prop := ∀ c ∈ s.unseen, ∃ d ∈ t.unseen, d.operands = c.operands

theorem KeepsClaims.of_eq {s t : State} (h : t.unseen = s.unseen) : KeepsClaims s t :=
  fun c hc => ⟨c, h ▸ hc, rfl⟩

theorem KeepsClaims.of_retire {s t : State} (h : t.unseen = s.retire) : KeepsClaims s t :=
  fun _ hc => h ▸ retire_keeps s hc

theorem KeepsClaims.observeDone (s : State) : KeepsClaims s (observeDone s) := by
  intro c hc
  rw [observeDone_unseen]
  split
  · exact release_keeps s hc
  · exact ⟨c, hc, rfl⟩

theorem KeepsClaims.engineTurn {s t : State} (h : engineTurn s = .next t) : KeepsClaims s t := by
  cases hp : s.phase with
  | idle =>
    obtain rfl : s = t := by simpa [engineTurn_idle hp] using h
    exact .of_eq rfl
  | busy i =>
    obtain ⟨r, -, rfl⟩ := exec_next (engineTurn_busy hp ▸ h)
    exact .of_eq rfl

/-- Only the acceptance of a command touches the claims, by adding one. -/
theorem KeepsClaims.writeReg (r : Reg) (w : Word) (s : State) : KeepsClaims s (writeReg r w s) := by
  cases r with
  | cmd =>
    simp only [Machine.writeReg, issue]
    split
    · exact .of_eq rfl
    · split
      · exact .of_retire rfl
      · exact .of_eq rfl
  | status => exact .of_eq rfl
  | resultLen => exact .of_eq rfl
  | _ =>
    simp only [Machine.writeReg]
    split <;> exact .of_eq rfl

theorem KeepsClaims.hostReadReg (r : Reg) (s : State) : KeepsClaims s (hostReadReg r s) := by
  cases r
  case status => exact .observeDone { s with responses := .reg .status (readReg .status s) :: s.responses }
  all_goals exact .of_eq rfl

theorem KeepsClaims.sampleIrq (s : State) : KeepsClaims s (sampleIrq s) := by
  simp only [Machine.sampleIrq]
  split
  · exact .observeDone { s with responses := .irq s.irq :: s.responses }
  · exact .of_eq rfl

theorem KeepsClaims.hostAccess {addr size : Nat} {act : Reg → State → State} {s t : State}
    (hact : ∀ r, KeepsClaims s (act r s)) (h : hostAccess addr size act s = .next t) : KeepsClaims s t := by
  obtain ⟨r, hr⟩ | hs | hrefused := hostAccess_cases addr size act s
  · obtain rfl : act r s = t := by simpa [hr] using h
    exact hact r
  · obtain rfl : s = t := by simpa [hs] using h
    exact .of_eq rfl
  · simp [hrefused] at h

theorem KeepsClaims.agentRead {master : Master} {a : Nat} {s t : State} (h : agentRead master a s = .next t) :
    KeepsClaims s t := by
  obtain ⟨answer, draws, rfl⟩ := agentRead_next h
  exact .of_eq rfl

theorem KeepsClaims.agentWrite {master : Master} {a : Nat} {b : Byte} {s t : State}
    (h : agentWrite master a b s = .next t) : KeepsClaims s t := by
  obtain ⟨-, -, -, hunseen⟩ := agentWrite_frame h
  exact .of_eq hunseen

theorem KeepsClaims.platformReset {s t : State} (h : platformReset s = .next t) : KeepsClaims s t := by
  obtain ⟨-, rfl⟩ | ⟨i, r, -, -, rfl⟩ := platformReset_next h <;> exact .of_retire rfl

/-- No input ends a claim. -/
theorem KeepsClaims.receive {x : Input} {s t : State} (h : receive x s = .next t) : KeepsClaims s t := by
  cases x with
  | engine => exact .engineTurn h
  | busWrite addr size data => exact .hostAccess (fun r => .writeReg r data s) h
  | busRead addr size => exact .hostAccess (fun r => .hostReadReg r s) h
  | memWrite master addr value => exact .agentWrite h
  | memRead master addr => exact .agentRead h
  | cacheClean range =>
    obtain rfl : cacheClean range s = t := by simpa [Machine.receive] using h
    exact .of_eq rfl
  | cacheInvalidate range =>
    obtain rfl : cacheInvalidate range s = t := by simpa [Machine.receive] using h
    exact .of_eq rfl
  | sampleIrq =>
    obtain rfl : Machine.sampleIrq s = t := by simpa [Machine.receive] using h
    exact .sampleIrq s
  | reset => exact .platformReset h

theorem KeepsClaims.step {s t : State} (h : step s = .next t) : KeepsClaims s t := by
  cases hi : s.inputs with
  | nil => exact .engineTurn (step_nil hi ▸ h)
  | cons x rest =>
    rw [step_cons hi] at h
    exact (KeepsClaims.receive h :)

/-! ### Observing DONE -/

theorem doneIsOwn_eq_true {f : Status} (hdone : f.done = true) (hcode : f.code ≠ 0x3#4) : f.doneIsOwn = true := by
  simp [Status.doneIsOwn, hdone, completionCode, hcode]

theorem doneIsOwn_eq_false {f : Status} (h : f.done = false ∨ f.code = 0x3#4) : f.doneIsOwn = false := by
  obtain h | h := h <;> simp [Status.doneIsOwn, completionCode, h]

/-- The state once the host was answered `x` and saw by it the newest operation complete (R245, R246). -/
def seenDone (x : Response) (s : State) : State :=
  { s with responses := x :: s.responses, owned := none, unseen := s.release }

theorem hostReadReg_status_own {s : State} (h : s.status.doneIsOwn = true) :
    hostReadReg .status s = seenDone (.reg .status s.status.toWord) s := by
  simp [hostReadReg_frame, h, seenDone, readReg]

theorem sampleIrq_own {s : State} (hirq : s.irq = true) (h : s.status.doneIsOwn = true) :
    sampleIrq s = seenDone (.irq true) s := by
  simp [sampleIrq_frame, hirq, h, seenDone]

/-- A DONE that is not the newest operation's own gives nothing back (log 23). -/
theorem hostReadReg_keeps_claims {s : State} (h : s.status.doneIsOwn = false) (r : Reg) :
    (hostReadReg r s).owned = s.owned ∧ (hostReadReg r s).unseen = s.unseen := by
  simp [hostReadReg_frame, h]

theorem sampleIrq_keeps_claims {s : State} (h : s.status.doneIsOwn = false) :
    (sampleIrq s).owned = s.owned ∧ (sampleIrq s).unseen = s.unseen := by
  simp [sampleIrq_frame, h]

/-- A legal command word written while BUSY = 0 is accepted (60_exceptions.md R208). -/
theorem step_cmd_accepts {s : State} {w : Word} {rest : List Input} {i : Instr} (h : Writes s .cmd w rest)
    (hbusy : s.status.busy = false) (hdecode : decode w = .ok i) :
    step s = .next (accept i { s with inputs := rest }) := by
  rw [step_writes h]
  simp [writeReg, issue, hbusy, hdecode]

/-- Reset of an idle block (70_reset_and_hazards.md R240). -/
theorem step_reset_idle {s : State} {rest : List Input} (hi : s.inputs = .reset :: rest) (hidle : s.phase = .idle) :
    step s = .next (resetBlock { s with inputs := rest }) := by
  rw [step_cons hi]
  simp only [receive, platformReset, hidle]

/-- The next read of a byte that nobody claims is exact. -/
theorem step_memRead_exact {s : State} {m : Master} {a : Word} {rest : List Input}
    (hi : s.inputs = .memRead m a :: rest) (howned : s.owned = none)
    (hclaims : ∀ c ∈ s.unseen, c.operands.destination.mem a.toNat = false) (hadmit : Admits s a.toNat)
    (hplain : AddrSet.mem s.platform.sideEffects a.toNat = false)
    (hstale : m = .host → AddrSet.mem s.stale a.toNat = false) :
    step s = .next { s with
      inputs := rest, responses := .mem a.toNat (s.mem.read a.toNat) :: s.responses } := by
  have hexact : readUnpredictable m a.toNat s = false :=
    readUnpredictable_eq_false (by simp [howned]) hclaims hstale
  exact (step_cons hi).trans (agentRead_exact (s := { s with inputs := rest }) hplain hadmit hexact)

/-- The next read after the observation of the newest operation's own DONE: that operation claims nothing. -/
theorem step_memRead_seenDone (x : Response) {s : State} {m : Master} {a : Word} {rest : List Input}
    (hi : s.inputs = .memRead m a :: rest)
    (hclaims : ∀ c ∈ s.unseen, c.operands.destination.mem a.toNat = false) (hadmit : Admits s a.toNat)
    (hplain : AddrSet.mem s.platform.sideEffects a.toNat = false)
    (hstale : m = .host → AddrSet.mem s.stale a.toNat = false) :
    step (seenDone x s) = .next { seenDone x s with
      inputs := rest, responses := .mem a.toNat (s.mem.read a.toNat) :: x :: s.responses } := by
  refine step_memRead_exact (s := seenDone x s) hi rfl (fun c hc => ?_) hadmit hplain hstale
  obtain ⟨d, hd, hoperands, -⟩ := release_sub (s := s) hc
  exact hoperands ▸ hclaims d hd

/-- Settles O59: the observation of the own DONE leaves no claim of the newest operation, an invalidate leaves no
stale address of its range, and no step loses a claim of an unseen operation (`KeepsClaims`). -/
theorem pollThenReadIsExact : Obligations.PollThenReadIsExact := by
  refine ⟨?afterStatus, ?afterIrq, ?afterInvalidate, ?invalidate, ?notOwn, ?retired, fun s t c h hc => ?_⟩
  case afterStatus =>
    intro s m a rest h hdone hcode hclaims hadmit hplain hstale
    have hstep := step_reads h
    rw [hostReadReg_status_own (s := { s with inputs := .memRead m a :: rest })
      (doneIsOwn_eq_true hdone hcode)] at hstep
    have hread := step_memRead_seenDone (.reg .status s.status.toWord)
      (s := { s with inputs := .memRead m a :: rest }) rfl hclaims hadmit hplain hstale
    obtain ⟨-, hdoneBit, -⟩ := s.status.toWord_fields
    exact ⟨_, _, _, hstep, rfl, hread, rfl, hdoneBit.trans hdone, rfl⟩
  case afterIrq =>
    intro s m a rest hi hdone hirq hcode hclaims hadmit hplain hstale
    have hstep : step s = .next (sampleIrq { s with inputs := .memRead m a :: rest }) := step_cons hi
    rw [sampleIrq_own (s := { s with inputs := .memRead m a :: rest }) (by simp [State.irq, hdone, hirq])
      (doneIsOwn_eq_true hdone hcode)] at hstep
    have hread := step_memRead_seenDone (.irq true)
      (s := { s with inputs := .memRead m a :: rest }) rfl hclaims hadmit hplain hstale
    exact ⟨_, _, hstep, rfl, hread, rfl, rfl⟩
  case afterInvalidate =>
    intro s m a r rest hi howned hclaims hr hadmit hplain
    have hread := step_memRead_exact (s := cacheInvalidate r { s with inputs := .memRead m a :: rest }) rfl
      howned hclaims hadmit hplain fun _ => Bool.eq_false_of_not_eq_true fun hmem =>
        ((AddrSet.mem_remove _ _ _).mp hmem).2 hr
    exact ⟨_, _, step_cons hi, hread, rfl, rfl⟩
  case invalidate =>
    intro s r rest hi
    exact ⟨_, step_cons hi, rfl, rfl, rfl, fun x => AddrSet.mem_remove s.stale r x⟩
  case notOwn =>
    intro s rest h hnot
    have hnotOwn := doneIsOwn_eq_false hnot
    obtain h | hi := h
    · exact ⟨_, step_reads h, hostReadReg_keeps_claims (s := { s with inputs := rest }) hnotOwn .status⟩
    · exact ⟨_, step_cons hi, sampleIrq_keeps_claims (s := { s with inputs := rest }) hnotOwn⟩
  case retired =>
    rintro s rest o m ho hm (⟨w, i, h, hdecode, hbusy⟩ | ⟨hi, hidle⟩)
    · exact ⟨_, step_cmd_accepts h hbusy hdecode, _, retire_newest (s := { s with inputs := rest }) ho hm, rfl⟩
    · exact ⟨_, step_reset_idle hi hidle, _, retire_newest (s := { s with inputs := rest }) ho hm, rfl⟩
  exact KeepsClaims.step h c hc

/-! ### Which source bytes the engine sees -/

/-- 20_memory.md R67: the source is visible on a coherent platform, or where the host cleaned all of it. -/
theorem sourceVisible_iff (s : State) :
    s.sourceVisible = true ↔
      s.platform.coherent = true ∨ ∀ a, InSource s a → AddrSet.mem s.clean a = true := by
  simp only [State.sourceVisible, Bool.or_eq_true, AddrSet.covers_iff, source_mem_iff]

/-- Settles O60: acceptance judges the visibility of the source, and a clean puts its range among the cleaned
addresses. -/
theorem sourceSeenWhenCleaned : Obligations.SourceSeenWhenCleaned := by
  refine fun s i => ⟨sourceVisible_iff s, fun r w rest hi hbusy hdecode hcleaned => ?_⟩
  have hvisible : (cacheClean r { s with inputs := rest }).sourceVisible = true :=
    (sourceVisible_iff _).mpr (.inr fun a ha => (AddrSet.mem_iff _ a).mpr ⟨r, List.mem_cons_self, hcleaned a ha⟩)
  have hcmd := step_cmd_accepts (s := cacheClean r { s with inputs := .busWrite s.platform.b64Base 4 w :: rest })
    rfl hbusy hdecode
  exact ⟨_, _, step_cons hi, hcmd, rfl, hvisible⟩

end Sys2Proof.Machine
end

section
/-! SUPPORT. Command words and register offsets (30_encoding.md R70 to R74): a word is its two fields, the decoder
accepts exactly the words the encoder writes, and an offset of the window names at most one register. -/

namespace Sys2Proof

/-! ### The fields of a word -/

@[simp] theorem CmdWord.ofWord_toWord (c : CmdWord) : CmdWord.ofWord c.toWord = c := by
  have hrsvd : c.toWord.extractLsb' 4 28 = c.rsvd := BitVec.extractLsb'_append_eq_left
  have hop : c.toWord.extractLsb' 0 4 = c.op := BitVec.extractLsb'_append_eq_right
  simp only [ofWord, hrsvd, hop]

@[simp] theorem CmdWord.toWord_ofWord (w : Word) : (CmdWord.ofWord w).toWord = w :=
  (BitVec.extractLsb'_append_extractLsb'_eq_extractLsb' rfl).trans BitVec.extractLsb'_eq_self

theorem CmdWord.eq_toWord_iff (w : Word) (c : CmdWord) : w = c.toWord ↔ CmdWord.ofWord w = c :=
  ⟨fun h => h ▸ ofWord_toWord c, fun h => h ▸ (toWord_ofWord w).symm⟩

theorem CmdWord.reservedClear_iff (c : CmdWord) : c.reservedClear = true ↔ c.rsvd = 0#28 := beq_iff_eq

/-! ### The selectors (R71) -/

theorem opOf_eq_some_iff (op : BitVec 4) (i : Instr) : opOf op = some i ↔ op = selectorOf i := by
  constructor
  · intro h
    unfold opOf at h
    split at h
    · obtain rfl := Option.some.inj h
      rfl
    · obtain rfl := Option.some.inj h
      rfl
    · contradiction
  · rintro rfl
    cases i <;> rfl

theorem opOf_op_eq_none_iff (c : CmdWord) : opOf c.op = none ↔ c.opAssigned = false := by
  simp only [Option.eq_none_iff_forall_ne_some, ne_eq, opOf_eq_some_iff, CmdWord.opAssigned, Bool.or_eq_false_iff,
    beq_eq_false_iff_ne]
  constructor
  · exact fun h => ⟨h .encode, h .decode⟩
  · rintro ⟨hencode, hdecode⟩ (_ | _)
    · exact hencode
    · exact hdecode

/-! ### The decoder (R72) -/

theorem encode_eq_iff (w : Word) (i : Instr) :
    w = encode i ↔ opOf (CmdWord.ofWord w).op = some i ∧ (CmdWord.ofWord w).reservedClear = true := by
  rw [encode, CmdWord.eq_toWord_iff, opOf_eq_some_iff, CmdWord.reservedClear_iff]
  cases CmdWord.ofWord w
  simp [and_comm]

theorem decode_of_unassigned {w : Word} (h : opOf (CmdWord.ofWord w).op = none) :
    decode w = .error .unassignedOp := by
  simp [decode, h]

theorem decode_of_assigned {w : Word} {i : Instr} (h : opOf (CmdWord.ofWord w).op = some i) :
    decode w = if (CmdWord.ofWord w).reservedClear then .ok i else .error .reservedBitsSet := by
  simp [decode, h]

theorem decode_eq_ok_iff (w : Word) (i : Instr) : decode w = .ok i ↔ w = encode i := by
  rw [encode_eq_iff]
  cases h : opOf (CmdWord.ofWord w).op with
  | none => simp [decode_of_unassigned h]
  | some j => simp [decode_of_assigned h, ite_eq_iff, and_comm]

theorem decode_encode (i : Instr) : decode (encode i) = .ok i := (decode_eq_ok_iff _ i).mpr rfl

theorem decode_eq_unassignedOp {w : Word} (h : (CmdWord.ofWord w).opAssigned = false) :
    decode w = .error .unassignedOp :=
  decode_of_unassigned ((opOf_op_eq_none_iff _).mpr h)

theorem decode_eq_reservedBitsSet {w : Word} {i : Instr} (hop : (CmdWord.ofWord w).op = selectorOf i)
    (hrsvd : (CmdWord.ofWord w).reservedClear = false) : decode w = .error .reservedBitsSet := by
  rw [decode_of_assigned ((opOf_eq_some_iff _ i).mpr hop), hrsvd]
  rfl

/-- Settles O1: a word that is neither ENCODE's nor DECODE's is the word of no instruction. -/
theorem commandWordsDecode : Obligations.CommandWordsDecode := by
  intro w
  split_ifs with hencode hdecode
  · exact congrArg Except.toOption ((decode_eq_ok_iff w .encode).mpr hencode)
  · exact congrArg Except.toOption ((decode_eq_ok_iff w .decode).mpr hdecode)
  · cases h : decode w with
    | error e => rfl
    | ok i =>
      have hw := (decode_eq_ok_iff w i).mp h
      cases i
      · exact absurd hw hencode
      · exact absurd hw hdecode

/-- Settles O2: the two legal words are what the encoder writes; of the others, OP is unassigned, or it is assigned
and RSVD is not 0. -/
theorem wordsFromTheTable : Obligations.WordsFromTheTable :=
  ⟨decode_encode .encode, decode_encode .decode,
    decode_eq_unassignedOp (by decide), decode_eq_unassignedOp (by decide),
    decode_eq_reservedBitsSet (i := .encode) (by decide) (by decide),
    decode_eq_reservedBitsSet (i := .decode) (by decide) (by decide),
    decode_eq_unassignedOp (by decide)⟩

/-- Settles O3: the decoder accepts exactly the encoder's words (`decode_eq_ok_iff`). -/
theorem decodeEncodeAgree : Obligations.DecodeEncodeAgree :=
  ⟨fun i _ => decode_encode i, fun w i => (decode_eq_ok_iff w i).mp⟩

namespace Machine

theorem ofOffset_eq_some_iff (n : Nat) (r : Reg) : Reg.ofOffset n = some r ↔ n = r.offset := by
  constructor
  · intro h
    exact (beq_iff_eq.mp (List.find?_some h :)).symm
  · rintro rfl
    exact ofOffset_offset r

/-- Settles O4: the offsets are the table's, and looking one up is inverse to them. -/
theorem registerOffsets : Obligations.RegisterOffsets :=
  ⟨⟨rfl, rfl, rfl, rfl, rfl, rfl, rfl, rfl⟩, ofOffset_eq_some_iff⟩

end Machine

end Sys2Proof
end

section
/-! SUPPORT. What ENCODE leaves (40_encode.md R102 to R112): memory as it was where a check fails or the source is
empty, and otherwise its text byte by byte, which is symbols of the alphabet and then pads. -/

namespace Sys2Proof.Machine

/-! ### Without a byte written (R107, R108, R112) -/

/-- The cases of 40_encode.md R107. -/
theorem encodeInvalid_iff (s : State) :
    encodeInvalid s.operands = true ↔
      ¬ ViewValid s.srcBase.toNat s.srcLen.toNat ∨ ¬ ViewValid s.dstBase.toNat s.dstCap.toNat ∨
        (s.srcLen.toNat > 0 ∧ s.dstBase = 0#32) ∨ (s.srcLen.toNat > 0 ∧ s.dstCap = 0#32) := by
  have hviews : s.operands.viewsOK = false ↔
      ¬ ViewValid s.srcBase.toNat s.srcLen.toNat ∨ ¬ ViewValid s.dstBase.toNat s.dstCap.toNat := by
    rw [← Bool.not_eq_true, viewsOK_iff, ViewsValid, not_and_or]
  simp only [encodeInvalid, Bool.or_eq_true, Bool.not_eq_true', hviews, Bool.and_eq_true, decide_eq_true_eq,
    beq_iff_eq, and_or_left, or_assoc, BitVec.toNat_eq, BitVec.toNat_ofNat, Nat.zero_mod]
  rfl

/-- A body that yields no byte completes with memory as it was. -/
theorem exec_completed_of_no_bytes {i : Instr} {s : State} {r : OpResult}
    (h : opResult i s.operands s.race s = .ok r) (hbytes : r.bytes = []) :
    ∃ t, exec i s = .next t ∧ Completed s t (completionCode r.code) r.len ∧ t.mem = s.mem := by
  obtain ⟨t, hexec, hcompleted, hmem⟩ := exec_completed h
  exact ⟨t, hexec, hcompleted, by rw [hmem, hbytes]; rfl⟩

/-- Settles O20: the argument check is the first of the body after that of side effects. -/
theorem encodeInvalidArgument : Obligations.EncodeInvalidArgument := by
  intro s hplain hcases
  have hdevice := (touchesDevice_iff s).mpr hplain
  have hinvalid := (encodeInvalid_iff s).mpr hcases
  have hresult : opResult .encode s.operands s.race s = .ok (.failed .invalidArgument) := by
    simp [opResult, encodeResult, hdevice, hinvalid]
  exact exec_completed_of_no_bytes hresult rfl

/-- Settles O21: with no case of R107 the capacity check decides, by `reqCap`. -/
theorem encodeInsufficientCapacity : Obligations.EncodeInsufficientCapacity := by
  intro s hplain hviews hargs hcap
  have hdevice := (touchesDevice_iff s).mpr hplain
  have hvalid : encodeInvalid s.operands = false := by
    rw [← Bool.not_eq_true, encodeInvalid_iff, ← and_or_left]
    rintro (hsrc | hdst | hnull)
    · exact hsrc hviews.1
    · exact hdst hviews.2
    · exact hargs hnull
  have hsmall : s.operands.dstCap < reqCap s.operands.srcLen := hcap
  have hresult : opResult .encode s.operands s.race s = .ok (.failed .insufficientCapacity) := by
    simp only [opResult, encodeResult, hdevice, hvalid, hsmall, Bool.false_eq_true, if_false, if_true]
  exact exec_completed_of_no_bytes hresult rfl

/-- Settles O22: an empty source needs no capacity and no destination address. -/
theorem encodeEmptySource : Obligations.EncodeEmptySource := by
  intro s hplain hviews hempty
  have hdevice := (touchesDevice_iff s).mpr hplain
  have hvalid : encodeInvalid s.operands = false := by
    simp [encodeInvalid, (viewsOK_iff s).mpr hviews, hempty]
  have hresult : opResult .encode s.operands s.race s = .ok { code := .ok, len := 0, bytes := [] } := by
    simp [opResult, encodeResult, hdevice, hvalid, hempty, reqCap]
  exact exec_completed_of_no_bytes hresult rfl

/-- R111 (a) for an empty source: whatever the checks find, RESULT_LEN is 0. -/
theorem encode_empty_resultLen {s t : State} (hempty : s.srcLen.toNat = 0) (h : exec .encode s = .next t) :
    t.resultLen = 0#32 := by
  obtain ⟨r, hr, rfl⟩ := exec_next h
  have hlen : r.len = 0 := by
    obtain ⟨-, ⟨rfl, -⟩ | ⟨rfl, -⟩ | ⟨rfl, -⟩ | ⟨-, -, hne, -⟩⟩ := encodeResult_ok hr
    · rfl
    · rfl
    · rfl
    · exact absurd hempty hne
  simp [hlen]

/-! ### The bytes of a run -/

/-- The text of the source of ENCODE, as the engine reads it. -/
def encodedText (s : State) : List Byte :=
  encodeText (sourceBytes s.race s s.srcBase.toNat s.srcLen.toNat)

theorem encodedText_length (s : State) : (encodedText s).length = (s.srcLen.toNat + 2) / 3 * 4 := by
  rw [encodedText, encodeText_length, sourceBytes_length, encodedLen_eq]

theorem unpredictable_of_quiet {s : State} (h : Quiet s) : unpredictable s.operands s.race = false := by
  obtain ⟨hraced, htail, hsource, -⟩ := h.undisturbed
  have hoverlap : s.operands.overlap = false := by
    rw [← Bool.not_eq_true, Operands.overlap_iff]
    rintro ⟨a, hsrc, hdst⟩
    exact h.disjoint a ⟨(source_mem_iff s a).mp hsrc, (destination_mem_iff s a).mp hdst⟩
  simp [unpredictable, hoverlap, hraced, htail, hsource]

/-- With OK on a source that is not empty, and no hazard, ENCODE yields its text and the terminator. -/
theorem encodeResult_bytes_of_predictable {v : Operands} {rc : Race} {s : State} {r : OpResult}
    (h : encodeResult v rc s = .ok r) (hcode : r.code = .ok) (hne : v.srcLen ≠ 0)
    (hquiet : unpredictable v rc = false) :
    r.bytes = encodeText (sourceBytes rc s v.srcBase v.srcLen) ++ [terminator] := by
  unfold encodeResult at h
  rw [if_neg hne, hquiet] at h
  split at h
  · cases h
  split at h
  · cases h; cases hcode
  split at h
  · cases h; cases hcode
  split at h
  · cases h; cases hcode
  · cases h; rfl

/-- A written byte, read back by its place in the list, in a canonical memory. -/
theorem read_writeBytes_of_getElem? {m : Memory} (hwf : m.wf = true) {a i : Nat} {bs : List Byte} {b : Byte}
    (h : bs[i]? = some b) : (m.writeBytes a bs).read (a + i) = b := by
  obtain ⟨hi, rfl⟩ := List.getElem?_eq_some_iff.mp h
  exact Memory.read_writeBytes_inside hwf bs hi

/-- What a run of ENCODE leaves: its text from DST_BASE, the terminator after it, and the frame. -/
theorem EncodeRuns.completes {s : State} (h : EncodeRuns s) :
    ∃ t, exec .encode s = .next t ∧ Completed s t 0x0#4 ((s.srcLen.toNat + 2) / 3 * 4) ∧
      (∀ i b, (encodedText s)[i]? = some b → t.mem.read (s.dstBase.toNat + i) = b) ∧
      t.mem.read (s.dstBase.toNat + (s.srcLen.toNat + 2) / 3 * 4) = terminator ∧
      ∀ a, a < s.dstBase.toNat ∨ s.dstBase.toNat + (s.srcLen.toNat + 2) / 3 * 4 < a →
        t.mem.read a = s.mem.read a := by
  obtain ⟨t, hexec, hcompleted, hframe⟩ :=
    encode_completes_within_range h.views h.nonempty h.room h.quiet.plain h.admitted
  obtain ⟨r, hr, rfl⟩ := exec_next hexec
  have hcode : r.code = .ok := (completionCode_eq_zero_iff _).mp (congrArg Status.code hcompleted.status)
  have hbytes : r.bytes = encodedText s ++ [terminator] :=
    encodeResult_bytes_of_predictable hr hcode h.nonempty.ne' (unpredictable_of_quiet h.quiet)
  refine ⟨_, hexec, hcompleted, fun i b hi => ?_, ?_, hframe⟩
  · obtain ⟨hlt, -⟩ := List.getElem?_eq_some_iff.mp hi
    refine read_writeBytes_of_getElem? h.canonical ?_
    rw [hbytes, List.getElem?_append_left hlt, hi]
  · refine read_writeBytes_of_getElem? h.canonical ?_
    rw [hbytes, ← encodedText_length, List.getElem?_concat_length]

/-- Settles O23: of what a run leaves, the code, the length, the terminator and the frame. -/
theorem encodeCompletesOk : Obligations.EncodeCompletesOk := by
  intro s h
  obtain ⟨t, hexec, hcompleted, -, hterminator, hframe⟩ := h.completes
  exact ⟨t, hexec, hcompleted, hterminator, hframe⟩

/-! ### The symbols as numbers (R102 to R104) -/

/-- A field appended below another, as a number. -/
theorem toNat_append_add {m n : Nat} (x : BitVec m) (y : BitVec n) :
    (x ++ y).toNat = x.toNat * 2 ^ n + y.toNat := by
  rw [BitVec.toNat_append, ← Nat.shiftLeft_add_eq_or_of_lt y.isLt, Nat.shiftLeft_eq]

theorem toNat_extractLsb'_div {n : Nat} (b : BitVec n) (start len : Nat) :
    (b.extractLsb' start len).toNat = b.toNat / 2 ^ start % 2 ^ len := by
  rw [BitVec.extractLsb'_toNat, Nat.shiftRight_eq_div_pow]

theorem symbol1_eq (b0 : Byte) : symbol1 b0 = map6 (BitVec.ofNat 6 (b0.toNat / 4)) := by
  refine congrArg map6 (BitVec.eq_of_toNat_eq ?_)
  rw [toNat_extractLsb'_div, BitVec.toNat_ofNat]
  omega

theorem symbol2_eq (b0 b1 : Byte) :
    symbol2 b0 b1 = map6 (BitVec.ofNat 6 (b0.toNat % 4 * 16 + b1.toNat / 16)) := by
  refine congrArg map6 (BitVec.eq_of_toNat_eq ?_)
  have := b1.isLt
  rw [toNat_append_add, toNat_extractLsb'_div, toNat_extractLsb'_div, BitVec.toNat_ofNat]
  omega

theorem symbol3_eq (b1 b2 : Byte) :
    symbol3 b1 b2 = map6 (BitVec.ofNat 6 (b1.toNat % 16 * 4 + b2.toNat / 64)) := by
  refine congrArg map6 (BitVec.eq_of_toNat_eq ?_)
  have := b2.isLt
  rw [toNat_append_add, toNat_extractLsb'_div, toNat_extractLsb'_div, BitVec.toNat_ofNat]
  omega

theorem symbol4_eq (b2 : Byte) : symbol4 b2 = map6 (BitVec.ofNat 6 (b2.toNat % 64)) := by
  refine congrArg map6 (BitVec.eq_of_toNat_eq ?_)
  rw [toNat_extractLsb'_div, BitVec.toNat_ofNat]
  omega

/-- The 24-bit number of a group, its first byte the most significant (40_encode.md R102). -/
def groupWord (b0 b1 b2 : Byte) : Nat := b0.toNat * 2 ^ 16 + b1.toNat * 2 ^ 8 + b2.toNat

/-- The four symbols are MAP6 of the 6-bit fields of the group's number, from the top. -/
theorem symbols_eq_fields (b0 b1 b2 : Byte) :
    symbol1 b0 = map6 (BitVec.ofNat 6 (groupWord b0 b1 b2 / 2 ^ 18)) ∧
    symbol2 b0 b1 = map6 (BitVec.ofNat 6 (groupWord b0 b1 b2 / 2 ^ 12 % 64)) ∧
    symbol3 b1 b2 = map6 (BitVec.ofNat 6 (groupWord b0 b1 b2 / 2 ^ 6 % 64)) ∧
    symbol4 b2 = map6 (BitVec.ofNat 6 (groupWord b0 b1 b2 % 64)) := by
  have h0 := b0.isLt
  have h1 := b1.isLt
  have h2 := b2.isLt
  have hfield1 : b0.toNat / 4 = groupWord b0 b1 b2 / 2 ^ 18 := by unfold groupWord; omega
  have hfield2 : b0.toNat % 4 * 16 + b1.toNat / 16 = groupWord b0 b1 b2 / 2 ^ 12 % 64 := by
    unfold groupWord; omega
  have hfield3 : b1.toNat % 16 * 4 + b2.toNat / 64 = groupWord b0 b1 b2 / 2 ^ 6 % 64 := by
    unfold groupWord; omega
  have hfield4 : b2.toNat % 64 = groupWord b0 b1 b2 % 64 := by unfold groupWord; omega
  exact ⟨hfield1 ▸ symbol1_eq b0, hfield2 ▸ symbol2_eq b0 b1, hfield3 ▸ symbol3_eq b1 b2,
    hfield4 ▸ symbol4_eq b2⟩

/-- The bytes of a source the engine sees are memory's. -/
theorem sourceBytes_getElem_of_seen {rc : Race} (hseen : rc.sourceSeen = true) (s : State) (a n i : Nat)
    (h : i < (sourceBytes rc s a n).length) : (sourceBytes rc s a n)[i] = s.mem.read (a + i) := by
  rw [sourceBytes_getElem, sourceByte_of_seen hseen]

/-- Settles O24: the text's group `j` (`encodeText_group`), its symbols read as fields of the group's number. -/
theorem encodeFullGroups : Obligations.EncodeFullGroups := by
  intro s h
  obtain ⟨-, -, -, hseen⟩ := h.quiet.undisturbed
  obtain ⟨t, hexec, -, hread, -⟩ := h.completes
  refine ⟨t, hexec, fun j hj => ?_⟩
  obtain ⟨h1, h2, h3, h4⟩ := encodeText_group (sourceBytes s.race s s.srcBase.toNat s.srcLen.toNat) j
    (by rw [sourceBytes_length]; omega)
  simp only [sourceBytes_getElem_of_seen hseen] at h1 h2 h3 h4
  obtain ⟨hfield1, hfield2, hfield3, hfield4⟩ := symbols_eq_fields (s.mem.read (s.srcBase.toNat + 3 * j))
    (s.mem.read (s.srcBase.toNat + 3 * j + 1)) (s.mem.read (s.srcBase.toNat + 3 * j + 2))
  exact ⟨(hread _ _ h1).trans hfield1, (hread _ _ h2).trans hfield2, (hread _ _ h3).trans hfield3,
    (hread _ _ h4).trans hfield4⟩

/-- Settles O25: the text's partial group (`encodeText_two`, `encodeText_one`), the missing byte read as 0. -/
theorem encodePartialGroup : Obligations.EncodePartialGroup := by
  intro s h
  obtain ⟨-, -, -, hseen⟩ := h.quiet.undisturbed
  obtain ⟨t, hexec, -, hread, -⟩ := h.completes
  refine ⟨t, hexec, fun htwo => ?_, fun hone => ?_⟩
  · obtain ⟨h1, h2, h3, h4⟩ := encodeText_two (sourceBytes s.race s s.srcBase.toNat s.srcLen.toNat)
      (s.srcLen.toNat / 3) (by rw [sourceBytes_length]; omega)
    simp only [sourceBytes_getElem_of_seen hseen] at h1 h2 h3
    exact ⟨(hread _ _ h1).trans (symbol1_eq _), (hread _ _ h2).trans (symbol2_eq _ _),
      (hread _ _ h3).trans (symbol3_eq _ 0#8), hread _ _ h4⟩
  · obtain ⟨h1, h2, h3, h4⟩ := encodeText_one (sourceBytes s.race s s.srcBase.toNat s.srcLen.toNat)
      (s.srcLen.toNat / 3) (by rw [sourceBytes_length]; omega)
    simp only [sourceBytes_getElem_of_seen hseen] at h1 h2
    exact ⟨(hread _ _ h1).trans (symbol1_eq _), (hread _ _ h2).trans (symbol2_eq _ 0#8), hread _ _ h3,
      hread _ _ h4⟩

/-! ### The laws of the text (R111) -/

theorem map6_ne_padByte : ∀ v : Sextet, map6 v ≠ padByte := by decide

theorem map6_ne_zero : ∀ v : Sextet, map6 v ≠ 0x00#8 := by decide

/-- The pads at the end of the text of `n` bytes (40_encode.md R111 (b)). -/
def encodePads (n : Nat) : Nat := if n % 3 = 1 then 2 else if n % 3 = 2 then 1 else 0

/-- The text is symbols of the alphabet and then its pads (40_encode.md R111 (b)(c)). -/
theorem encodeText_eq_symbols_pads (l : List Byte) :
    ∃ vs : List Sextet, encodeText l = vs.map map6 ++ List.replicate (encodePads l.length) padByte := by
  induction l using encodeText.induct with
  | case1 b0 b1 b2 rest ih =>
    obtain ⟨vs, hvs⟩ := ih
    have hpads : encodePads (b0 :: b1 :: b2 :: rest).length = encodePads rest.length := by
      simp only [encodePads, List.length_cons, Nat.add_assoc, Nat.reduceAdd, Nat.add_mod_right]
    exact ⟨b0.extractLsb' 2 6 :: (b0.extractLsb' 0 2 ++ b1.extractLsb' 4 4) ::
      (b1.extractLsb' 0 4 ++ b2.extractLsb' 6 2) :: b2.extractLsb' 0 6 :: vs, by rw [encodeText, hvs, hpads]; rfl⟩
  | case2 b0 b1 =>
    exact ⟨[b0.extractLsb' 2 6, b0.extractLsb' 0 2 ++ b1.extractLsb' 4 4,
      b1.extractLsb' 0 4 ++ (0#8).extractLsb' 6 2], rfl⟩
  | case3 b0 => exact ⟨[b0.extractLsb' 2 6, b0.extractLsb' 0 2 ++ (0#8).extractLsb' 4 4], rfl⟩
  | case4 => exact ⟨[], rfl⟩

/-- Before the pads stands a symbol. -/
theorem encodeText_symbol {l : List Byte} {i : Nat} (h : i + encodePads l.length < (encodeText l).length) :
    ∃ v, (encodeText l)[i]? = some (map6 v) := by
  obtain ⟨vs, hvs⟩ := encodeText_eq_symbols_pads l
  rw [hvs, List.length_append, List.length_replicate, Nat.add_lt_add_iff_right, List.length_map] at h
  exact ⟨vs[i], by rw [hvs, List.getElem?_append_left (by simpa using h), List.getElem?_map,
    List.getElem?_eq_getElem h, Option.map_some]⟩

/-- From there to the end stand pads. -/
theorem encodeText_pad {l : List Byte} {i : Nat} (h : (encodeText l).length ≤ i + encodePads l.length)
    (hi : i < (encodeText l).length) : (encodeText l)[i]? = some padByte := by
  obtain ⟨vs, hvs⟩ := encodeText_eq_symbols_pads l
  rw [hvs, List.length_append, List.length_replicate] at h hi
  rw [hvs, List.getElem?_append_right (by omega), List.getElem?_replicate_of_lt (by omega)]

/-- The text of a run in memory: symbols of the alphabet up to its pads, then pads up to the terminator. -/
theorem EncodeRuns.symbols_pads {s : State} (h : EncodeRuns s) :
    ∃ t, exec .encode s = .next t ∧ t.resultLen.toNat = (s.srcLen.toNat + 2) / 3 * 4 ∧
      (∀ i, i + encodePads s.srcLen.toNat < t.resultLen.toNat →
        ∃ v, t.mem.read (s.dstBase.toNat + i) = map6 v) ∧
      (∀ i, t.resultLen.toNat ≤ i + encodePads s.srcLen.toNat → i < t.resultLen.toNat →
        t.mem.read (s.dstBase.toNat + i) = padByte) ∧
      t.mem.read (s.dstBase.toNat + t.resultLen.toNat) = terminator := by
  obtain ⟨t, hexec, hcompleted, hread, hterminator, -⟩ := h.completes
  have hlen := hcompleted.resultLen
  have hsource := sourceBytes_length s.race s s.srcBase.toNat s.srcLen.toNat
  refine ⟨t, hexec, hlen, ?_⟩
  rw [hlen, ← encodedText_length, ← hsource]
  refine ⟨fun i hi => ?_, fun i hpads hi => hread i _ (encodeText_pad hpads hi), ?_⟩
  · obtain ⟨v, hv⟩ := encodeText_symbol hi
    exact ⟨v, hread i _ hv⟩
  · rw [encodedText_length]
    exact hterminator

/-- Settles O26: a byte of the text is a symbol before the pads and a pad from there on, and no symbol is a pad or
0. -/
theorem encodeTextLaws : Obligations.EncodeTextLaws := by
  refine ⟨fun s h => ?_, fun s t => encode_empty_resultLen⟩
  obtain ⟨t, hexec, hlen, hsymbol, hpad, hterminator⟩ := h.symbols_pads
  have hne := h.nonempty
  have hnoPad : ∀ i, i + encodePads s.srcLen.toNat < t.resultLen.toNat →
      t.mem.read (s.dstBase.toNat + i) ≠ padByte := fun i hi => by
    obtain ⟨v, hv⟩ := hsymbol i hi
    exact hv.trans_ne (map6_ne_padByte v)
  refine ⟨t, hexec, hlen, fun hone => ?_, fun htwo => ?_, fun hfull => ?_, hsymbol, fun i hi => ?_, hterminator⟩
  · have hpads : encodePads s.srcLen.toNat = 2 := by simp [encodePads, hone]
    exact ⟨hpad _ (by omega) (by omega), hpad _ (by omega) (by omega)⟩
  · have hpads : encodePads s.srcLen.toNat = 1 := by simp [encodePads, htwo]
    exact ⟨hpad _ (by omega) (by omega), hnoPad _ (by omega)⟩
  · have hpads : encodePads s.srcLen.toNat = 0 := by simp [encodePads, hfull]
    exact hnoPad _ (by omega)
  · by_cases hbefore : i + encodePads s.srcLen.toNat < t.resultLen.toNat
    · obtain ⟨v, hv⟩ := hsymbol i hbefore
      exact hv.trans_ne (map6_ne_zero v)
    · exact (hpad i (by omega) hi).trans_ne (by decide)

end Sys2Proof.Machine
end

section
/-! SUPPORT. What DECODE leaves (41_decode.md R130 to R145): memory as it was where a check fails or the source is
empty, otherwise the bytes of its valid symbols; and of a text that ENCODE wrote, the bytes encoded. -/

namespace Sys2Proof.Machine

/-! ### Without a byte written (R138, R139, R143) -/

/-- The cases of 41_decode.md R138. -/
theorem decodeInvalid_iff (s : State) :
    decodeInvalid s.operands = true ↔
      ¬ ViewValid s.srcBase.toNat s.srcLen.toNat ∨ ¬ ViewValid s.dstBase.toNat s.dstCap.toNat ∨
        s.srcLen.toNat % 4 ≠ 0 := by
  simp only [decodeInvalid, Bool.or_eq_true, Bool.not_eq_true', ← Bool.not_eq_true, viewsOK_iff, ViewsValid,
    not_and_or, or_assoc, bne_iff_ne, operands_srcLen]

/-- Settles O29: the argument check is the first of the body after that of side effects. -/
theorem decodeInvalidArgument : Obligations.DecodeInvalidArgument := by
  intro s hplain hcases
  have hdevice := (touchesDevice_iff s).mpr hplain
  have hinvalid := (decodeInvalid_iff s).mpr hcases
  have hresult : opResult .decode s.operands s.race s = .ok (.failed .invalidArgument) := by
    simp [opResult, decodeResult, hdevice, hinvalid]
  exact exec_completed_of_no_bytes hresult rfl

/-- Settles O30: with R138 passed and the two bytes of DecLen admitted the capacity check decides, before anything
looks at an overlap. -/
theorem decodeInsufficientCapacity : Obligations.DecodeInsufficientCapacity := by
  rintro s hviews hfour hplain ⟨-, hracedTail, -, hseen⟩ hadmitted hcap
  have hdevice := (touchesDevice_iff s).mpr hplain
  have hvalid := decodeInvalid_eq_false hviews hfour
  have hne : s.srcLen.toNat ≠ 0 := by
    intro hempty
    simp [RequiredDecoded, hempty] at hcap
  have hlast : memAdmit s.platform (s.srcBase.toNat + s.srcLen.toNat - 1) = true :=
    hadmitted _ (.inl (by omega))
  have hsecond : memAdmit s.platform (s.srcBase.toNat + s.srcLen.toNat - 2) = true :=
    hadmitted _ (.inr (by omega))
  have hsmall : decodeTooSmall s.operands s.race s = true := by
    simpa [decodeTooSmall, hracedTail, decLen_eq_required hseen] using hcap
  have hresult : opResult .decode s.operands s.race s = .ok (.failed .insufficientCapacity) := by
    simp [opResult, decodeResult, hdevice, hvalid, hne, hlast, hsecond, hsmall]
  exact exec_completed_of_no_bytes hresult rfl

/-- Settles O31: an empty source passes every check, and overlaps nothing, so its length is free only after a race. -/
theorem decodeEmptySource : Obligations.DecodeEmptySource := by
  intro s hplain hviews hempty
  have hdevice := (touchesDevice_iff s).mpr hplain
  have hvalid := decodeInvalid_eq_false hviews (by simp [hempty])
  have hresult : opResult .decode s.operands s.race s =
      .ok { code := .ok, len := decodeLength s.operands s.race s, bytes := [] } := by
    simp [opResult, decodeResult, hdevice, hvalid, hempty]
  obtain ⟨t, hexec, hcompleted, hmem⟩ := exec_completed_of_no_bytes hresult rfl
  refine ⟨t, _, hexec, hcompleted, hmem, opResult_len_le hresult, fun hundisturbed => ?_⟩
  have hdisjoint : DisjointViews s := by
    rintro a ⟨⟨hlow, hhigh⟩, -⟩
    omega
  rw [decodeLength_empty s.race hempty, unpredictable_of_quiet ⟨hplain, hdisjoint, hundisturbed⟩]
  rfl

/-! ### The bytes of a run -/

/-- The valid symbols of the source of DECODE, as the engine reads it. -/
def decodedSymbols (s : State) : List Sextet := sourceSymbols s.operands s.race s

theorem decodedSymbols_length {s : State} {k : Nat} (hundisturbed : Undisturbed s) (hprefix : IsValidPrefix s k) :
    (decodedSymbols s).length = k := by
  have hk := prefixLength_eq hundisturbed hprefix
  obtain ⟨-, -, hsource, -⟩ := hundisturbed
  rw [decodedSymbols, ← prefixLength_exact hsource, hk]

/-- Each of them is the value of the memory byte at its offset. -/
theorem decodedSymbols_getElem {s : State} (hseen : s.race.sourceSeen = true) (i : Nat)
    (h : i < (decodedSymbols s).length) :
    (decodedSymbols s)[i] = (unmap8 (s.mem.read (s.srcBase.toNat + i))).1 := by
  obtain ⟨-, hvalue⟩ := validPrefix_getElem _ i h
  rw [sourceBytes_getElem_of_seen hseen] at hvalue
  exact hvalue

/-- The symbols that the engine finds are the first `K` bytes of what memory holds (41_decode.md R131). -/
theorem isValidPrefix_decodedSymbols {s : State} (hseen : s.race.sourceSeen = true) :
    IsValidPrefix s (decodedSymbols s).length where
  within := sourceSymbols_length_le s.operands s.race s
  valid i hi := by
    obtain ⟨hvalid, -⟩ := validPrefix_getElem _ i hi
    rwa [sourceBytes_getElem_of_seen hseen] at hvalid
  stops h := by
    have hstops := validPrefix_stops (sourceBytes s.race s s.srcBase.toNat s.srcLen.toNat)
      (by rwa [sourceBytes_length])
    rwa [sourceBytes_getElem_of_seen hseen] at hstops

/-- With OK on a source that is not empty, and no hazard, DECODE yields the bytes of its symbols. -/
theorem decodeResult_bytes_of_predictable {v : Operands} {rc : Race} {s : State} {r : OpResult}
    (h : decodeResult v rc s = .ok r) (hcode : r.code = .ok) (hne : v.srcLen ≠ 0)
    (hquiet : unpredictable v rc = false) :
    r.bytes = decodeSymbols (sourceSymbols v rc s) := by
  obtain ⟨-, ⟨rfl, -⟩ | ⟨-, -, hempty⟩ | ⟨-, -, rfl | ⟨rfl, -⟩ |
    ⟨-, ⟨hbus, -⟩ | ⟨-, hfree, -⟩ | ⟨-, -, -, hbytes⟩⟩⟩⟩ := decodeResult_ok h
  · cases hcode
  · exact absurd hempty hne
  · cases hcode
  · cases hcode
  · simp [hbus] at hcode
  · simp [hquiet] at hfree
  · exact hbytes

/-- What a run of DECODE leaves: the bytes of its symbols from DST_BASE, and the frame. -/
theorem DecodeRuns.completes {s : State} {k : Nat} (h : DecodeRuns s k) :
    ∃ t, exec .decode s = .next t ∧ Completed s t 0x0#4 (OutCount k) ∧
      (∀ i b, (decodeSymbols (decodedSymbols s))[i]? = some b → t.mem.read (s.dstBase.toNat + i) = b) ∧
      ∀ a, a < s.dstBase.toNat ∨ s.dstBase.toNat + OutCount k ≤ a → t.mem.read a = s.mem.read a := by
  obtain ⟨⟨hviews, hne, hfour, hroom, hquiet, hcanonical, hprefix⟩, hadmitted⟩ := h
  have hpredictable := unpredictable_of_quiet hquiet
  have hlen : decodeLength s.operands s.race s = OutCount k := by
    rw [decodeLength, hpredictable, ← decodedSymbols_length hquiet.undisturbed hprefix, ← decodedCount_eq_outCount]
    rfl
  obtain ⟨t, hexec, hcompleted, -, hframe⟩ := decode_completes_within_range hviews hfour hne.ne' hquiet.plain
    hquiet.undisturbed hprefix hroom fun a ha => hadmitted a (.inr ha)
  obtain ⟨r, hr, rfl⟩ := exec_next hexec
  have hcode : r.code = .ok := (completionCode_eq_zero_iff _).mp (congrArg Status.code hcompleted.status)
  have hbytes : r.bytes = decodeSymbols (decodedSymbols s) :=
    decodeResult_bytes_of_predictable hr hcode hne.ne' hpredictable
  exact ⟨_, hexec, hlen ▸ hcompleted, fun i b hi => read_writeBytes_of_getElem? hcanonical (hbytes ▸ hi), hframe⟩

/-- Settles O32: of what a run leaves, the code, the count and the frame. -/
theorem decodeCompletesOk : Obligations.DecodeCompletesOk := by
  intro s k h
  obtain ⟨t, hexec, hcompleted, -, hframe⟩ := h.completes
  exact ⟨t, hexec, hcompleted, hframe⟩

/-! ### The decoded bytes as numbers (R132 to R134) -/

/-- A byte shifted up by `k` bits, over `k` bits more, as a number. -/
theorem toNat_shiftLeft_or {x y : Byte} {k : Nat} (hx : x.toNat * 2 ^ k < 2 ^ 8) (hy : y.toNat < 2 ^ k) :
    (x <<< k ||| y).toNat = x.toNat * 2 ^ k + y.toNat := by
  rw [BitVec.toNat_or, BitVec.toNat_shiftLeft, Nat.shiftLeft_eq, Nat.mod_eq_of_lt hx, ← Nat.shiftLeft_eq,
    ← Nat.shiftLeft_add_eq_or_of_lt hy]

theorem toNat_setWidth_byte (v : Sextet) : (v.setWidth 8).toNat = v.toNat := by
  rw [BitVec.toNat_setWidth]
  omega

theorem toNat_setWidth_shiftRight (v : Sextet) (k : Nat) : (v.setWidth 8 >>> k).toNat = v.toNat / 2 ^ k := by
  rw [BitVec.toNat_ushiftRight, toNat_setWidth_byte, Nat.shiftRight_eq_div_pow]

theorem decodedByte0_toNat (v1 v2 : Sextet) : (decodedByte0 v1 v2).toNat = v1.toNat * 4 + v2.toNat / 16 := by
  have h1 := v1.isLt
  have h2 := v2.isLt
  have hhigh := toNat_setWidth_byte v1
  have hlow := toNat_setWidth_shiftRight v2 4
  rw [decodedByte0, toNat_shiftLeft_or (by omega) (by omega), hhigh, hlow]
  rfl

theorem decodedByte1_toNat (v2 v3 : Sextet) :
    (decodedByte1 v2 v3).toNat = v2.toNat % 16 * 16 + v3.toNat / 4 := by
  have h3 := v3.isLt
  have hhigh : (v2.setWidth 8 &&& 0xF#8).toNat = v2.toNat % 16 := by
    rw [BitVec.toNat_and, toNat_setWidth_byte]
    exact Nat.and_two_pow_sub_one_eq_mod _ 4
  have hlow := toNat_setWidth_shiftRight v3 2
  rw [decodedByte1, toNat_shiftLeft_or (by omega) (by omega), hhigh, hlow]
  rfl

theorem decodedByte2_toNat (v3 v4 : Sextet) : (decodedByte2 v3 v4).toNat = v3.toNat % 4 * 64 + v4.toNat := by
  have h4 := v4.isLt
  have hhigh : (v3.setWidth 8 &&& 0x3#8).toNat = v3.toNat % 4 := by
    rw [BitVec.toNat_and, toNat_setWidth_byte]
    exact Nat.and_two_pow_sub_one_eq_mod _ 2
  have hlow := toNat_setWidth_byte v4
  rw [decodedByte2, toNat_shiftLeft_or (by omega) (by omega), hhigh, hlow]
  rfl

/-- The 24-bit number of a group of four symbols, the first the most significant (41_decode.md R132). -/
def symbolsWord (v1 v2 v3 v4 : Sextet) : Nat :=
  v1.toNat * 2 ^ 18 + v2.toNat * 2 ^ 12 + v3.toNat * 2 ^ 6 + v4.toNat

/-- The three bytes of a group are those of its number, from the top. -/
theorem decodedBytes_eq_fields (v1 v2 v3 v4 : Sextet) :
    (decodedByte0 v1 v2).toNat = symbolsWord v1 v2 v3 v4 / 2 ^ 16 ∧
    (decodedByte1 v2 v3).toNat = symbolsWord v1 v2 v3 v4 / 2 ^ 8 % 256 ∧
    (decodedByte2 v3 v4).toNat = symbolsWord v1 v2 v3 v4 % 256 := by
  have h1 := v1.isLt
  have h2 := v2.isLt
  have h3 := v3.isLt
  have h4 := v4.isLt
  rw [decodedByte0_toNat, decodedByte1_toNat, decodedByte2_toNat, symbolsWord]
  omega

/-- Settles O33: the bytes of group `j` (`decodeSymbols_group`), read as fields of the group's number. -/
theorem decodeFullGroups : Obligations.DecodeFullGroups := by
  intro s k h
  have hundisturbed := h.passes.quiet.undisturbed
  have hk := decodedSymbols_length hundisturbed h.passes.prefixed
  obtain ⟨-, -, -, hseen⟩ := hundisturbed
  obtain ⟨t, hexec, -, hread, -⟩ := h.completes
  refine ⟨t, hexec, fun j hj => ?_⟩
  obtain ⟨h0, h1, h2⟩ := decodeSymbols_group (decodedSymbols s) j (by omega)
  simp only [decodedSymbols_getElem hseen] at h0 h1 h2
  obtain ⟨hfield0, hfield1, hfield2⟩ := decodedBytes_eq_fields
    (unmap8 (s.mem.read (s.srcBase.toNat + 4 * j))).1 (unmap8 (s.mem.read (s.srcBase.toNat + 4 * j + 1))).1
    (unmap8 (s.mem.read (s.srcBase.toNat + 4 * j + 2))).1 (unmap8 (s.mem.read (s.srcBase.toNat + 4 * j + 3))).1
  exact ⟨(congrArg BitVec.toNat (hread _ _ h0)).trans hfield0, (congrArg BitVec.toNat (hread _ _ h1)).trans hfield1,
    (congrArg BitVec.toNat (hread _ _ h2)).trans hfield2⟩

/-- Settles O34: the bytes of the remainder (`decodeSymbols_two`, `decodeSymbols_three`) as numbers; `OutCount` adds
as many. -/
theorem decodeRemainder : Obligations.DecodeRemainder := by
  intro s k h
  have hundisturbed := h.passes.quiet.undisturbed
  have hk := decodedSymbols_length hundisturbed h.passes.prefixed
  obtain ⟨-, -, -, hseen⟩ := hundisturbed
  obtain ⟨t, hexec, hcompleted, hread, -⟩ := h.completes
  refine ⟨t, hexec, fun htwo => ?_, fun hthree => ?_⟩
  · have h0 := decodeSymbols_two (decodedSymbols s) (k / 4) (by omega)
    simp only [decodedSymbols_getElem hseen] at h0
    refine ⟨by simp [hcompleted.resultLen, OutCount, htwo], ?_⟩
    rw [hread _ _ h0]
    exact decodedByte0_toNat _ _
  · obtain ⟨h0, h1⟩ := decodeSymbols_three (decodedSymbols s) (k / 4) (by omega)
    simp only [decodedSymbols_getElem hseen] at h0 h1
    refine ⟨by simp [hcompleted.resultLen, OutCount, hthree], ?_, ?_⟩
    · rw [hread _ _ h0]
      exact decodedByte0_toNat _ _
    · rw [Nat.add_assoc, hread _ _ h1]
      exact decodedByte1_toNat _ _

/-! ### Within DecLen (R144) -/

/-- DECODE without a hazard that ends with OK yields bytes within DecLen, and DecLen within DST_CAP. -/
theorem decodeResult_within_required {s : State} {r : OpResult} (hquiet : Quiet s)
    (h : decodeResult s.operands s.race s = .ok r) (hcode : r.code = .ok) :
    decodeInvalid s.operands = false ∧ r.len ≤ RequiredDecoded s ∧ r.bytes.length ≤ RequiredDecoded s ∧
      RequiredDecoded s ≤ s.dstCap.toNat := by
  have hpredictable := unpredictable_of_quiet hquiet
  obtain ⟨-, hracedTail, -, hseen⟩ := hquiet.undisturbed
  rw [← decLen_eq_required hseen]
  obtain ⟨-, ⟨rfl, -⟩ | ⟨rfl, hvalid, hempty⟩ | ⟨hvalid, hne, rfl | ⟨rfl, -⟩ |
    ⟨hsmall, ⟨hbus, -⟩ | ⟨-, hfree, -⟩ | ⟨-, -, hlen, hbytes⟩⟩⟩⟩ := decodeResult_ok h
  · cases hcode
  · have hzero : decLen s.operands s.race s = 0 := if_pos hempty
    simp [hpredictable, hvalid, hzero]
  · cases hcode
  · cases hcode
  · simp [hbus] at hcode
  · simp [hpredictable] at hfree
  · have hfour : s.operands.srcLen % 4 = 0 := by
      simpa [decodeInvalid] using (Bool.or_eq_false_iff.mp hvalid).2
    have hcount := decodedCount_le_decLen s.race s hfour hne
    rw [hlen, hbytes, decodeSymbols_length]
    have hroom : ¬ s.operands.dstCap < decLen s.operands s.race s := by
      simpa only [decodeTooSmall, hracedTail, Bool.false_eq_true, if_false, decide_eq_false_iff_not] using hsmall
    exact ⟨hvalid, hcount, hcount, Nat.le_of_not_lt hroom⟩

/-- Settles O35: what the body yields is within DecLen, and the capacity check passed. -/
theorem decodedWithinRequired : Obligations.DecodedWithinRequired := by
  intro s t hquiet h hcode
  obtain ⟨r, hr, rfl⟩ := exec_next h
  have hok : r.code = .ok := by simpa [completionCode_eq_zero_iff] using hcode
  obtain ⟨hvalid, hlen, hbytes, hroom⟩ := decodeResult_within_required hquiet hr hok
  have hdestination : ViewValid s.dstBase.toNat s.dstCap.toNat := by
    by_contra hinvalid
    exact absurd ((decodeInvalid_iff s).mpr (.inr (.inl hinvalid))) (by simp [hvalid])
  have hresultLen : (BitVec.ofNat 32 r.len).toNat ≤ r.len := by
    rw [BitVec.toNat_ofNat]
    exact Nat.mod_le _ _
  refine ⟨hresultLen.trans hlen, hroom, hdestination.2, fun a ha => ?_⟩
  exact Memory.read_writeBytes_outside s.mem r.bytes (by rw [operands_dstBase]; omega)

/-! ### The text of ENCODE decoded (R145) -/

theorem unmap8_map6 : ∀ v, unmap8 (map6 v) = (v, true) := by decide

theorem validPrefix_map6_cons (v : Sextet) (text : List Byte) :
    validPrefix (map6 v :: text) = v :: validPrefix text := by
  simp [validPrefix, unmap8_map6]

theorem validPrefix_padByte_cons (text : List Byte) : validPrefix (padByte :: text) = [] := rfl

/-- A group's first byte from its first two symbols, whatever the second says of the next byte. -/
theorem decodedByte0_of_split (b0 : Byte) (high1 : BitVec 4) :
    decodedByte0 (b0.extractLsb' 2 6) (b0.extractLsb' 0 2 ++ high1) = b0 := by
  have h0 := b0.isLt
  have h1 := high1.isLt
  refine BitVec.eq_of_toNat_eq ?_
  rw [decodedByte0_toNat, toNat_append_add, toNat_extractLsb'_div, toNat_extractLsb'_div]
  omega

/-- The second from the second and third. -/
theorem decodedByte1_of_split (low0 high2 : BitVec 2) (b1 : Byte) :
    decodedByte1 (low0 ++ b1.extractLsb' 4 4) (b1.extractLsb' 0 4 ++ high2) = b1 := by
  have h1 := b1.isLt
  have h2 := high2.isLt
  refine BitVec.eq_of_toNat_eq ?_
  rw [decodedByte1_toNat, toNat_append_add, toNat_append_add, toNat_extractLsb'_div, toNat_extractLsb'_div]
  omega

/-- The third from the third and fourth. -/
theorem decodedByte2_of_split (low1 : BitVec 4) (b2 : Byte) :
    decodedByte2 (low1 ++ b2.extractLsb' 6 2) (b2.extractLsb' 0 6) = b2 := by
  have h2 := b2.isLt
  refine BitVec.eq_of_toNat_eq ?_
  rw [decodedByte2_toNat, toNat_append_add, toNat_extractLsb'_div, toNat_extractLsb'_div]
  omega

/-- The valid symbols of a text decode to the bytes encoded: a full group to its three bytes, and of a partial group
the symbols before the pads to its two or one. -/
theorem decodeSymbols_validPrefix_encodeText (l : List Byte) : decodeSymbols (validPrefix (encodeText l)) = l := by
  induction l using encodeText.induct with
  | case1 b0 b1 b2 rest ih =>
    simp only [encodeText, symbol1, symbol2, symbol3, symbol4, validPrefix_map6_cons, decodeSymbols,
      decodedByte0_of_split, decodedByte1_of_split, decodedByte2_of_split, ih]
  | case2 b0 b1 =>
    simp only [encodeText, symbol1, symbol2, symbol3, validPrefix_map6_cons, validPrefix_padByte_cons,
      decodeSymbols, decodedByte0_of_split, decodedByte1_of_split]
  | case3 b0 =>
    simp only [encodeText, symbol1, symbol2, validPrefix_map6_cons, validPrefix_padByte_cons, decodeSymbols,
      decodedByte0_of_split]
  | case4 => rfl

/-- A byte of a text counts as a pad where the pads stand. -/
theorem padCount_encodeText {l : List Byte} {i : Nat} {b : Byte} (h : (encodeText l)[i]? = some b) :
    padCount b = if (encodeText l).length ≤ i + encodePads l.length then 1 else 0 := by
  obtain ⟨hi, -⟩ := List.getElem?_eq_some_iff.mp h
  split
  · obtain rfl := Option.some.inj (h.symm.trans (encodeText_pad ‹_› hi))
    rfl
  · obtain ⟨v, hv⟩ := encodeText_symbol (Nat.lt_of_not_le ‹_›)
    obtain rfl := Option.some.inj (h.symm.trans hv)
    exact if_neg (map6_ne_padByte v)

/-- DecLen of a text is the number of bytes encoded (41_decode.md R130). -/
theorem decodedLen_encodeText {l : List Byte} {last secondLast : Byte}
    (hlast : (encodeText l)[(encodeText l).length - 1]? = some last)
    (hsecond : (encodeText l)[(encodeText l).length - 2]? = some secondLast) :
    decodedLen (encodeText l).length last secondLast = l.length := by
  rw [decodedLen, padCount_encodeText hlast, padCount_encodeText hsecond, encodeText_length, encodedLen_eq, encodePads]
  repeat' split
  all_goals omega

section
variable {u : State} {l : List Byte} (hseen : u.race.sourceSeen = true)
  (hlen : u.srcLen.toNat = (encodeText l).length)
  (htext : ∀ i b, (encodeText l)[i]? = some b → u.mem.read (u.srcBase.toNat + i) = b)
include hseen hlen htext

/-- A text in memory is what the engine reads. -/
theorem sourceBytes_of_text : sourceBytes u.race u u.srcBase.toNat u.srcLen.toNat = encodeText l := by
  refine List.ext_getElem (by rw [sourceBytes_length, hlen]) fun i _ hi => ?_
  rw [sourceBytes_getElem_of_seen hseen]
  exact htext i _ (List.getElem?_eq_getElem hi)

theorem decodeSymbols_decodedSymbols_of_text : decodeSymbols (decodedSymbols u) = l := by
  have hsource := sourceBytes_of_text hseen hlen htext
  rw [← decodeSymbols_validPrefix_encodeText l, ← hsource]
  rfl

theorem requiredDecoded_of_text : RequiredDecoded u = l.length := by
  by_cases hne : l.length = 0
  · obtain rfl := List.length_eq_zero_iff.mp hne
    exact if_pos hlen
  have hfour : 4 ≤ (encodeText l).length := by rw [encodeText_length, encodedLen_eq]; omega
  rw [← decLen_eq_required hseen, decLen, operands_srcBase, operands_srcLen, hlen,
    Nat.add_sub_assoc (by omega), Nat.add_sub_assoc (by omega), sourceByte_of_seen hseen, sourceByte_of_seen hseen,
    htext _ _ (List.getElem?_eq_getElem (by omega)), htext _ _ (List.getElem?_eq_getElem (by omega))]
  exact decodedLen_encodeText (List.getElem?_eq_getElem _) (List.getElem?_eq_getElem _)

/-- DECODE of a text in memory completes with OK and writes the bytes encoded. -/
theorem decode_of_text (hviews : ViewsValid u) (hroom : l.length ≤ u.dstCap.toNat) (hquiet : Quiet u)
    (hcanonical : Memory.wf u.mem = true) (hadmitted : ∀ a, InSource u a ∨ InDestination u a → Admits u a) :
    ∃ v, exec .decode u = .next v ∧ Completed u v 0x0#4 l.length ∧
      ∀ i b, l[i]? = some b → v.mem.read (u.dstBase.toNat + i) = b := by
  have htextLen : u.srcLen.toNat = (l.length + 2) / 3 * 4 := by rw [hlen, encodeText_length, encodedLen_eq]
  by_cases hne : l.length = 0
  · obtain rfl := List.length_eq_zero_iff.mp hne
    obtain ⟨v, len, hexec, hcompleted, -, -, hzero⟩ := decodeEmptySource u hquiet.plain hviews htextLen
    obtain rfl := hzero hquiet.undisturbed
    exact ⟨v, hexec, hcompleted, by simp⟩
  have hsymbols := decodeSymbols_decodedSymbols_of_text hseen hlen htext
  have hrequired := requiredDecoded_of_text hseen hlen htext
  have hcount : OutCount (decodedSymbols u).length = l.length := by
    rw [← decodedCount_eq_outCount, ← decodeSymbols_length, hsymbols]
  have htouches : ∀ a, DecodeTouches u (decodedSymbols u).length a → InSource u a ∨ InDestination u a := by
    unfold DecodeTouches InSource InDestination
    omega
  have hruns : DecodeRuns u (decodedSymbols u).length :=
    { passes :=
        { views := hviews, nonempty := by omega, fours := by omega, room := hrequired ▸ hroom, quiet := hquiet,
          canonical := hcanonical, prefixed := isValidPrefix_decodedSymbols hseen }
      admitted := fun a ha => hadmitted a (ha.elim .inl (htouches a)) }
  obtain ⟨v, hexec, hcompleted, hread, -⟩ := hruns.completes
  exact ⟨v, hexec, hcount ▸ hcompleted, hsymbols ▸ hread⟩

end

/-- With OK and no hazard ENCODE yields its text, which fits a valid destination, and after it the terminator or
nothing. -/
theorem encodeResult_ok_text {s : State} {r : OpResult} (hquiet : Quiet s)
    (h : encodeResult s.operands s.race s = .ok r) (hcode : r.code = .ok) :
    r.len = (encodedText s).length ∧ ViewValid s.dstBase.toNat (encodedText s).length ∧
      ∃ suffix, r.bytes = encodedText s ++ suffix := by
  have hlength : (encodedText s).length = encodedLen s.srcLen.toNat := by rw [encodedText_length, encodedLen_eq]
  rw [hlength]
  obtain ⟨-, ⟨rfl, -⟩ | ⟨rfl, -⟩ | ⟨rfl, -, hempty⟩ | ⟨hvalid, hcap, hne, hbytes⟩⟩ := encodeResult_ok h
  · cases hcode
  · cases hcode
  · have hzero : encodedLen s.srcLen.toNat = 0 := if_pos hempty
    have hnone : encodedText s = [] := List.length_eq_zero_iff.mp (hlength.trans hzero)
    have hbase := s.dstBase.isLt
    exact ⟨hzero.symm, hzero ▸ ⟨by omega, by omega⟩, [], by rw [hnone]; rfl⟩
  · have hdestination : ViewValid s.dstBase.toNat s.dstCap.toNat := by
      by_contra hinvalid
      exact absurd ((encodeInvalid_iff s).mpr (.inr (.inl hinvalid))) (by simp [hvalid])
    have hroom : encodedLen s.srcLen.toNat + 1 ≤ s.dstCap.toNat := reqCap_eq hne ▸ hcap
    have hlen : r.len = encodedLen s.srcLen.toNat := by
      obtain ⟨hbus, -⟩ | ⟨-, hlen, -⟩ | ⟨-, hlen, -⟩ := hbytes
      · simp [hbus] at hcode
      · exact hlen
      · exact hlen
    obtain ⟨hnull, hspace⟩ := hdestination
    exact ⟨hlen, ⟨by omega, by omega⟩, [terminator],
      encodeResult_bytes_of_predictable h hcode hne (unpredictable_of_quiet hquiet)⟩

/-- What ENCODE without a hazard leaves with OK, an empty source included: its text in a valid view from DST_BASE. -/
theorem encode_ok_leaves_text {s t : State} (hquiet : Quiet s) (hcanonical : Memory.wf s.mem = true)
    (h : exec .encode s = .next t) (hcode : t.status.code = 0x0#4) :
    t.race = s.race ∧ Memory.wf t.mem = true ∧ t.resultLen.toNat = (encodedText s).length ∧
      ViewValid s.dstBase.toNat (encodedText s).length ∧
      ∀ i b, (encodedText s)[i]? = some b → t.mem.read (s.dstBase.toNat + i) = b := by
  obtain ⟨r, hr, rfl⟩ := exec_next h
  have hok : r.code = .ok := by simpa [completionCode_eq_zero_iff] using hcode
  obtain ⟨hlen, hview, suffix, hbytes⟩ := encodeResult_ok_text hquiet hr hok
  have hresultLen : (BitVec.ofNat 32 r.len).toNat = r.len := by
    rw [BitVec.toNat_ofNat]
    exact Nat.mod_eq_of_lt ((opResult_len_le hr).trans_lt s.dstCap.isLt)
  refine ⟨rfl, Memory.wf_writeBytes _ _ hcanonical, hresultLen.trans hlen, hview, fun i b hi => ?_⟩
  obtain ⟨hlt, -⟩ := List.getElem?_eq_some_iff.mp hi
  refine read_writeBytes_of_getElem? hcanonical ?_
  rw [hbytes, List.getElem?_append_left hlt, hi]

/-- Settles O39: ENCODE leaves its text (`encode_ok_leaves_text`), and DECODE of a text gives back the bytes encoded
(`decode_of_text`); a text and its terminator are no multiple of 4. -/
theorem roundTrip : Obligations.RoundTrip := by
  intro s t base cap hquiet hcanonical h hcode
  obtain ⟨hrace, hwf, hlen, hview, hread⟩ := encode_ok_leaves_text hquiet hcanonical h hcode
  obtain ⟨-, -, -, hseen⟩ := hquiet.undisturbed
  have hsource := sourceBytes_length s.race s s.srcBase.toNat s.srcLen.toNat
  intro u
  refine ⟨fun hdestination hroom hquiet' hadmitted => ?_, fun hplain => ?_⟩
  · obtain ⟨v, hexec, hcompleted, hback⟩ := decode_of_text (u := u) (hrace ▸ hseen) hlen hread
      ⟨hlen ▸ hview, hdestination⟩ (by rwa [hsource]) hquiet' hwf hadmitted
    rw [hsource] at hcompleted
    refine ⟨v, hexec, hcompleted, fun i hi => hback i _ ?_⟩
    rw [List.getElem?_eq_getElem (by rwa [hsource]), sourceBytes_getElem_of_seen hseen]
  · have hfour : t.resultLen.toNat % 4 = 0 := by rw [hlen, encodedText_length]; omega
    have hodd : (t.resultLen + 1#32).toNat % 4 ≠ 0 := by
      rw [BitVec.toNat_add, BitVec.toNat_ofNat]
      omega
    obtain ⟨v, hexec, hcompleted, hmem⟩ := decodeInvalidArgument _ hplain (.inr (.inr hodd))
    exact ⟨v, hexec, congrArg Status.code hcompleted.status, hmem⟩

end Sys2Proof.Machine
end

section
/-! SUPPORT. The alphabet (42_alphabet.md R170 to R175): MAP6 run by run, and MAP6 and UNMAP8 inverse to each other. -/

namespace Sys2Proof.Machine

/-! ### MAP6 on its three runs (R170) -/

theorem map6_upper {k : Nat} (h : k ≤ 25) : map6 (BitVec.ofNat 6 k) = BitVec.ofNat 8 (0x41 + k) := by
  have hv : (BitVec.ofNat 6 k).toNat = k := Nat.mod_eq_of_lt (by omega)
  rw [map6, hv, if_pos h]

theorem map6_lower {k : Nat} (h : k ≤ 25) : map6 (BitVec.ofNat 6 (k + 26)) = BitVec.ofNat 8 (0x61 + k) := by
  have hv : (BitVec.ofNat 6 (k + 26)).toNat = k + 26 := Nat.mod_eq_of_lt (by omega)
  rw [map6, hv, if_neg (by omega), if_pos (by omega), Nat.add_sub_cancel]

theorem map6_digit {k : Nat} (h : k ≤ 9) : map6 (BitVec.ofNat 6 (k + 52)) = BitVec.ofNat 8 (0x30 + k) := by
  have hv : (BitVec.ofNat 6 (k + 52)).toNat = k + 52 := Nat.mod_eq_of_lt (by omega)
  rw [map6, hv, if_neg (by omega), if_neg (by omega), if_pos (by omega), Nat.add_sub_cancel]

/-! ### The table and its inverse (R171, R175) -/

/-- Settles O40: a closed table, each of its 64 entries evaluated. -/
theorem alphabetTable : Obligations.AlphabetTable := by
  unfold Obligations.AlphabetTable
  decide

/-- A byte is its offset in a run put back on the run's first byte. -/
theorem ofNat_add_toNat_sub {c : Byte} {first : Nat} (h : first ≤ c.toNat) :
    BitVec.ofNat 8 (first + (c.toNat - first)) = c := by
  rw [Nat.add_sub_of_le h, BitVec.ofNat_toNat, BitVec.setWidth_eq]

/-- A valid byte lies in one of UNMAP8's three runs or is one of its two single symbols, and MAP6 has the same run. -/
theorem map6_unmap8 (c : Byte) (hvalid : (unmap8 c).2 = true) : map6 (unmap8 c).1 = c := by
  revert hvalid
  fun_cases unmap8 c with
  | case1 hupper => exact fun _ => (map6_upper (by omega)).trans (ofNat_add_toNat_sub hupper.1)
  | case2 _ hlower => exact fun _ => (map6_lower (by omega)).trans (ofNat_add_toNat_sub hlower.1)
  | case3 _ _ hdigit => exact fun _ => (map6_digit (by omega)).trans (ofNat_add_toNat_sub hdigit.1)
  | case4 _ _ _ hplus => exact fun _ => hplus.symm
  | case5 _ _ _ _ hslash => exact fun _ => hslash.symm
  | case6 => exact fun hvalid => nomatch hvalid

/-- Settles O41: `unmap8_map6` on the 64 values, `map6_unmap8` on the valid bytes. -/
theorem alphabetInverse : Obligations.AlphabetInverse := ⟨unmap8_map6, map6_unmap8⟩

end Sys2Proof.Machine
end

section
/-! SUPPORT. The life of a command (60_exceptions.md R204, R208 to R211, R214, R215): its acceptance or its end as
illegal, the engine's turn that runs it, and that until then only reset stops it. -/

namespace Sys2Proof.Machine

/-! ### A command word at CMD (R204, R208) -/

/-- An illegal command word written while BUSY = 0 completes at once (60_exceptions.md R204). -/
theorem step_cmd_completes_illegal {s : State} {w : Word} {rest : List Input} {e : IllegalWord}
    (h : Writes s .cmd w rest) (hbusy : s.status.busy = false) (hdecode : decode w = .error e) :
    step s = .next (completeIllegal { s with inputs := rest }) := by
  rw [step_writes h]
  simp [writeReg, issue, hbusy, hdecode]

/-- Settles O7: the word is the instruction's own, so the write accepts it. -/
theorem acceptanceEffect : Obligations.AcceptanceEffect := by
  intro s w rest i h hbusy hword
  have hw : w = encode i := by
    obtain ⟨rfl, rfl⟩ | ⟨rfl, rfl⟩ := hword <;> rfl
  exact ⟨_, step_cmd_accepts h hbusy ((decode_eq_ok_iff w i).mpr hw),
    rfl, rfl, rfl, rfl, rfl, rfl, rfl, rfl, rfl, rfl, rfl, rfl, rfl⟩

/-- A word that is neither ENCODE's nor DECODE's is illegal (30_encoding.md R72). -/
theorem decode_error_of_ne {w : Word} (hencode : w ≠ 0x00000001#32) (hdecode : w ≠ 0x00000002#32) :
    ∃ e, decode w = .error e := by
  have hnone : (decode w).toOption = none := by rw [commandWordsDecode w, if_neg hencode, if_neg hdecode]
  cases h : decode w with
  | error e => exact ⟨e, rfl⟩
  | ok i => cases h ▸ hnone

/-- Settles O8: while BUSY = 0 the illegal word completes, and while BUSY = 1 the write is one of those ignored (O9). -/
theorem illegalCommandCompletes : Obligations.IllegalCommandCompletes := by
  intro s w rest h hencode hdecode
  refine ⟨fun hbusy => ?_, fun hbusy => ?_⟩
  · obtain ⟨e, he⟩ := decode_error_of_ne hencode hdecode
    rw [step_cmd_completes_illegal h hbusy he, ← hbusy]
    rfl
  · obtain ⟨hignored, -⟩ := writesWhileBusyIgnored s .cmd w rest h hbusy
    exact hignored (by decide) (by decide)

/-! ### The engine's turn (R210; log 3) -/

/-- Settles O5: both forms of the engine's turn are `engineTurn`, which runs the operation of the phase. -/
theorem stepRunsDecodedInstruction : Obligations.StepRunsDecodedInstruction := by
  refine ⟨fun s i hp => ⟨fun hi => ?_, fun rest hi => ?_⟩, fun s w rest i h hbusy hdecode => ?_,
    fun s hp => ⟨fun hi => ?_, fun rest hi => ?_⟩⟩
  · exact (step_nil hi).trans (engineTurn_busy hp)
  · exact (step_cons hi).trans (engineTurn_busy (s := { s with inputs := rest }) hp)
  · exact ⟨_, step_cmd_accepts h hbusy hdecode, step_cons (x := .engine) (rest := rest) rfl⟩
  · exact (step_nil hi).trans (engineTurn_idle hp)
  · exact (step_cons hi).trans (engineTurn_idle (s := { s with inputs := rest }) hp)

theorem withFetchWord_toNat (s : State) (w : Word) : s.withFetchWord 32 w.toNat = placeCommand w s := by
  rw [State.withFetchWord, Nat.mod_eq_of_lt w.isLt, BitVec.ofNat_toNat, BitVec.setWidth_eq]

/-- Settles O6: a placed legal word stands accepted before the engine's turn, an illegal one before the host's write
of it. -/
theorem placedCommandRuns : Obligations.PlacedCommandRuns := by
  refine ⟨fun s i => ?_, fun s w e he => ?_⟩
  · simp only [withFetchWord_toNat, placeCommand, decode_encode]
    exact step_cons (x := .engine) (rest := s.inputs) rfl
  · simp only [withFetchWord_toNat, placeCommand, he]
    exact ⟨_, step_cmd_completes_illegal (rest := s.inputs) rfl rfl he, rfl, rfl, rfl, rfl, rfl⟩

/-! ### Every aligned access is answered (R224) -/

/-- The eight registers fill the window (30_encoding.md R74). -/
theorem exists_reg_offset :
    ∀ n < 0x20, n % 4 = 0 →
      ∃ r ∈ [Reg.cmd, .status, .srcBase, .srcLen, .dstBase, .dstCap, .resultLen, .cfg], n = r.offset := by
  decide

/-- Settles O15: every aligned offset of the window is a register's, and a register's access is answered. -/
theorem registerAccessNeverFails : Obligations.RegisterAccessNeverFails := by
  intro s n rest haligned hn
  obtain ⟨r, -, rfl⟩ := exists_reg_offset n hn haligned
  exact ⟨fun w hi => ⟨_, step_writes (r := r) hi⟩, fun hi => ⟨_, step_reads (r := r) hi⟩⟩

/-! ### The interrupt level (R214, R215) -/

theorem irq_of_done {s : State} (h : s.status.done = true) : s.irq = s.irqEn := by
  simp [State.irq, h]

theorem irq_of_not_done {s : State} (h : s.status.done = false) : s.irq = false := by
  simp [State.irq, h]

theorem irq_of_not_enabled {s : State} (h : s.irqEn = false) : s.irq = false := by
  simp [State.irq, h]

/-- Settles O18: both completions set DONE and leave IRQ_EN. -/
theorem irqRisesWithCompletion : Obligations.IrqRisesWithCompletion := by
  refine ⟨fun i s t h => ?_, fun s w rest e h hbusy hdecode => ?_⟩
  · obtain ⟨r, -, rfl⟩ := exec_next h
    exact irq_of_done rfl
  · exact ⟨_, step_cmd_completes_illegal h hbusy hdecode, irq_of_done rfl⟩

/-- Settles O19: the write of STATUS and the acceptance clear DONE, the write of CFG clears IRQ_EN. -/
theorem irqFallsWhenCleared : Obligations.IrqFallsWhenCleared := by
  refine ⟨fun s w rest h hbit => ?_, fun s w rest h hbusy hbit => ?_, fun s w rest i h hbusy hdecode => ?_⟩
  · have hdone : (s.status.write w).done = false := by rw [Status.write_eq, if_pos hbit]
    exact ⟨_, step_writes h, hdone, irq_of_not_done hdone⟩
  · obtain ⟨hcfg, -⟩ := cfgRegister
    exact ⟨_, hcfg s w rest h hbusy, hbit, irq_of_not_enabled hbit⟩
  · exact ⟨_, step_cmd_accepts h hbusy hdecode, rfl, irq_of_not_done rfl⟩

/-! ### An operation starts by its command alone (R209) -/

/-- The register that an access of the window reaches is the one at its address (10_state.md R35). -/
theorem accessedReg_eq_some {p : Platform} {addr size : Nat} {r : Reg} (h : accessedReg p addr size = some r) :
    size = 4 ∧ addr = p.b64Base + r.offset := by
  unfold accessedReg at h
  split at h
  · rename_i hshape
    have hoffset := (ofOffset_eq_some_iff _ r).mp h
    exact ⟨hshape.1, by omega⟩
  · cases h

/-- What a host bus access can do: nothing, or the 32-bit access of the register at its address. -/
theorem hostAccess_next {addr size : Nat} {act : Reg → State → State} {s t : State}
    (h : hostAccess addr size act s = .next t) :
    t = s ∨ ∃ r, size = 4 ∧ addr = s.platform.b64Base + r.offset ∧ t = act r s := by
  unfold hostAccess at h
  split at h
  · split at h
    · rename_i r hr
      obtain ⟨hsize, haddr⟩ := accessedReg_eq_some hr
      exact .inr ⟨r, hsize, haddr, by simpa using h.symm⟩
    · cases h
  · exact .inl (by simpa using h.symm)

/-- Of the register writes only that of a legal word to CMD while BUSY = 0 starts an operation. -/
theorem writeReg_starts {r : Reg} {w : Word} {s : State} {i : Instr} (hidle : s.phase = .idle)
    (hstarted : (writeReg r w s).phase = .busy i) : r = .cmd ∧ s.status.busy = false ∧ w = encode i := by
  have hnot : s.phase ≠ .busy i := by simp [hidle]
  cases r with
  | cmd =>
    simp only [writeReg, issue] at hstarted
    split at hstarted
    · exact absurd hstarted hnot
    · rename_i hbusy
      split at hstarted
      · rename_i j hdecode
        obtain rfl : j = i := by simpa using hstarted
        exact ⟨rfl, by simpa using hbusy, (decode_eq_ok_iff w j).mp hdecode⟩
      · exact absurd hstarted hnot
  | status => exact absurd hstarted hnot
  | resultLen => exact absurd hstarted hnot
  | _ =>
    simp only [writeReg] at hstarted
    split at hstarted <;> exact absurd hstarted hnot

/-- An input that is no register write starts no operation. -/
theorem receive_idle {x : Input} {s t : State} (hidle : s.phase = .idle)
    (hx : ∀ addr size w, x ≠ .busWrite addr size w) (h : receive x s = .next t) : t.phase = .idle := by
  cases x with
  | engine =>
    obtain rfl : s = t := by simpa [receive, engineTurn_idle hidle] using h
    exact hidle
  | busWrite addr size w => exact absurd rfl (hx addr size w)
  | busRead addr size =>
    obtain rfl | ⟨r, -, -, rfl⟩ := hostAccess_next h
    · exact hidle
    · rw [hostReadReg_frame]
      exact hidle
  | memWrite master addr value =>
    obtain ⟨-, hphase, -⟩ := agentWrite_frame h
    exact hphase.trans hidle
  | memRead master addr =>
    obtain ⟨answer, d, rfl⟩ := agentRead_next h
    exact hidle
  | cacheClean range =>
    obtain rfl : cacheClean range s = t := by simpa [receive] using h
    exact hidle
  | cacheInvalidate range =>
    obtain rfl : cacheInvalidate range s = t := by simpa [receive] using h
    exact hidle
  | sampleIrq =>
    obtain rfl : sampleIrq s = t := by simpa [receive] using h
    rw [sampleIrq_frame]
    exact hidle
  | reset =>
    obtain ⟨-, rfl⟩ | ⟨i, r, -, -, rfl⟩ := platformReset_next h <;> rfl

/-- Settles O50: of the inputs only a register write can start an operation, and of those only a legal word to CMD. -/
theorem operationsStartByCommand : Obligations.OperationsStartByCommand := by
  intro s t i hidle h hstarted
  have hnot : t.phase ≠ .idle := by simp [hstarted]
  cases hi : s.inputs with
  | nil =>
    obtain rfl : s = t := by simpa [step_nil hi, engineTurn_idle hidle] using h
    exact absurd hidle hnot
  | cons x rest =>
    rw [step_cons hi] at h
    by_cases hx : ∃ addr size w, x = .busWrite addr size w
    · obtain ⟨addr, size, w, rfl⟩ := hx
      obtain rfl | ⟨r, rfl, rfl, rfl⟩ := hostAccess_next h
      · exact absurd hidle hnot
      · obtain ⟨rfl, hbusy, rfl⟩ := writeReg_starts (s := { s with inputs := rest }) hidle hstarted
        exact ⟨hbusy, rest, hi⟩
    · exact absurd (receive_idle (s := { s with inputs := rest }) hidle (by simpa using hx) h) hnot

/-! ### An operation in progress is stopped by reset alone (R211) -/

/-- What R211 and R246 keep of the operation in progress, and log 13 of the visibility of its source. -/
structure KeepsOperation (s t : State) : Prop where
  phase     : t.phase = s.phase
  operands  : t.operands = s.operands
  owned     : t.owned = s.owned
  irqEn     : t.irqEn = s.irqEn
  resultLen : t.resultLen = s.resultLen
  busy      : t.status.busy = s.status.busy
  done      : t.status.done = s.status.done
  code      : t.status.code = s.status.code
  visible   : t.race.sourceSeen = s.race.sourceSeen ∧ t.race.sourceDraw = s.race.sourceDraw

namespace KeepsOperation

theorem refl (s : State) : KeepsOperation s s :=
  ⟨rfl, rfl, rfl, rfl, rfl, rfl, rfl, rfl, rfl, rfl⟩

/-- While BUSY = 1 and DONE = 0 a register write sets or clears IGN at most (10_state.md R36). -/
theorem writeReg {s : State} (hbusy : s.status.busy = true) (hdone : s.status.done = false) (r : Reg) (w : Word) :
    KeepsOperation s (writeReg r w s) := by
  by_cases hstatus : r = .status
  · subst hstatus
    have hcleared : (s.status.write w).done = s.status.done := by simp [hdone]
    exact { refl s with done := hcleared }
  · by_cases hlen : r = .resultLen
    · subst hlen
      exact refl s
    · rw [writeReg_busy w hbusy hstatus hlen]
      exact { refl s with }

/-- While DONE = 0 a read gives no buffer back. -/
theorem hostReadReg {s : State} (hdone : s.status.done = false) (r : Reg) : KeepsOperation s (hostReadReg r s) := by
  obtain ⟨howned, -⟩ := hostReadReg_keeps_claims (doneIsOwn_eq_false (.inl hdone)) r
  rw [hostReadReg_frame] at howned ⊢
  exact { refl s with owned := howned }

theorem sampleIrq {s : State} (hdone : s.status.done = false) : KeepsOperation s (sampleIrq s) := by
  obtain ⟨howned, -⟩ := sampleIrq_keeps_claims (doneIsOwn_eq_false (.inl hdone))
  rw [sampleIrq_frame] at howned ⊢
  exact { refl s with owned := howned }

/-- A write of system memory is noted in what a completed operation left, and of one in progress nothing is kept
there; a race is marked and no more (70_reset_and_hazards.md R245). -/
theorem agentWrite {s t : State} {i : Instr} {v : Operands}
    (ho : s.owned = some { op := i, operands := v, settled := none }) {master : Master} {a : Nat} {b : Byte}
    (h : agentWrite master a b s = .next t) : KeepsOperation s t := by
  have hnoted : ∀ lost, (scatterClaims lost (landWrite master a b s)).owned = s.owned := fun lost => by
    rw [scatterClaims_owned, landWrite_owned, ho]
    rfl
  obtain ⟨-, rfl⟩ | ⟨-, ⟨rfl, -⟩ | ⟨o', ho', ⟨-, rfl⟩ | ⟨m, hm, -⟩⟩⟩ := agentWrite_next h
  · exact { refl s with }
  · exact { refl s with owned := hnoted _ }
  · have hvisible : ∀ rc, rc = (if o'.operands.inViews a then s.race.note o'.operands a else s.race) →
        rc.sourceSeen = s.race.sourceSeen ∧ rc.sourceDraw = s.race.sourceDraw := by
      rintro rc rfl
      split <;> exact ⟨rfl, rfl⟩
    exact { refl s with owned := hnoted _, visible := hvisible _ rfl }
  · obtain rfl := Option.some.inj (ho.symm.trans ho')
    cases hm

theorem hostAccess {addr size : Nat} {act : Reg → State → State} {s t : State}
    (hact : ∀ r, KeepsOperation s (act r s)) (h : hostAccess addr size act s = .next t) : KeepsOperation s t := by
  obtain rfl | ⟨r, -, -, rfl⟩ := hostAccess_next h
  · exact refl t
  · exact hact r

/-- No input but the engine's turn and reset touches the operation in progress. -/
theorem receive {s t : State} {x : Input} {i : Instr} (hinv : MachineInv s) (hp : s.phase = .busy i)
    (hengine : x ≠ .engine) (hreset : x ≠ .reset) (h : receive x s = .next t) : KeepsOperation s t := by
  have hbusy : s.status.busy = true := hinv.busyPhase.mpr (by simp [hp])
  have hdone := hinv.busyNotDone hbusy
  cases x with
  | engine => exact absurd rfl hengine
  | busWrite addr size w => exact .hostAccess (fun r => .writeReg hbusy hdone r w) h
  | busRead addr size => exact .hostAccess (.hostReadReg hdone) h
  | memWrite master addr value => exact .agentWrite (hinv.operandsHeld i hp) h
  | memRead master addr =>
    obtain ⟨answer, d, rfl⟩ := agentRead_next h
    exact { refl s with }
  | cacheClean range =>
    obtain rfl : cacheClean range s = t := by simpa [Machine.receive] using h
    exact { refl s with }
  | cacheInvalidate range =>
    obtain rfl : cacheInvalidate range s = t := by simpa [Machine.receive] using h
    exact { refl s with }
  | sampleIrq =>
    obtain rfl : Machine.sampleIrq s = t := by simpa [Machine.receive] using h
    exact .sampleIrq hdone
  | reset => exact absurd rfl hreset

end KeepsOperation

/-- Settles O49: while the operation is in progress BUSY is 1 and DONE 0, so no input but the engine's turn and reset
touches it (`KeepsOperation`). -/
theorem noCancellation : Obligations.NoCancellation := by
  intro s t x rest i hinv hp hi hengine hreset h
  have hbusy : s.status.busy = true := hinv.busyPhase.mpr (by simp [hp])
  have hrest : MachineInv { s with inputs := rest } := { hinv with }
  rw [step_cons hi] at h
  have hkeeps := KeepsOperation.receive hrest hp hengine hreset h
  exact ⟨hkeeps.phase.trans hp, hkeeps.operands, hkeeps.owned, hkeeps.irqEn, hkeeps.resultLen,
    hkeeps.busy.trans hbusy, hkeeps.done.trans (hinv.busyNotDone hbusy), hkeeps.code, hkeeps.visible⟩

end Sys2Proof.Machine
end

section
/-! SUPPORT. How an operation ends (60_exceptions.md R200 to R207, R210, R212): with BUS_ERROR where it meets a refused
address, with one of four codes in every state, and with a code and a length that only its operands, MemAdmit and the
source bytes it reads decide. -/

namespace Sys2Proof.Machine

/-! ### Refused addresses of ENCODE (R205) -/

/-- ENCODE past its checks, with a refused address in its source or its write range, ends with BUS_ERROR, its write
range free. -/
theorem encodeResult_refused {v : Operands} {rc : Race} {s : State} (hdevice : v.touchesDevice s.platform = false)
    (hvalid : encodeInvalid v = false) (hcap : reqCap v.srcLen ≤ v.dstCap) (hne : v.srcLen ≠ 0)
    (hrefused : ¬ (rangeAdmitted s.platform v.source = true ∧
      rangeAdmitted s.platform (encodeWriteRange v) = true)) :
    encodeResult v rc s = .ok
      { code := .busError, len := 0, bytes := freeBytes s.draws v.dstBase (encodedLen v.srcLen + 1) } := by
  rw [← Bool.and_eq_true, Bool.not_eq_true] at hrefused
  simp only [encodeResult, hdevice, hvalid, Nat.not_lt.mpr hcap, hne, hrefused, Bool.not_false, Bool.false_eq_true,
    if_false, if_true]

/-- Settles O27: the refused address is of the source or of the write range, both of which the body looks at before
its first write. -/
theorem encodeBusError : Obligations.EncodeBusError := by
  rintro s hviews hne hroom hplain ⟨x, hx, hnot⟩
  have hrefused : ¬ (rangeAdmitted s.platform s.operands.source = true ∧
      rangeAdmitted s.platform (encodeWriteRange s.operands) = true) := by
    rintro ⟨hsource, hrange⟩
    refine hnot (hx.elim (fun hin => ?_) fun hin => ?_)
    · exact (rangeAdmitted_iff _ _).mp hsource x ((source_mem_iff s x).mpr hin)
    · refine (rangeAdmitted_iff _ _).mp hrange x ((Range.mem_iff _ _).mpr ?_)
      simp only [encodeWriteRange, encodedLen_eq, operands_dstBase, operands_srcLen]
      omega
  have hreq : reqCap s.operands.srcLen ≤ s.operands.dstCap := by
    rw [operands_srcLen, reqCap_eq hne.ne', encodedLen_eq]
    exact hroom
  have hresult := encodeResult_refused (rc := s.race) ((touchesDevice_iff s).mpr hplain)
    (encodeInvalid_eq_false hviews (by omega)) hreq hne.ne' hrefused
  obtain ⟨t, hexec, hcompleted, hmem⟩ := exec_completed (i := .encode) hresult
  refine ⟨t, hexec, hcompleted, fun a ha => ?_⟩
  rw [hmem]
  refine Memory.read_writeBytes_outside s.mem _ ?_
  rw [freeBytes_length, operands_srcLen, encodedLen_eq]
  omega

/-! ### Refused addresses of DECODE (R205, R207) -/

/-- Settles O36: the two reads of DecLen come after the argument check and before the capacity check. -/
theorem decodeLengthReadBusError : Obligations.DecodeLengthReadBusError := by
  rintro s hviews hfour hne hplain ⟨a, ha, hnot⟩
  have hdevice := (touchesDevice_iff s).mpr hplain
  have hvalid := decodeInvalid_eq_false hviews hfour
  have hrefused : (memAdmit s.platform (s.srcBase.toNat + s.srcLen.toNat - 1) &&
      memAdmit s.platform (s.srcBase.toNat + s.srcLen.toNat - 2)) = false := by
    rw [← Bool.not_eq_true, Bool.and_eq_true]
    rintro ⟨hlast, hsecond⟩
    obtain hlastAt | hsecondAt := ha
    · obtain rfl : a = s.srcBase.toNat + s.srcLen.toNat - 1 := by omega
      exact hnot hlast
    · obtain rfl : a = s.srcBase.toNat + s.srcLen.toNat - 2 := by omega
      exact hnot hsecond
  have hresult : opResult .decode s.operands s.race s = .ok (.failed .busError) := by
    simp only [opResult, decodeResult, hdevice, hvalid, operands_srcLen, operands_srcBase, hne.ne', hrefused,
      Bool.not_false, Bool.false_eq_true, if_false, if_true]
  exact exec_completed_of_no_bytes hresult rfl

/-- DECODE past its capacity check that meets a refused address ends with BUS_ERROR, its write range free. -/
theorem decodeResult_refused {v : Operands} {rc : Race} {s : State} (hdevice : v.touchesDevice s.platform = false)
    (hvalid : decodeInvalid v = false) (hne : v.srcLen ≠ 0)
    (htail : memAdmit s.platform (v.srcBase + v.srcLen - 1) = true ∧
      memAdmit s.platform (v.srcBase + v.srcLen - 2) = true)
    (hsmall : decodeTooSmall v rc s = false) (hbus : decodeBusError v rc s = true) :
    decodeResult v rc s = .ok
      { code := .busError, len := 0, bytes := freeBytes s.draws v.dstBase (decodeWriteCount v rc s) } := by
  simp only [decodeResult, hdevice, hvalid, hne, htail, hsmall, hbus, Bool.and_self, Bool.not_true,
    Bool.false_eq_true, if_false, if_true]

/-- Where the accesses after the capacity check are admitted, so is every address they touch; R136's count is within
DST_CAP because it is within DecLen (R144). -/
theorem DecodePasses.admits {s : State} {k a : Nat} (h : DecodePasses s k)
    (hadmitted : accessesAdmitted s.operands k s = true)
    (htail : ∀ x, x + 1 = s.srcBase.toNat + s.srcLen.toNat ∨ x + 2 = s.srcBase.toNat + s.srcLen.toNat → Admits s x)
    (ha : DecodeTouches s k a) : Admits s a := by
  have hcount := (outCount_le_required h.quiet.undisturbed h.prefixed h.fours h.nonempty.ne').trans h.room
  simp only [accessesAdmitted, Bool.and_eq_true, rangeAdmitted_iff, Range.mem_iff, scanRange, prefixCount,
    decodedCount_eq_outCount, operands_srcBase, operands_srcLen, operands_dstBase, operands_dstCap] at hadmitted
  obtain ⟨hscan, hwrites⟩ := hadmitted
  obtain hread | hlast | hsecond | hwritten := ha
  · exact hscan a hread
  · exact htail a (.inl hlast)
  · exact htail a (.inr hsecond)
  · exact hwrites a (by omega)

/-- DECODE past its checks, its two reads of DecLen admitted, with a refused address among its later accesses. -/
theorem DecodePasses.completes_refused {s : State} {k : Nat} (h : DecodePasses s k)
    (htail : ∀ x, x + 1 = s.srcBase.toNat + s.srcLen.toNat ∨ x + 2 = s.srcBase.toNat + s.srcLen.toNat → Admits s x)
    (hrefused : ∃ a, DecodeTouches s k a ∧ ¬ Admits s a) :
    ∃ t, exec .decode s = .next t ∧ Completed s t 0x4#4 0 ∧
      ∀ a, a < s.dstBase.toNat ∨ s.dstBase.toNat + OutCount k ≤ a → t.mem.read a = s.mem.read a := by
  have hk := prefixLength_eq h.quiet.undisturbed h.prefixed
  have hne := h.nonempty
  have hfours := h.fours
  have hreads : Admits s (s.srcBase.toNat + s.srcLen.toNat - 1) ∧ Admits s (s.srcBase.toNat + s.srcLen.toNat - 2) :=
    ⟨htail _ (.inl (by omega)), htail _ (.inr (by omega))⟩
  obtain ⟨-, hracedTail, -, hseen⟩ := h.quiet.undisturbed
  have hsmall : decodeTooSmall s.operands s.race s = false := by
    simpa [decodeTooSmall, hracedTail, decLen_eq_required hseen] using h.room
  have hbus : decodeBusError s.operands s.race s = true := by
    rw [decodeBusError, hk, Bool.not_eq_true', ← Bool.not_eq_true]
    intro hadmitted
    obtain ⟨a, ha, hnot⟩ := hrefused
    exact hnot (h.admits hadmitted htail ha)
  have hresult := decodeResult_refused ((touchesDevice_iff s).mpr h.quiet.plain)
    (decodeInvalid_eq_false h.views h.fours) hne.ne' hreads hsmall hbus
  obtain ⟨-, hcount, -⟩ := decodeWriteCount_le s.operands s.race s
  rw [hk, decodedCount_eq_outCount] at hcount
  obtain ⟨t, hexec, hcompleted, hmem⟩ := exec_completed (i := .decode) hresult
  refine ⟨t, hexec, hcompleted, fun a ha => ?_⟩
  rw [hmem]
  exact Memory.read_writeBytes_outside s.mem _ (by rw [freeBytes_length]; omega)

/-- Without a hazard RESULT_LEN on OK is R136's count of the `K` of memory's own bytes (41_decode.md R142). -/
theorem decodeLength_eq_outCount {s : State} {k : Nat} (hquiet : Quiet s) (hprefix : IsValidPrefix s k) :
    decodeLength s.operands s.race s = OutCount k := by
  rw [decodeLength, unpredictable_of_quiet hquiet, ← decodedSymbols_length hquiet.undisturbed hprefix,
    ← decodedCount_eq_outCount]
  rfl

/-- Settles O37: a refused address is of the two reads of DecLen (O36) or of the later accesses, which the body looks
at before its first write; and no other address is looked at. -/
theorem decodeBodyBusError : Obligations.DecodeBodyBusError := by
  refine ⟨fun s k h hrefused => ?_, fun s k h hadmitted => ?_⟩
  · by_cases htail : ∃ a, (a + 1 = s.srcBase.toNat + s.srcLen.toNat ∨ a + 2 = s.srcBase.toNat + s.srcLen.toNat) ∧
        ¬ Admits s a
    · obtain ⟨t, hexec, hcompleted, hmem⟩ :=
        decodeLengthReadBusError s h.views h.fours h.nonempty h.quiet.plain htail
      exact ⟨t, hexec, hcompleted, fun a _ => by rw [hmem]⟩
    · exact h.completes_refused (by simpa using htail) hrefused
  · obtain ⟨t, hexec, hcompleted, -, hframe⟩ := decode_completes_within_range h.views h.fours h.nonempty.ne'
      h.quiet.plain h.quiet.undisturbed h.prefixed h.room hadmitted
    exact ⟨t, hexec, decodeLength_eq_outCount h.quiet h.prefixed ▸ hcompleted, hframe⟩

/-! ### Every operation completes (R200, R206, R210) -/

/-- ILLEGAL_CMD is no code of an operation (60_exceptions.md R200). -/
theorem opResult_code_ne_illegalCmd {i : Instr} {v : Operands} {rc : Race} {s : State} {r : OpResult}
    (h : opResult i v rc s = .ok r) : r.code ≠ .illegalCmd := by
  cases i with
  | encode =>
    obtain ⟨-, ⟨rfl, -⟩ | ⟨rfl, -⟩ | ⟨rfl, -⟩ | ⟨-, -, -, ⟨hc, -⟩ | ⟨hc, -⟩ | ⟨hc, -⟩⟩⟩ := encodeResult_ok h
    all_goals simp [OpResult.failed, *]
  | decode =>
    obtain ⟨-, ⟨rfl, -⟩ | ⟨rfl, -⟩ |
      ⟨-, -, rfl | ⟨rfl, -⟩ | ⟨-, ⟨hc, -⟩ | ⟨hc, -⟩ | ⟨hc, -⟩⟩⟩⟩ := decodeResult_ok h
    all_goals simp [OpResult.failed, *]

/-- Outside memory with side effects the body has a result (20_memory.md R59). -/
theorem opResult_of_plain (i : Instr) {s : State} (hplain : PlainMemory s) :
    ∃ r, opResult i s.operands s.race s = .ok r := by
  cases h : opResult i s.operands s.race s with
  | ok r => exact ⟨r, rfl⟩
  | error e =>
    obtain ⟨-, htouches⟩ := (opResult_error_iff i _ _ _ e).mp h
    simp [(touchesDevice_iff s).mpr hplain] at htouches

/-- Settles O44: the body has a result, and the completion step reports it. -/
theorem everyOperationCompletes : Obligations.EveryOperationCompletes := by
  intro i s hplain
  obtain ⟨r, hr⟩ := opResult_of_plain i hplain
  obtain ⟨t, hexec, hcompleted, -⟩ := exec_completed hr
  refine ⟨t, _, _, hexec, hcompleted, ?_, fun hcode => opResult_len_of_error hr fun hok => ?_, opResult_len_le hr⟩
  · have hlegal := opResult_code_ne_illegalCmd hr
    cases hc : r.code
    case illegalCmd => exact absurd hc hlegal
    all_goals decide
  · exact hcode ((completionCode_eq_zero_iff _).mpr hok)

/-! ### What code and length depend on (R212) -/

/-- What the host reads of a result: CODE and RESULT_LEN. -/
def OpResult.outcome (r : OpResult) : Completion × Nat := (r.code, r.len)

/-- Two completion steps whose bodies agree in code and length report the same. -/
theorem exec_outcome_congr {i : Instr} {s s' t t' : State}
    (h : (opResult i s.operands s.race s).map OpResult.outcome
      = (opResult i s'.operands s'.race s').map OpResult.outcome)
    (ht : exec i s = .next t) (ht' : exec i s' = .next t') :
    t.status.code = t'.status.code ∧ t.resultLen = t'.resultLen := by
  obtain ⟨r, hr, rfl⟩ := exec_next ht
  obtain ⟨r', hr', rfl⟩ := exec_next ht'
  rw [hr, hr'] at h
  obtain ⟨hcode, hlen⟩ := Prod.mk.inj (Except.ok.inj h)
  exact ⟨congrArg completionCode hcode, congrArg (BitVec.ofNat 32) hlen⟩

/-- ENCODE's code and length are functions of its operands and MemAdmit, whatever memory holds and whoever wrote it. -/
theorem encodeResult_outcome_congr (v : Operands) (rc rc' : Race) {s s' : State}
    (hplatform : s.platform = s'.platform) :
    (encodeResult v rc s).map OpResult.outcome = (encodeResult v rc' s').map OpResult.outcome := by
  unfold encodeResult
  rw [hplatform]
  split_ifs <;> rfl

/-- DECODE's code and length without a race are functions of its operands, MemAdmit, DecLen and `K`. -/
theorem decodeResult_outcome_congr {v : Operands} {rc rc' : Race} {s s' : State}
    (hplatform : s.platform = s'.platform) (hquiet : unpredictable v rc = false) (hquiet' : unpredictable v rc' = false)
    (hprefix : prefixLength v rc s = prefixLength v rc' s')
    (hdecLen : decodeInvalid v = false → decLen v rc s = decLen v rc' s') :
    (decodeResult v rc s).map OpResult.outcome = (decodeResult v rc' s').map OpResult.outcome := by
  obtain ⟨htail, hsource⟩ := not_raced_of_predictable hquiet
  obtain ⟨htail', hsource'⟩ := not_raced_of_predictable hquiet'
  have hlen : decodeLength v rc s = decodeLength v rc' s' := by
    simp [decodeLength, hquiet, hquiet', ← prefixLength_exact hsource, ← prefixLength_exact hsource', hprefix]
  have hbus : decodeBusError v rc s = decodeBusError v rc' s' := by
    simp only [decodeBusError, accessesAdmitted, hprefix, hplatform]
  cases hvalid : decodeInvalid v with
  | true => simp only [decodeResult, hvalid, hplatform, if_true]
  | false =>
    have hsmall : decodeTooSmall v rc s = decodeTooSmall v rc' s' := by
      simp [decodeTooSmall, htail, htail', hdecLen hvalid]
    simp only [decodeResult, hvalid, hplatform, hsmall, hbus, hlen, hquiet, hquiet', Bool.false_eq_true, if_false]
    split_ifs <;> rfl

section
variable {s s' : State} {k : Nat} (hoperands : s.operands = s'.operands)
  (hagree : ∀ a, InSource s a → a ≤ s.srcBase.toNat + k ∨ s.srcBase.toNat + s.srcLen.toNat ≤ a + 2 →
    s.mem.read a = s'.mem.read a)
include hoperands hagree

/-- A memory that holds the valid prefix and the byte that ends it has the same one. -/
theorem IsValidPrefix.congr (h : IsValidPrefix s k) : IsValidPrefix s' k := by
  have hbase : s.srcBase.toNat = s'.srcBase.toNat := congrArg Operands.srcBase hoperands
  have hlen : s.srcLen.toNat = s'.srcLen.toNat := congrArg Operands.srcLen hoperands
  have hwithin := h.within
  have hread : ∀ i, i ≤ k → i < s.srcLen.toNat →
      s.mem.read (s.srcBase.toNat + i) = s'.mem.read (s.srcBase.toNat + i) := fun i hi hlt =>
    hagree _ ⟨by omega, by omega⟩ (.inl (by omega))
  refine ⟨hlen ▸ hwithin, fun i hi => ?_, fun hlt => ?_⟩
  · rw [← hbase, ← hread i hi.le (by omega)]
    exact h.valid i hi
  · rw [← hbase, ← hread k le_rfl (by omega)]
    exact h.stops (by omega)

/-- A memory that holds the last two source bytes has the same DecLen. -/
theorem requiredDecoded_congr (hfour : s.srcLen.toNat % 4 = 0) : RequiredDecoded s = RequiredDecoded s' := by
  have hbase : s.srcBase.toNat = s'.srcBase.toNat := congrArg Operands.srcBase hoperands
  have hlen : s.srcLen.toNat = s'.srcLen.toNat := congrArg Operands.srcLen hoperands
  unfold RequiredDecoded
  rw [← hbase, ← hlen]
  by_cases hne : s.srcLen.toNat = 0
  · rw [if_pos hne, if_pos hne]
  · rw [hagree (s.srcBase.toNat + s.srcLen.toNat - 1) ⟨by omega, by omega⟩ (.inr (by omega)),
      hagree (s.srcBase.toNat + s.srcLen.toNat - 2) ⟨by omega, by omega⟩ (.inr (by omega))]

/-- 20_memory.md R58, 41_decode.md R141: of DECODE's source bytes those it reads decide code and length. -/
theorem decode_outcome_congr (hquiet : Quiet s) (hquiet' : Quiet s') (hplatform : s.platform = s'.platform)
    (hprefix : IsValidPrefix s k) :
    (opResult .decode s.operands s.race s).map OpResult.outcome
      = (opResult .decode s'.operands s'.race s').map OpResult.outcome := by
  have hprefix' := hprefix.congr hoperands hagree
  have hpredictable' := unpredictable_of_quiet hquiet'
  have hk := prefixLength_eq hquiet.undisturbed hprefix
  have hk' := prefixLength_eq hquiet'.undisturbed hprefix'
  obtain ⟨-, -, -, hseen⟩ := hquiet.undisturbed
  obtain ⟨-, -, -, hseen'⟩ := hquiet'.undisturbed
  have hdecLen : decodeInvalid s.operands = false → decLen s.operands s.race s = decLen s'.operands s'.race s' := by
    intro hvalid
    rw [decLen_eq_required hseen, decLen_eq_required hseen']
    refine requiredDecoded_congr hoperands hagree ?_
    simpa [decodeInvalid] using (Bool.or_eq_false_iff.mp hvalid).2
  rw [← hoperands] at hpredictable' hk' hdecLen ⊢
  exact decodeResult_outcome_congr hplatform (unpredictable_of_quiet hquiet) hpredictable' (hk.trans hk'.symm) hdecLen

end

/-- Settles O46: of ENCODE's code and length no byte decides, of DECODE's only those it reads; the first part for DECODE
is the second at the `K` of its source. -/
theorem resultDependsOnSourceOnly : Obligations.ResultDependsOnSourceOnly := by
  refine ⟨fun i s s' t t' hquiet hquiet' hoperands hplatform hagree ht ht' => exec_outcome_congr ?_ ht ht',
    fun s s' t t' k hquiet hquiet' hoperands hplatform hprefix hagree ht ht' => exec_outcome_congr
      (decode_outcome_congr hoperands hagree hquiet hquiet' hplatform hprefix) ht ht'⟩
  cases i with
  | encode =>
    rw [← hoperands]
    exact encodeResult_outcome_congr s.operands s.race s'.race hplatform
  | decode =>
    obtain ⟨-, -, -, hseen⟩ := hquiet.undisturbed
    exact decode_outcome_congr hoperands (fun a ha _ => hagree a ha) hquiet hquiet' hplatform
      (isValidPrefix_decodedSymbols hseen)

end Sys2Proof.Machine
end

section
/-! SUPPORT. Reset, and the completion of an operation whose buffers another agent wrote (70_reset_and_hazards.md R240
to R242, R245; 20_memory.md R56): what reset leaves, how far an operation writes whatever races with it, and which code
a race leaves it. -/

namespace Sys2Proof.Machine

/-! ### The state after reset (R240, R242) -/

/-- Settles O54: an idle block with an empty memory, which owns and claims no buffer. -/
theorem resetMeetsInvariant : Obligations.ResetMeetsInvariant where
  memWf := rfl
  memBounded := rfl
  busyPhase := by simp [State.reset, Status.reset]
  busyNotDone := nofun
  busyNoResult := nofun
  codeLegal := Nat.zero_le 4
  errorNoLength := fun _ => rfl
  operandsHeld := nofun
  heldOrSettled := nofun
  settledApart := nofun
  writtenInside := ⟨nofun, nofun⟩

/-- The reset input leaves a reset block, over a memory that an abandoned operation may have written. -/
theorem step_reset_next {s t : State} {rest : List Input} (hi : s.inputs = .reset :: rest) (h : step s = .next t) :
    ∃ s', t = resetBlock s' := by
  obtain ⟨-, ht⟩ | ⟨_, _, -, -, ht⟩ := platformReset_next ((step_cons hi).symm.trans h)
  · exact ⟨_, ht⟩
  · exact ⟨_, ht⟩

/-- Settles O51: power-on and the reset input leave the same values, and with no operation in progress reset writes
no memory. -/
theorem resetEffect : Obligations.ResetEffect := by
  refine ⟨fun s rest hi hidle => ⟨_, step_reset_idle hi hidle, rfl⟩, ?_⟩
  rintro t (rfl | ⟨s, rest, hi, h⟩)
  · exact ⟨rfl, rfl, rfl, rfl, rfl, rfl, rfl, rfl, rfl⟩
  · obtain ⟨s', rfl⟩ := step_reset_next hi h
    exact ⟨rfl, rfl, rfl, rfl, rfl, rfl, rfl, rfl, rfl⟩

/-! ### How far an operation writes, whatever races with it (20_memory.md R56) -/

/-- ENCODE yields at most its text and the terminator. -/
theorem encodeResult_length_le {v : Operands} {rc : Race} {s : State} {r : OpResult}
    (h : encodeResult v rc s = .ok r) : r.bytes.length ≤ encodedLen v.srcLen + 1 := by
  obtain hnone | hrange := encodeResult_range h
  · simp [hnone]
  · exact (congrArg Range.len hrange).le

/-- DECODE yields at most what R136 counts of the `K` the scan finds. -/
theorem decodeResult_length_le {v : Operands} {rc : Race} {s : State} {r : OpResult}
    (h : decodeResult v rc s = .ok r) : r.bytes.length ≤ decodedCount (prefixLength v rc s) := by
  obtain ⟨-, hcount, -⟩ := decodeWriteCount_le v rc s
  obtain ⟨-, ⟨rfl, -⟩ | ⟨rfl, -⟩ | ⟨-, -, rfl | ⟨rfl, -⟩ | ⟨-, hbytes⟩⟩⟩ := decodeResult_ok h
  · exact Nat.zero_le _
  · exact Nat.zero_le _
  · exact Nat.zero_le _
  · exact Nat.zero_le _
  · obtain ⟨-, -, hb⟩ | ⟨-, -, -, hb⟩ | ⟨-, hquiet, -, hb⟩ := hbytes
    · simpa [hb] using hcount
    · simpa [hb] using hcount
    · obtain ⟨-, hsource⟩ := not_raced_of_predictable hquiet
      rw [hb, decodeSymbols_length, prefixLength_exact hsource]

/-- A scan that ends below every source byte another agent wrote finds the `K` of memory's own bytes (log 7). -/
theorem prefixLength_eq_of_raced_above {s : State} {k : Nat} (hseen : s.race.sourceSeen = true)
    (hprefix : IsValidPrefix s k) (habove : ∀ x ∈ s.race.racedSource, s.srcBase.toNat + k < x) :
    prefixLength s.operands s.race s = k := by
  have hvalid : ∀ i, i ≤ k → validAt s.race s (s.srcBase.toNat + i)
      = (unmap8 (s.mem.read (s.srcBase.toNat + i))).2 := by
    intro i hi
    have hclear : s.srcBase.toNat + i ∉ s.race.racedSource := fun hmem => by
      have := habove _ hmem
      omega
    simp [validAt, hclear, sourceByte_of_seen hseen]
  exact scanCount_eq hprefix.within (fun i hi => (hvalid i hi.le).trans (hprefix.valid i hi))
    (fun hlt => (hvalid k le_rfl).trans (hprefix.stops hlt))

/-- A write as long as ENCODE's leaves every byte past the terminator. -/
theorem encode_write_below_terminator {s : State} {r : OpResult}
    (h : opResult .encode s.operands s.race s = .ok r) {bs : List Byte} (hbs : bs.length = r.bytes.length) {a : Nat}
    (ha : s.dstBase.toNat + (s.srcLen.toNat + 2) / 3 * 4 < a) :
    (s.mem.writeBytes s.dstBase.toNat bs).read a = s.mem.read a := by
  have hlength := encodeResult_length_le h
  rw [encodedLen_eq, operands_srcLen] at hlength
  exact Memory.read_writeBytes_outside s.mem bs (by omega)

section
variable {s : State} {r : OpResult} (h : opResult .decode s.operands s.race s = .ok r) {bs : List Byte}
  (hbs : bs.length = r.bytes.length) {a : Nat}
include h hbs

/-- A write as long as DECODE's leaves every byte past what SRC_LEN valid symbols would yield. -/
theorem decode_write_below_srcLen (ha : s.dstBase.toNat + OutCount s.srcLen.toNat ≤ a) :
    (s.mem.writeBytes s.dstBase.toNat bs).read a = s.mem.read a := by
  have hlength := (decodeResult_length_le h).trans (decodedCount_mono (prefixLength_le _ _ _))
  rw [decodedCount_eq_outCount, operands_srcLen] at hlength
  exact Memory.read_writeBytes_outside s.mem bs (by omega)

/-- Where the scan ends below every source byte written, also every byte past R136's count of its `K`. -/
theorem decode_write_below_prefix {k : Nat} (hseen : s.race.sourceSeen = true) (hprefix : IsValidPrefix s k)
    (habove : ∀ x ∈ s.race.racedSource, s.srcBase.toNat + k < x) (ha : s.dstBase.toNat + OutCount k ≤ a) :
    (s.mem.writeBytes s.dstBase.toNat bs).read a = s.mem.read a := by
  have hlength := decodeResult_length_le h
  rw [prefixLength_eq_of_raced_above hseen hprefix habove, decodedCount_eq_outCount] at hlength
  exact Memory.read_writeBytes_outside s.mem bs (by omega)

end

/-! ### Reset during an operation (R241) -/

theorem platformReset_busy {s : State} {i : Instr} {r : OpResult} (hp : s.phase = .busy i)
    (hr : opResult i s.operands s.race s = .ok r) :
    platformReset s = .next (resetBlock { s with
      mem := s.mem.writeBytes s.dstBase.toNat (freeBytes s.draws s.dstBase.toNat r.bytes.length),
      stale := s.markStale s.operands.destination, draws := s.draws + 1 }) := by
  simp only [platformReset, hp, hr]
  rfl

/-- Settles O52: reset frees as many bytes from DST_BASE as the body would have written. -/
theorem resetAbandonsOperation : Obligations.ResetAbandonsOperation := by
  intro s rest i hi hp hplain
  obtain ⟨r, hr⟩ := opResult_of_plain i (s := { s with inputs := rest }) hplain
  have hfree := freeBytes_length s.draws s.dstBase.toNat r.bytes.length
  refine ⟨_, (step_cons hi).trans (platformReset_busy hp hr), rfl, rfl, rfl, fun a ha => ?_, ?_, ?_, ?_⟩
  · exact read_writeBytes_of_opResult hr s.mem hfree ha
  · rintro rfl a ha
    exact encode_write_below_terminator hr hfree ha
  · rintro rfl a ha
    exact decode_write_below_srcLen hr hfree ha
  · rintro rfl k hseen hprefix habove a ha
    exact decode_write_below_prefix hr hfree hseen ⟨hprefix.within, hprefix.valid, hprefix.stops⟩ habove ha

/-! ### The code of an operation another agent raced with (R245) -/

/-- Settles O47: nothing but the operands and MemAdmit decides ENCODE's code and length. -/
theorem encodeCodeDependsOnOperands : Obligations.EncodeCodeDependsOnOperands := by
  intro s s' t t' hoperands hplatform
  refine exec_outcome_congr ?_
  rw [← hoperands]
  exact encodeResult_outcome_congr s.operands s.race s'.race hplatform

/-- The statements' admitted views, in the model's terms. -/
theorem views_admitted {s : State} (h : ∀ a, InSource s a ∨ InDestination s a → Admits s a) :
    ∀ a, s.operands.source.mem a = true ∨ s.operands.destination.mem a = true → memAdmit s.platform a = true :=
  fun a ha => h a (ha.imp (source_mem_iff s a).mp (destination_mem_iff s a).mp)

/-- With every address of both views admitted DECODE meets no refused one (41_decode.md R143): its code is that of the
first check it fails, or OK. -/
theorem decodeResult_code_of_admitted {v : Operands} {rc : Race} {s : State} {r : OpResult}
    (h : decodeResult v rc s = .ok r)
    (hadmitted : ∀ a, v.source.mem a = true ∨ v.destination.mem a = true → memAdmit s.platform a = true) :
    r.code = if decodeInvalid v = true then .invalidArgument else if v.srcLen = 0 then .ok
      else if decodeTooSmall v rc s = true then .insufficientCapacity else .ok := by
  simp only [Range.mem_iff, Operands.source, Operands.destination] at hadmitted
  have hbus : decodeBusError v rc s = false := by
    simp only [decodeBusError, accessesAdmitted, Bool.not_eq_false', Bool.and_eq_true, rangeAdmitted_iff,
      Range.mem_iff, scanRange, prefixCount]
    exact ⟨fun a ha => hadmitted a (.inl (by omega)), fun a ha => hadmitted a (.inr (by omega))⟩
  unfold decodeResult at h
  split at h
  · cases h
  split at h
  · rename_i hinvalid
    cases h
    rw [if_pos hinvalid, OpResult.failed]
  rename_i hvalid
  rw [if_neg hvalid]
  split at h
  · rename_i hempty
    cases h
    rw [if_pos hempty]
  rename_i hne
  have hfour : v.srcLen % 4 = 0 := by
    simpa [decodeInvalid] using (Bool.or_eq_false_iff.mp (Bool.eq_false_of_not_eq_true hvalid)).2
  have hlast : memAdmit s.platform (v.srcBase + v.srcLen - 1) = true := hadmitted _ (.inl (by omega))
  have hsecond : memAdmit s.platform (v.srcBase + v.srcLen - 2) = true := hadmitted _ (.inl (by omega))
  simp only [hlast, hsecond, hbus, Bool.and_self, Bool.not_true, Bool.false_eq_true, if_false] at h
  rw [if_neg hne]
  split at h
  · rename_i hsmall
    cases h
    rw [if_pos hsmall, OpResult.failed]
  rename_i hroom
  rw [if_neg hroom]
  split at h <;> cases h <;> rfl

/-- Its arguments valid and its source not empty, DECODE's code is that of its capacity check. -/
theorem decode_code_of_runs {s : State} {r : OpResult} (hr : opResult .decode s.operands s.race s = .ok r)
    (hviews : ViewsValid s) (hfour : s.srcLen.toNat % 4 = 0) (hne : 0 < s.srcLen.toNat)
    (hadmitted : ∀ a, InSource s a ∨ InDestination s a → Admits s a) :
    r.code = if decodeTooSmall s.operands s.race s = true then .insufficientCapacity else .ok := by
  rw [decodeResult_code_of_admitted hr (views_admitted hadmitted), decodeInvalid_eq_false hviews hfour,
    if_neg Bool.false_ne_true, if_neg (show s.operands.srcLen ≠ 0 from hne.ne')]

/-- Settles O48: a race decides the capacity check, or leaves it exact; what is written lies within R136's count of the
`K` the scan finds. -/
theorem racedDecode : Obligations.RacedDecode := by
  refine ⟨fun s hviews hfour hne hplain hadmitted _ _ => ?_,
    fun s hviews hfour hne hplain hadmitted _ htail hseen => ?_⟩
  all_goals
    obtain ⟨r, hr⟩ := opResult_of_plain .decode hplain
    have hcode := decode_code_of_runs hr hviews hfour hne hadmitted
    obtain ⟨t, hexec, hcompleted, hmem⟩ := exec_completed hr
    have hlen := opResult_len_le hr
  · refine ⟨t, _, _, hexec, hcompleted, hlen, ?_, fun a ha => hmem ▸ decode_write_below_srcLen hr rfl ha⟩
    split at hcode
    · rw [hcode, opResult_len_of_error hr (by simp [hcode]), hmem, opResult_bytes_of_failed hr (.inr hcode)]
      exact .inr ⟨rfl, rfl, rfl⟩
    · exact .inl (congrArg completionCode hcode)
  · have hcheck : decodeTooSmall s.operands s.race s = true ↔ s.dstCap.toNat < RequiredDecoded s := by
      simp [decodeTooSmall, htail, decLen_eq_required hseen]
    refine ⟨fun hroom => ?_, fun hsmall => ?_⟩
    · rw [if_neg (mt hcheck.mp (Nat.not_lt.mpr hroom))] at hcode
      rw [hcode] at hcompleted
      exact ⟨t, _, hexec, hcompleted, hlen, fun a ha => hmem ▸ decode_write_below_srcLen hr rfl ha,
        fun k hprefix habove a ha => hmem ▸ decode_write_below_prefix hr rfl hseen hprefix habove ha⟩
    · rw [if_pos (hcheck.mpr hsmall)] at hcode
      rw [hcode, opResult_len_of_error hr (by simp [hcode])] at hcompleted
      exact ⟨t, hexec, hcompleted, by rw [hmem, opResult_bytes_of_failed hr (.inr hcode)]; rfl⟩

end Sys2Proof.Machine
end

section
/-! SUPPORT. A write by another agent into the buffers of an operation the host has not seen complete
(70_reset_and_hazards.md R245; logs 7 and 23): before the completion step it is recorded as a race, after it the outcome
is drawn again. -/

namespace Sys2Proof.Machine

/-! ### Where the write falls -/

theorem inViews_iff (s : State) (a : Nat) :
    s.operands.inViews a = true ↔ InSource s a ∨ InDestination s a := by
  rw [Operands.inViews, Bool.or_eq_true, source_mem_iff, destination_mem_iff]

theorem inTail_iff (s : State) (a : Nat) :
    s.operands.inTail a = true ↔ InSource s a ∧ s.srcBase.toNat + s.srcLen.toNat ≤ a + 2 := by
  rw [Operands.inTail, Bool.and_eq_true, source_mem_iff, decide_eq_true_eq]
  rfl

/-- A write disturbs no byte that no operation the host never saw complete wrote. -/
theorem disturbedBytes_of_unheld {s : State} {x : Nat} (h : Unheld s x) (a : Nat) :
    AddrSet.mem (disturbedBytes a s.unseen) x = false := Bool.eq_false_of_not_eq_true fun hmem => by
  obtain ⟨c, hc, hwritten⟩ := disturbedBytes_sub hmem
  simp [h c hc] at hwritten

/-- A write outside the views of those operations disturbs nothing. -/
theorem disturbedBytes_of_unclaimed {s : State} {a : Nat} (h : Unclaimed s a) : disturbedBytes a s.unseen = [] := by
  rw [disturbedBytes, disturbed_nil h, List.flatMap_nil]

/-! ### Before the completion step -/

/-- A write into the buffers of an operation in progress lands, frees what it disturbs, and is recorded. -/
theorem agentWrite_racing {master : Master} {a : Nat} (b : Byte) {s : State} {o : Ownership}
    (hplain : AddrSet.mem s.platform.sideEffects a = false) (hadmit : memAdmit s.platform a = true)
    (ho : s.owned = some o) (hunsettled : o.settled = none) (hview : o.operands.inViews a = true) :
    agentWrite master a b s = .next { scatterClaims (disturbedBytes a s.unseen) (landWrite master a b s) with
      race := s.race.note o.operands a } := by
  have howned : (scatterClaims (disturbedBytes a s.unseen) (landWrite master a b s)).owned
      = some ((o.noteWrite a b).scatter s.draws (disturbedBytes a s.unseen)) := by
    rw [scatterClaims_owned, landWrite_owned, ho]
    rfl
  simp only [agentWrite, hplain, hadmit, howned, hview, hunsettled, raceWith, Ownership.scatter_operands,
    Ownership.noteWrite_operands, Ownership.scatter_settled, Ownership.noteWrite_settled, scatterClaims_race,
    landWrite_race, Option.map_none, Bool.not_true, Bool.true_or, Bool.false_eq_true, if_false, if_true]

/-! ### After the completion step -/

theorem completionCode_ne_illegalCmd {c : Completion} (h : c ≠ .illegalCmd) :
    completionCode c ≠ completionCode .illegalCmd := by
  cases c
  case illegalCmd => exact absurd rfl h
  all_goals decide

/-- The body of an operation whose views cover no address with side effects has a result, whatever state it runs in. -/
theorem exists_opResult (i : Instr) {v : Operands} (rc : Race) {s : State} (h : v.touchesDevice s.platform = false) :
    ∃ r, opResult i v rc s = .ok r := by
  cases hr : opResult i v rc s with
  | ok r => exact ⟨r, rfl⟩
  | error e =>
    obtain ⟨-, htouches⟩ := (opResult_error_iff i v rc s e).mp hr
    simp [h] at htouches

/-- What a write of `b` at `a` leaves of an operation `i` with operands `v` that found the memory `found`: the result
`r` drawn again over it (log 7), its bytes over `unwritten`, what memory would hold without the first ones; and in both
free what the write disturbs (log 23). -/
structure Redrawn (i : Instr) (v : Operands) (found unwritten : Memory) (a : Nat) (b : Byte) (s : State)
    (r : OpResult) (u : State) : Prop where
  result    : ∃ z, z.platform = s.platform ∧ z.mem = found.scatter s.draws (disturbedBytes a s.unseen) ∧
    opResult i v (s.race.note v a) z = .ok r
  mem       : u.mem =
    ((unwritten.write a b).scatter s.draws (disturbedBytes a s.unseen)).writeBytes v.dstBase r.bytes
  status    : u.status = { s.status with code := completionCode r.code }
  resultLen : u.resultLen = BitVec.ofNat 32 r.len
  phase     : u.phase = s.phase
  operands  : u.operands = s.operands
  irqEn     : u.irqEn = s.irqEn
  inputs    : u.inputs = s.inputs

/-- A write into the buffers of a completed operation draws its outcome again. -/
theorem agentWrite_redrawn {master : Master} {a : Nat} (b : Byte) {s : State} {o : Ownership} {m : Settled}
    (hplain : AddrSet.mem s.platform.sideEffects a = false) (hadmit : memAdmit s.platform a = true)
    (ho : s.owned = some o) (hm : o.settled = some m) (hview : o.operands.inViews a = true)
    (hdevice : o.operands.touchesDevice s.platform = false) (hcode : s.status.code ≠ completionCode .illegalCmd) :
    ∃ u r, agentWrite master a b s = .next u ∧ Redrawn o.op o.operands m.found m.unwritten a b s r u := by
  have hwrite := agentWrite_settled (mr := master) (b := b) hplain hadmit ho hm (.inl hview)
  simp only [hview, if_true] at hwrite
  obtain ⟨r, hr⟩ := exists_opResult o.op (s.race.note o.operands a) (s := { scatterClaims (disturbedBytes a s.unseen)
    (landWrite master a b s) with
      mem := m.found.scatter s.draws (disturbedBytes a s.unseen), race := s.race.note o.operands a }) hdevice
  refine ⟨_, r, hwrite.trans (redoRaced_ok hr hcode), ?_⟩
  exact
    { result := by refine ⟨_, ?_, ?_, hr⟩ <;> rfl
      mem := rfl
      status := rfl
      resultLen := rfl
      phase := rfl
      operands := rfl
      irqEn := rfl
      inputs := rfl }

/-- Where the write disturbs nothing and misses the last two source bytes, the capacity check finds what it found. -/
theorem decodeTooSmall_note {v : Operands} {rc : Race} {a : Nat} {s z : State} (hmem : z.mem = s.mem)
    (htail : rc.racedTail = false) (ha : v.inTail a = false) :
    decodeTooSmall v (rc.note v a) z = decodeTooSmall v rc s := by
  have hdecLen : decLen v (rc.note v a) z = decLen v rc s := by simp [decLen, sourceByte, hmem]
  simp [decodeTooSmall, hdecLen, htail, ha]

/-- What memory holds then, where the operation drawn again wrote nothing and the write disturbed nothing. -/
theorem Redrawn.mem_read {i : Instr} {v : Operands} {found unwritten : Memory} {a x : Nat} {b : Byte} {s u : State}
    {r : OpResult} (h : Redrawn i v found unwritten a b s r u) (hwf : unwritten.wf = true) (hheld : Unheld s x)
    (hx : r.bytes = [] ∨ ¬ (v.dstBase ≤ x ∧ x < v.dstBase + v.dstCap)) :
    u.mem.read x = if x = a then b else unwritten.read x := by
  obtain ⟨z, -, -, hr⟩ := h.result
  rw [h.mem, ← read_scatter_write hwf a b s.draws (disturbedBytes_of_unheld hheld a)]
  obtain hnone | hx := hx
  · rw [hnone]
    rfl
  · exact read_writeBytes_of_opResult hr _ rfl hx

theorem Completed.operands_eq {s t : State} {code : BitVec 4} {len : Nat} (h : Completed s t code len) :
    t.operands = s.operands := by
  obtain ⟨hsrcBase, hsrcLen, hdstBase, hdstCap⟩ := h.operands
  simp only [State.operands, hsrcBase, hsrcLen, hdstBase, hdstCap]

/-- The completion step of the operation in progress, then a write into its buffers. -/
theorem exec_then_agentWrite {s : State} {i : Instr} {master : Master} {a : Nat} (b : Byte) (rest : List Input)
    (hinv : MachineInv s) (hp : s.phase = .busy i) (hplain : PlainMemory s) (hadmit : Admits s a)
    (hview : InSource s a ∨ InDestination s a) :
    ∃ t u r r', exec i s = .next t ∧ opResult i s.operands s.race s = .ok r ∧
      Completed s t (completionCode r.code) r.len ∧ agentWrite master a b { t with inputs := rest } = .next u ∧
      Redrawn i s.operands s.mem s.mem a b { t with inputs := rest } r' u := by
  obtain ⟨r, hr⟩ := opResult_of_plain i hplain
  obtain ⟨t, hexec, hcompleted, -⟩ := exec_completed hr
  obtain ⟨hplatform, -⟩ := hcompleted.outside
  obtain ⟨m, howned, hfound, hunwritten⟩ := hcompleted.owned
  rw [hinv.operandsHeld i hp, Option.map_some] at howned
  have hcode : t.status.code ≠ completionCode .illegalCmd := by
    rw [hcompleted.status]
    exact completionCode_ne_illegalCmd (opResult_code_ne_illegalCmd hr)
  obtain ⟨u, r', hwrite, hredrawn⟩ := agentWrite_redrawn (master := master) b (s := { t with inputs := rest })
    (by rw [hplatform]; exact hplain a hview) (by rw [hplatform]; exact hadmit) howned rfl ((inViews_iff s a).mpr hview)
    (by rw [hplatform]; exact (touchesDevice_iff s).mpr hplain) hcode
  rw [hfound, hunwritten] at hredrawn
  exact ⟨t, u, r, r', hexec, hr, hcompleted, hwrite, hredrawn⟩

theorem failed_of_completionCode {c : Completion} (h : completionCode c = 0x1#4 ∨ completionCode c = 0x2#4) :
    c = .invalidArgument ∨ c = .insufficientCapacity := by
  revert h
  cases c <;> decide

/-- Drawn again, ENCODE has the code and length it had (R245). -/
theorem encode_outcome_redrawn {v : Operands} {rc rc' : Race} {s z : State} {r r' : OpResult}
    (hr : opResult .encode v rc s = .ok r) (hr' : opResult .encode v rc' z = .ok r') (hz : z.platform = s.platform) :
    r'.code = r.code ∧ r'.len = r.len := by
  have hcongr : (opResult .encode v rc' z).map OpResult.outcome = (opResult .encode v rc s).map OpResult.outcome :=
    encodeResult_outcome_congr v rc' rc hz
  rw [hr, hr'] at hcongr
  exact Prod.mk.inj (Except.ok.inj hcongr)

/-- Drawn again over the same memory, DECODE has the code it had where its check of capacity is not raced with. -/
theorem decode_code_redrawn {v : Operands} {rc : Race} {a : Nat} {s z : State} {r r' : OpResult}
    (hr : opResult .decode v rc s = .ok r) (hr' : opResult .decode v (rc.note v a) z = .ok r')
    (hz : z.platform = s.platform) (hmem : z.mem = s.mem) (htail : rc.racedTail = false) (ha : v.inTail a = false)
    (hadmitted : ∀ x, v.source.mem x = true ∨ v.destination.mem x = true → memAdmit s.platform x = true) :
    r'.code = r.code := by
  rw [decodeResult_code_of_admitted hr hadmitted, decodeResult_code_of_admitted hr' (hz ▸ hadmitted),
    decodeTooSmall_note hmem htail ha]

/-- With valid arguments and every address admitted DECODE's code is OK or INSUFFICIENT_CAPACITY. -/
theorem decode_code_of_valid {v : Operands} {rc : Race} {s : State} {r : OpResult}
    (hr : opResult .decode v rc s = .ok r) (hvalid : decodeInvalid v = false)
    (hadmitted : ∀ x, v.source.mem x = true ∨ v.destination.mem x = true → memAdmit s.platform x = true) :
    r.code = .ok ∨ r.code = .insufficientCapacity := by
  rw [decodeResult_code_of_admitted hr hadmitted, hvalid, if_neg Bool.false_ne_true]
  split_ifs
  · exact .inl rfl
  · exact .inr rfl
  · exact .inl rfl

theorem step_engine_busy {s : State} {i : Instr} {rest : List Input} (hi : s.inputs = .engine :: rest)
    (hp : s.phase = .busy i) : step s = exec i { s with inputs := rest } :=
  (step_cons hi).trans (engineTurn_busy (s := { s with inputs := rest }) hp)

/-- Settles O58: before the completion step the write is recorded and no more; after it the outcome is drawn again over
the memory the step found, so only the check that the write races with can end otherwise. -/
theorem racingWriteIsMarked : Obligations.RacingWriteIsMarked := by
  refine ⟨fun s m a b rest i hinv hp hi hadmit hplain hview => ?_,
    fun s m a b rest i hinv hp hi hplain hadmit hview => ?_⟩
  · have hwrite := agentWrite_racing (s := { s with inputs := rest }) (master := m) b hplain hadmit
      (hinv.operandsHeld i hp) rfl ((inViews_iff s a.toNat).mpr hview)
    have hread : ∀ x, Unheld s x → (((s.mem.write a.toNat b).scatter s.draws (disturbedBytes a.toNat s.unseen)).read x
        = if x = a.toNat then b else s.mem.read x) := fun x hheld =>
      read_scatter_write hinv.memWf a.toNat b s.draws (disturbedBytes_of_unheld hheld a.toNat)
    refine ⟨_, (step_cons hi).trans hwrite, fun hheld => (hread _ hheld).trans (if_pos rfl),
      fun x hx hheld => (hread x hheld).trans (if_neg hx), rfl, fun _ hsource htail => ?_, fun hsource => ?_,
      rfl, rfl, rfl, rfl, rfl⟩
    · simp [(inTail_iff s a.toNat).mpr ⟨hsource, htail⟩]
    · simp [(source_mem_iff s a.toNat).mpr hsource]
  · have hinv' : MachineInv { s with inputs := .memWrite m a b :: rest } := { hinv with }
    obtain ⟨t, u, r, r', hexec, hr, hcompleted, hwrite, hredrawn⟩ :=
      exec_then_agentWrite (master := m) b rest hinv' hp hplain hadmit hview
    obtain ⟨hplatform, hinputs, -, hrace, -⟩ := hcompleted.outside
    obtain ⟨z, hz, hmem, hr'⟩ := hredrawn.result
    replace hz : z.platform = s.platform := hz.trans hplatform
    replace hr' : opResult i s.operands (s.race.note s.operands a.toNat) z = .ok r' := hrace ▸ hr'
    have hstatus : u.status = { busy := false, done := true, ign := s.status.ign, code := completionCode r'.code } := by
      rw [hredrawn.status, hcompleted.status]
    have hcode : u.status.code = completionCode r'.code := congrArg Status.code hstatus
    have hcode₀ : t.status.code = completionCode r.code := congrArg Status.code hcompleted.status
    have hread : ∀ x, Unheld s x → r'.bytes = [] ∨ ¬ InDestination s x →
        u.mem.read x = if x = a.toNat then b else s.mem.read x := fun x hheld hx =>
      hredrawn.mem_read hinv.memWf (fun c hc => hheld c (hcompleted.unseen ▸ hc)) hx
    have hlen : u.resultLen.toNat ≤ s.dstCap.toNat := by
      rw [hredrawn.resultLen, BitVec.toNat_ofNat]
      exact (Nat.mod_le _ _).trans (opResult_len_le hr')
    refine ⟨t, u, (step_engine_busy hi hp).trans hexec, (step_cons hinputs).trans hwrite,
      hredrawn.phase.trans hcompleted.phase, by rw [hstatus], by rw [hstatus], by rw [hstatus],
      hredrawn.operands.trans hcompleted.operands_eq, hredrawn.irqEn.trans hcompleted.irqEn, hlen, hredrawn.inputs,
      fun x hx hout hheld => (hread x hheld (.inr hout)).trans (if_neg hx),
      fun hout hheld => (hread _ hheld (.inr hout)).trans (if_pos rfl), fun hfailed => ?_, ?_, ?_, ?_⟩
    · have herror := failed_of_completionCode (hcode ▸ hfailed)
      have hnone := opResult_bytes_of_failed hr' herror
      refine ⟨?_, fun hheld => (hread _ hheld (.inl hnone)).trans (if_pos rfl),
        fun x hx hheld => (hread x hheld (.inl hnone)).trans (if_neg hx)⟩
      rw [hredrawn.resultLen, opResult_len_of_error hr' fun hok => by simp [hok] at herror]
    · rintro rfl
      obtain ⟨hsame, hlength⟩ := encode_outcome_redrawn hr hr' hz
      rw [hcode, hcode₀, hredrawn.resultLen, hsame, hlength, ← hcompleted.resultLen, BitVec.ofNat_toNat,
        BitVec.setWidth_eq]
      exact ⟨rfl, rfl⟩
    · rintro rfl hadm htail hunclaimed ha
      have hfound : z.mem = s.mem := by
        rw [hmem, disturbedBytes_of_unclaimed fun c hc => hunclaimed c (hcompleted.unseen ▸ hc)]
        rfl
      have hnotTail := Bool.eq_false_of_not_eq_true (mt (inTail_iff s a.toNat).mp ha)
      rw [hcode, hcode₀, decode_code_redrawn hr hr' hz hfound htail hnotTail (views_admitted hadm)]
    · rintro rfl hadm hviews hfour -
      rw [hcode]
      exact (decode_code_of_valid hr' (decodeInvalid_eq_false hviews hfour) (hz ▸ views_admitted hadm)).imp
        (congrArg completionCode) (congrArg completionCode)

end Sys2Proof.Machine
end
